-- ==== Sys2Proof/Word.lean ====
section
/-! DEFINITION. The widths of the block (00_scope.md R12): a register word has 16 bits, a selector 8, a command word,
a data word and a mask 32. -/

namespace Sys2Proof

/-- A 16-bit register word, in wire or in logical form (00_scope.md R12, R18). -/
abbrev RegWord := BitVec 16

/-- An 8-bit register selector (00_scope.md R18, 20_memory.md R70). -/
abbrev Selector := BitVec 8

/-- A 32-bit command, data or mask word (30_encoding.md R106, R110). -/
abbrev Word32 := BitVec 32

/-- A caller's name: it says only which response goes to whom (60_exceptions.md R243). -/
abbrev CallerId := Nat

end Sys2Proof
end

