-- ==== Sys2Proof/Syntax.lean ====
section
/-! DEFINITION. The ten commands (30_encoding.md R113), one constructor per row of spec/opcode_table.json, each with the
fields it uses and no other: an ignored field has no operand (92_eei_decisions.md D5). -/

namespace Sys2Proof

/-- One decoded command. Operands keep the width of their field (30_encoding.md R111, R112). -/
inductive Instr where
  /-- `READ_WORD` (40_transport.md R140): bank, selector. -/
  | rdw (bank : BitVec 2) (sel : BitVec 8)
  /-- `WRITE_WORD` (40_transport.md R145): bank, selector, logical word `DATA[15:0]`. -/
  | wrw (bank : BitVec 2) (sel : BitVec 8) (word : BitVec 16)
  /-- `GET_MASK` (41_transcode.md R160): bank, feature. -/
  | getm (bank : BitVec 2) (feat : BitVec 4)
  /-- `SET_MASK` (41_transcode.md R170): bank, feature, presented mask `DATA`. -/
  | setm (bank : BitVec 2) (feat : BitVec 4) (mask : BitVec 32)
  /-- `GET_PORT` (41_transcode.md R180): bank, feature, local port. -/
  | getp (bank : BitVec 2) (feat : BitVec 4) (port : BitVec 8)
  /-- `SET_PORT` (41_transcode.md R185): bank, feature, local port, presented value. -/
  | setp (bank : BitVec 2) (feat : BitVec 4) (port : BitVec 8) (v : Bool)
  /-- `MUX_GET_MASK` (42_bank_mux.md R205): feature. -/
  | mgetm (feat : BitVec 4)
  /-- `MUX_SET_MASK` (42_bank_mux.md R210): feature, presented global mask `DATA`. -/
  | msetm (feat : BitVec 4) (mask : BitVec 32)
  /-- `MUX_GET_PORT` (42_bank_mux.md R215): feature, global port. -/
  | mgetp (feat : BitVec 4) (gport : BitVec 8)
  /-- `MUX_SET_PORT` (42_bank_mux.md R220): feature, global port, presented value. -/
  | msetp (feat : BitVec 4) (gport : BitVec 8) (v : Bool)
deriving DecidableEq, Repr

end Sys2Proof
end

