-- ==== Sys2Proof/Decode.lean ====
section
/-! DEFINITION. Decoding the two words of a command (30_encoding.md R110 to R118), total, rejecting by name, and the
encoder of 30_encoding.md R127. -/

namespace Sys2Proof

/-- Why a pair of words is no command (30_encoding.md R114). Both are rejected with INVALID_COMMAND. -/
inductive DecodeError where
  /-- `CMD[15:10]` or `CMD[31:25]` is not zero. -/
  | reservedBits
  /-- `OP` is 0x0, 0x7, 0x8, 0xD, 0xE or 0xF. -/
  | reservedOp
deriving DecidableEq, Repr

/-- `CMD[3:0]` (30_encoding.md R111). -/
def opField (cmd : Word32) : BitVec 4 := cmd.extractLsb' 0 4

/-- `CMD[7:4]`. -/
def featField (cmd : Word32) : BitVec 4 := cmd.extractLsb' 4 4

/-- `CMD[9:8]`. -/
def bankField (cmd : Word32) : BitVec 2 := cmd.extractLsb' 8 2

/-- `CMD[15:10]`, which must be 0. -/
def reservedLow (cmd : Word32) : BitVec 6 := cmd.extractLsb' 10 6

/-- `CMD[23:16]`. -/
def idxField (cmd : Word32) : BitVec 8 := cmd.extractLsb' 16 8

/-- `CMD[24]`. -/
def vField (cmd : Word32) : Bool := cmd.getLsbD 24

/-- `CMD[31:25]`, which must be 0. -/
def reservedHigh (cmd : Word32) : BitVec 7 := cmd.extractLsb' 25 7

/-- The command two words stand for (30_encoding.md R113, R114). Ignored fields are not looked at. -/
def decode (cmd data : Word32) : Except DecodeError Instr :=
  if reservedLow cmd ≠ 0 ∨ reservedHigh cmd ≠ 0 then .error .reservedBits
  else match (opField cmd).toNat with
    | 0x1 => .ok (.rdw (bankField cmd) (idxField cmd))
    | 0x2 => .ok (.wrw (bankField cmd) (idxField cmd) (data.extractLsb' 0 16))
    | 0x3 => .ok (.getm (bankField cmd) (featField cmd))
    | 0x4 => .ok (.setm (bankField cmd) (featField cmd) data)
    | 0x5 => .ok (.getp (bankField cmd) (featField cmd) (idxField cmd))
    | 0x6 => .ok (.setp (bankField cmd) (featField cmd) (idxField cmd) (vField cmd))
    | 0x9 => .ok (.mgetm (featField cmd))
    | 0xA => .ok (.msetm (featField cmd) data)
    | 0xB => .ok (.mgetp (featField cmd) (idxField cmd))
    | 0xC => .ok (.msetp (featField cmd) (idxField cmd) (vField cmd))
    | _ => .error .reservedOp

/-- `CMD = OP | (FEAT << 4) | (BANK << 8) | (IDX << 16) | (V << 24)` (30_encoding.md R127). -/
def cmdWord (op feat : BitVec 4) (bank : BitVec 2) (idx : BitVec 8) (v : Bool) : Word32 :=
  op.setWidth 32 ||| feat.setWidth 32 <<< 4 ||| bank.setWidth 32 <<< 8 ||| idx.setWidth 32 <<< 16
    ||| (BitVec.ofBool v).setWidth 32 <<< 24

/-- The words `(CMD, DATA)` of a command, with 0 in every ignored and reserved field (30_encoding.md R125, R127). -/
def encode : Instr → Word32 × Word32
  | .rdw bank sel => (cmdWord 0x1 0 bank sel false, 0)
  | .wrw bank sel word => (cmdWord 0x2 0 bank sel false, word.setWidth 32)
  | .getm bank feat => (cmdWord 0x3 feat bank 0 false, 0)
  | .setm bank feat mask => (cmdWord 0x4 feat bank 0 false, mask)
  | .getp bank feat port => (cmdWord 0x5 feat bank port false, 0)
  | .setp bank feat port v => (cmdWord 0x6 feat bank port v, 0)
  | .mgetm feat => (cmdWord 0x9 feat 0 0 false, 0)
  | .msetm feat mask => (cmdWord 0xA feat 0 0 false, mask)
  | .mgetp feat gport => (cmdWord 0xB feat 0 gport false, 0)
  | .msetp feat gport v => (cmdWord 0xC feat 0 gport v, 0)

/-- The word `CMD` of an instruction given as one number whose bit 0 is bit 0 of `CMD`, and whose bits above `nbits`
are 0. -/
def cmdOfTable (nbits w : Nat) : Word32 := BitVec.ofNat 32 (w % 2 ^ nbits)

/-- The word `DATA` of the same number: its bits 63..32. -/
def dataOfTable (nbits w : Nat) : Word32 := BitVec.ofNat 32 (w % 2 ^ nbits / 2 ^ 32)

/-- What the decoder reads from an instruction whose bits are `w`, numbered as spec/opcode_table.json numbers them. -/
def decodeTableWord (nbits w : Nat) : Option Instr :=
  (decode (cmdOfTable nbits w) (dataOfTable nbits w)).toOption

end Sys2Proof
end

