-- ==== Sys2Proof/Config.lean ====
section
/-! DEFINITION. What is fixed at construction (00_scope.md R9, 10_state.md R34 to R42), the reference configurations of
92_eei_decisions.md D39, and the one free value: what a peer device replies to a transaction. -/

namespace Sys2Proof

/-- The layout variant of an instance (00_scope.md R3, 42_bank_mux.md R200). -/
inductive Variant where
  /-- "4-register / 16-port bank", two banks, nibble swap on the wire. -/
  | A
  /-- "single-register / 4-port bank", one bank, no swap. -/
  | B
deriving DecidableEq, Repr, Inhabited

/-- Whether a hardware bit of 1 or of 0 is the asserted condition (00_scope.md R18, 10_state.md R39). -/
inductive Polarity where
  | activeHigh
  | activeLow
deriving DecidableEq, Repr, Inhabited

/-- The four features of each variant, in index order 0..3 (00_scope.md R10). In variant B the last two are called
INTL and RESETL. -/
inductive Feature where
  | lpmode
  | modabs
  | intr
  | reset
deriving DecidableEq, Repr, Inhabited

/-- The number of a bank, 1 or 2: it names one peer device (00_scope.md R18). -/
inductive BankId where
  | one
  | two
deriving DecidableEq, Repr, Inhabited

/-- One row of the feature table: `OFF`, `POL`, `WRITABLE` (10_state.md R39, R41). -/
structure FeatureInfo where
  off      : BitVec 2
  pol      : Polarity
  writable : Bool
deriving DecidableEq, Repr, Inhabited

/-- One entry `(SEL(k), START(k), COUNT(k))` of a layout descriptor (10_state.md R34). -/
structure Entry where
  sel   : Selector
  start : Nat
  count : Nat
deriving DecidableEq, Repr, Inhabited

/-- What the bank table holds for one bank: `ADDR(b)` and `NREG(b)` (10_state.md R42, R36). -/
structure BankInfo where
  addr : Nat
  nreg : Nat
deriving DecidableEq, Repr, Inhabited

/-- The configuration of an instance (00_scope.md R9). The descriptor of bank `b` is the first `NREG(b)` entries of
`layout`, so that `SEL(k)` is the same in every bank (10_state.md R36, R42; log 15). `bank2` is read in variant A only,
`selLed` in variant B only. -/
structure Config where
  variant   : Variant
  layout    : List Entry
  bank1     : BankInfo
  bank2     : BankInfo
  lpmode    : FeatureInfo
  modabs    : FeatureInfo
  intr      : FeatureInfo
  reset     : FeatureInfo
  selLed    : Selector
  addrW     : Nat
  serialize : Bool
deriving DecidableEq, Repr

/-- What a peer device answers to one transaction (20_memory.md R72, R73): success, with a word of its choice for every
bit the block does not determine (10_state.md R47), or a negative bus status. The status is two's complement in 32 bits
with its sign bit set, so its low 31 bits say all of it (log 14). -/
inductive BusReply where
  | ok (draw : RegWord)
  | fail (low : BitVec 31)
deriving DecidableEq, Repr, Inhabited

/-- FREE VALUE (log 7): the reply to the `n`-th transaction for which State holds no reply. 20_memory.md R73 and
10_state.md R47 leave success, status and status bits to the peer device. -/
opaque Config.busReply : Nat → BusReply

/-- `REFCFG`, variant A (92_eei_decisions.md D39). DESIGN CHOICE: a test configuration of the spec, no property of the
hardware (log 1). -/
def Config.refA : Config where
  variant   := .A
  layout    := [⟨0x10, 0, 4⟩, ⟨0x11, 4, 4⟩, ⟨0x12, 8, 4⟩, ⟨0x13, 12, 4⟩]
  bank1     := ⟨0x60, 4⟩
  bank2     := ⟨0x62, 4⟩
  lpmode    := ⟨0, .activeHigh, true⟩
  modabs    := ⟨1, .activeLow, false⟩
  intr      := ⟨2, .activeLow, false⟩
  reset     := ⟨3, .activeLow, true⟩
  selLed    := 0x21
  addrW     := 8
  serialize := false

/-- `REFCFG`, variant B (92_eei_decisions.md D39). -/
def Config.refB : Config :=
  { Config.refA with variant := .B, layout := [⟨0x20, 0, 4⟩], bank1 := ⟨0x64, 1⟩ }

end Sys2Proof
end

