-- ==== Sys2Proof/Machine/Bits.lean ====
section
/-! DEFINITION. Bit operations of 00_scope.md R13, the nibble swap of 20_memory.md R75, the presentation of
41_transcode.md R163, and the per-register loops of the read and write paths (R161, R171). -/

namespace Sys2Proof.Machine

/-- `NSWAP(w) = ((w & 0x0F0F) << 4) | ((w & 0xF0F0) >> 4)`: the two nibbles of each byte exchanged (20_memory.md R75). -/
def nswap (w : RegWord) : RegWord := (w &&& 0x0F0F) <<< 4 ||| (w &&& 0xF0F0) >>> 4

/-- `ones(n) = 2^n - 1`, in 32 bits (00_scope.md R13). -/
def ones (n : Nat) : Word32 := BitVec.ofNat 32 (2 ^ n - 1)

/-- `setbit(v, i, x)` (00_scope.md R13). -/
def setBit {w : Nat} (v : BitVec w) (i : Nat) (x : Bool) : BitVec w :=
  if x then v ||| BitVec.twoPow w i else v &&& ~~~ BitVec.twoPow w i

/-- `PRESENT(f, H, N)` for a feature of polarity `pol` (41_transcode.md R163): from hardware truth to presentation and
back. -/
def present (pol : Polarity) (h : Word32) (n : Nat) : Word32 :=
  match pol with
  | .activeHigh => h
  | .activeLow => ~~~ h &&& ones n

/-- The same for one bit (41_transcode.md R180, R185). -/
def presentBit (pol : Polarity) (h : Bool) : Bool :=
  match pol with
  | .activeHigh => h
  | .activeLow => !h

/-- `pos(s, f) = 4*s + OFF(f)` (30_encoding.md R101). -/
def bitPos (off : BitVec 2) (s : Nat) : Nat := 4 * s + off.toNat

/-- The inner loop of `READMASK` (41_transcode.md R161): slots `0 .. count-1` of the word `w` into the mask `acc` from
port `start` on. -/
def gather (off : BitVec 2) (start : Nat) (w : RegWord) : Nat → Word32 → Word32
  | 0, acc => acc
  | s + 1, acc => setBit (gather off start w s acc) (start + s) (w.getLsbD (bitPos off s))

/-- The inner loop of `WRITEMASK` (41_transcode.md R171): ports from `start` on of the mask `acc` into slots
`0 .. count-1` of the word `w`. -/
def scatter (off : BitVec 2) (start : Nat) (acc : Word32) : Nat → RegWord → RegWord
  | 0, w => w
  | s + 1, w => setBit (scatter off start acc s w) (bitPos off s) (acc.getLsbD (start + s))

/-- The bits of a word that hold a feature in slots `0 .. count-1`. -/
def slotBits (off : BitVec 2) : Nat → RegWord
  | 0 => 0
  | s + 1 => setBit (slotBits off s) (bitPos off s) true

/-- A bus status: 32-bit two's complement with its sign bit set (30_encoding.md R121; log 14). -/
def negativeStatus (low : BitVec 31) : Word32 := low.setWidth 32 ||| 0x80000000

end Sys2Proof.Machine
end

