-- ==== Sys2Proof/Machine/Layout.lean ====
section
/-! DEFINITION. What the configuration says of banks, registers, ports and control bits (10_state.md R34 to R45), and
the well-formedness checks made at construction (R35 to R39, R42). -/

namespace Sys2Proof

/-- The number `b` (00_scope.md R18). -/
def BankId.number : BankId → BitVec 2
  | .one => 1
  | .two => 2

/-- `BASE(b)`: 0 and 16 (10_state.md R42). -/
def BankId.base : BankId → Nat
  | .one => 0
  | .two => 16

/-- The banks `1 .. NBANKS` in ascending order: two in variant A, one in variant B (42_bank_mux.md R201). -/
def Config.banks (cfg : Config) : List BankId :=
  match cfg.variant with
  | .A => [.one, .two]
  | .B => [.one]

/-- The bank table's row of bank `b` (10_state.md R42). -/
def Config.bank (cfg : Config) : BankId → BankInfo
  | .one => cfg.bank1
  | .two => cfg.bank2

/-- `ADDR(b)`. -/
def Config.addr (cfg : Config) (b : BankId) : Nat := (cfg.bank b).addr

/-- The layout descriptor of bank `b`: the first `NREG(b)` entries (10_state.md R34, R36). Of a bank table that asks for
more entries than there are, which the spec does not have, it is all of them: DESIGN CHOICE (log 15); `Config.wf`
refuses such a configuration. -/
def Config.entries (cfg : Config) (b : BankId) : List Entry := cfg.layout.take (cfg.bank b).nreg

/-- `NREG(b)`: the number of entries. -/
def Config.nreg (cfg : Config) (b : BankId) : Nat := (cfg.entries b).length

/-- `E(k)` of bank `b`, where there is one. -/
def Config.entry? (cfg : Config) (b : BankId) (k : Nat) : Option Entry := (cfg.entries b)[k]?

/-- `E(k)` of bank `b`; an entry without slots where there is none. -/
def Config.entry (cfg : Config) (b : BankId) (k : Nat) : Entry := (cfg.entry? b k).getD ⟨0, 0, 0⟩

/-- `N(b)`: the sum of the entries' port counts (00_scope.md R9). -/
def Config.ports (cfg : Config) (b : BankId) : Nat := ((cfg.entries b).map Entry.count).sum

/-- The feature table's row of a feature (10_state.md R39). -/
def Config.info (cfg : Config) : Feature → FeatureInfo
  | .lpmode => cfg.lpmode
  | .modabs => cfg.modabs
  | .intr => cfg.intr
  | .reset => cfg.reset

/-- All features, in index order (00_scope.md R10). -/
def Feature.all : List Feature := [.lpmode, .modabs, .intr, .reset]

/-- What a selector of a bank names (20_memory.md R83). -/
inductive RegisterKind where
  /-- A feature register of the descriptor. -/
  | feature (e : Entry)
  /-- Variant B's LED-mode register: status bits, format not in the source. -/
  | ledMode
  /-- A register no source describes: status bits. -/
  | undescribed
deriving DecidableEq, Repr

/-- The address map of one bank (20_memory.md R83). -/
def Config.registerAt (cfg : Config) (b : BankId) (sel : Selector) : RegisterKind :=
  match (cfg.entries b).find? (·.sel == sel) with
  | some e => .feature e
  | none => if cfg.variant = .B ∧ sel = cfg.selLed then .ledMode else .undescribed

/-- The control bits of a feature register with `count` slots in use: the bits of writable features (10_state.md R45). -/
def Config.controlBits (cfg : Config) (count : Nat) : RegWord :=
  Feature.all.foldl (fun m f =>
    if (cfg.info f).writable then m ||| Machine.slotBits (cfg.info f).off count else m) 0

/-- The control bits of any register (10_state.md R45): none outside the descriptor. -/
def Config.ctrlMask (cfg : Config) (b : BankId) (sel : Selector) : RegWord :=
  match cfg.registerAt b sel with
  | .feature e => cfg.controlBits e.count
  | .ledMode => 0
  | .undescribed => 0

/-- `START(0) = n`, `START(k+1) = START(k) + COUNT(k)`, `1 <= COUNT(k) <= 4` (10_state.md R38). -/
def contiguousFrom : Nat → List Entry → Bool
  | _, [] => true
  | n, e :: es => e.start == n && 1 ≤ e.count && e.count ≤ 4 && contiguousFrom (n + e.count) es

/-- Descriptor of bank `b` well formed (10_state.md R38): at least one entry, contiguous from 0, selectors pairwise
distinct, at most 16 ports. -/
def Config.descriptorOk (cfg : Config) (b : BankId) : Bool :=
  !(cfg.entries b).isEmpty && contiguousFrom 0 (cfg.entries b) && decide ((cfg.entries b).map Entry.sel).Nodup
    && cfg.ports b ≤ 16

/-- The LED-mode selector is not `SEL(0)` (10_state.md R38); variant B only. -/
def Config.ledOk (cfg : Config) : Bool :=
  match cfg.variant with
  | .A => true
  | .B => !((cfg.entry .one 0).sel == cfg.selLed)

/-- The four offsets are pairwise distinct (10_state.md R39). -/
def Config.offsetsOk (cfg : Config) : Bool := decide (Feature.all.map fun f => (cfg.info f).off).Nodup

/-- Bus addresses fit in `ADDR_W` bits and are pairwise distinct (10_state.md R42). -/
def Config.addrsOk (cfg : Config) : Bool :=
  cfg.banks.all (fun b => cfg.addr b < 2 ^ cfg.addrW) && decide (cfg.banks.map cfg.addr).Nodup

/-- The global ranges `[BASE(b), BASE(b)+N(b))` are pairwise disjoint (10_state.md R42). -/
def Config.rangesOk (cfg : Config) : Bool :=
  match cfg.variant with
  | .A => BankId.one.base + cfg.ports .one ≤ BankId.two.base
  | .B => true

/-- The descriptors the variant selects (10_state.md R35 to R37; 42_bank_mux.md R200, R201; 00_scope.md R9): entry `k`
starts at port `4*k` and covers 4 ports; variant A has four entries, of which a bank has all or the first two; variant B
has one. -/
def Config.shapeOk (cfg : Config) : Bool :=
  cfg.layout.map (fun e => (e.start, e.count)) == (List.range cfg.layout.length).map (fun k => (4 * k, 4))
    && match cfg.variant with
      | .A => cfg.layout.length == 4 && cfg.banks.all (fun b => (cfg.bank b).nreg == 4 || (cfg.bank b).nreg == 2)
      | .B => cfg.layout.length == 1 && cfg.bank1.nreg == 1

/-- The checks made at construction (00_scope.md R9; 10_state.md R35 to R39, R42; 70_reset_and_hazards.md R275). -/
def Config.wf (cfg : Config) : Bool :=
  cfg.banks.all cfg.descriptorOk && cfg.ledOk && cfg.offsetsOk && cfg.addrsOk && cfg.rangesOk && cfg.shapeOk

/-- The polarities of 10_state.md R40. The spec calls them readings, and 92_eei_decisions.md D27 has `POL` OPEN, a
parameter: construction does not check them. -/
def Config.sourcePolarities (cfg : Config) : Bool :=
  cfg.modabs.pol == .activeLow && cfg.intr.pol == .activeLow
    && (cfg.variant == .A || cfg.reset.pol == .activeLow)

end Sys2Proof
end

