-- ==== Sys2Proof/Machine/State.lean ====
section
/-! DEFINITION. The state of one block instance (10_state.md R30), as plain data, and its value after reset (R53). -/

namespace Sys2Proof.Machine

/-- Why the machine stops. Raised in states no run reaches, so it can make no false claim about the hardware
provable: safe (log 18). -/
inductive Fault where
  /-- The in-flight record of the served caller stands at a place its command does not have: a write in a command that
  only reads, or a register ordinal beyond the descriptor. Raised by every meaning. Safe. -/
  | lostPlace
deriving DecidableEq, Repr

/-- What the spec says a model refuses, "has no step for" (93_implementation_defined.md, section 4). Each is safe. -/
inductive Refusal where
  /-- An instruction without a meaning: none in this model. Safe. -/
  | notModelled (mnemonic : String)
  /-- A command delivered before the configuration is well formed and every bank attached (I30, 70_reset_and_hazards.md
  R275). Raised by `step`. Safe. -/
  | notReady
  /-- A second command from a caller whose previous command has not returned (I32, R276). Raised by `step`. Safe. -/
  | callerBusy
  /-- A reset while some in-flight record is BUSY (I31, R273). Raised by `step`. Safe. -/
  | resetWhileBusy
  /-- A construction with a configuration that fails the checks (I33; 10_state.md R35 to R39, R42). Raised by
  `step`. Safe. -/
  | badConfiguration
  /-- An attach, or an outside write, that names a bank the variant does not have (70_reset_and_hazards.md R274; log 4).
  Raised by `step`. Safe. -/
  | noSuchBank
  /-- An attach at another bus address than the configuration's `ADDR(b)` (00_scope.md R9, R274; log 4). Raised by
  `step`. Safe. -/
  | wrongAddress
deriving DecidableEq, Repr

/-- `PHASE` of an in-flight record (10_state.md R49). -/
inductive Phase where
  | idle
  | busy
deriving DecidableEq, Repr

/-- Where in its command an in-flight record stands (the model's own; log 19). -/
inductive Place where
  /-- Delivered; no check made yet. -/
  | start
  /-- Checks passed; waiting for a bank lock (10_state.md R52). -/
  | lock
  /-- Its next transaction is the read of the current register. -/
  | read
  /-- Its next transaction is the write of the current register. -/
  | write
deriving DecidableEq, Repr

/-- The in-flight record of one caller (10_state.md R49). `place` and `g` are the model's own (log 19); what a field holds
in a command whose pseudocode does not assign it is the model's choice (log 25). -/
structure InFlight where
  phase : Phase
  cmd   : Word32
  data  : Word32
  /-- `B`, the bank being served. -/
  b     : BankId
  /-- `K`, the register ordinal. -/
  k     : Nat
  /-- `ACC`, the hardware-truth mask being assembled or disassembled. -/
  acc   : Word32
  /-- `WBUF`, the logical word of the current read-modify-write. -/
  wbuf  : RegWord
  /-- `G` of the pseudocode of 42_bank_mux.md R205: what the banks read so far contribute. -/
  g     : Word32
  place : Place
deriving DecidableEq, Repr

/-- The record of a caller with no command in progress (10_state.md R49, R53; log 2). -/
def InFlight.idle : InFlight := ⟨.idle, 0, 0, .one, 0, 0, 0, 0, .start⟩

/-- `STATUS` (30_encoding.md R122). -/
inductive Status where
  | ok
  | transportError
  | invalidSelector
  | unsupportedOperation
  /-- Never raised by the block (60_exceptions.md R233). -/
  | parseError
  | invalidCommand
deriving DecidableEq, Repr

/-- A response (10_state.md R50, 30_encoding.md R121). An absent field is `none`. -/
structure Response where
  status  : Status
  rdata   : Option Word32
  ebank   : Option (BitVec 2)
  eaddr   : Option Nat
  esel    : Option Selector
  estatus : Option Word32
deriving DecidableEq, Repr

/-- What the block holds for one caller: its in-flight record and the last response returned to it (10_state.md R30). -/
structure Caller where
  inFlight : InFlight
  response : Option Response
deriving DecidableEq, Repr

/-- A caller that has issued nothing since reset. -/
def Caller.fresh : Caller := ⟨.idle, none⟩

/-- What a peer device retains of one register, in logical form: bit `i` of `value` where bit `i` of `known` is 1, and
UNKNOWN elsewhere (`CTRL`, 10_state.md R46; log 12). -/
structure CtrlWord where
  known : RegWord
  value : RegWord
deriving DecidableEq, Repr

/-- Every control bit UNKNOWN: what a register not listed in a `Memory` holds (10_state.md R53). -/
def CtrlWord.unknown : CtrlWord := ⟨0, 0⟩

/-- The register file of one peer device (10_state.md R43): selectors, strictly rising, with what the device retains
there. -/
abbrev Memory := List (Nat × CtrlWord)

/-- One bus transaction as the bus carried it (20_memory.md R72): words are wire words. -/
inductive Transaction where
  | read (b : BankId) (sel : Selector) (wire : RegWord)
  | readFailed (b : BankId) (sel : Selector) (st : Word32)
  | write (b : BankId) (sel : Selector) (wire : RegWord)
  | writeFailed (b : BankId) (sel : Selector) (wire : RegWord) (st : Word32)
deriving DecidableEq, Repr

/-- One thing the outside world does next (60_exceptions.md R243; log 6). -/
inductive Input where
  /-- A caller delivers `CMD` and `DATA` on the command port (70_reset_and_hazards.md R276). -/
  | command (c : CallerId) (cmd data : Word32)
  /-- The scheduler lets a caller's command in progress take its next step (20_memory.md R84). -/
  | turn (c : CallerId)
  /-- The host attaches a peer device: bank selector, 1-based, and bus address (70_reset_and_hazards.md R274). -/
  | attach (selector : BitVec 2) (addr : Nat)
  /-- The host reconstructs the block (70_reset_and_hazards.md R270), with the configuration bound at construction
  (10_state.md R53). -/
  | reset
  /-- A writer outside the block writes a wire word to a peer register, with or without success (10_state.md R52,
  20_memory.md R86; log 22). -/
  | outsideWrite (b : BankId) (sel : Selector) (wire : RegWord) (ok : Bool)
deriving DecidableEq, Repr

/-- The state of the machine. The first group is 10_state.md R30; the second is the model's own: who is served, what
the outside does next, what the peer devices answer next, and what went over the bus. -/
structure State where
  cfg       : Config
  /-- Whether bank 1's peer device is attached (70_reset_and_hazards.md R275). -/
  attached1 : Bool
  attached2 : Bool
  /-- Bank 1's peer device (10_state.md R43). -/
  peer1     : Memory
  peer2     : Memory
  /-- `LOCK(1)`: FREE (`none`) or its holder (10_state.md R52). -/
  lock1     : Option CallerId
  lock2     : Option CallerId
  /-- The callers that differ from `Caller.fresh`, by number, strictly rising. -/
  callers   : List (Nat × Caller)
  /-- The caller the step serves (log 20). -/
  cur       : CallerId
  /-- What callers, scheduler and host do next, oldest first (log 6). -/
  inputs    : List Input
  /-- The replies the peer devices have ready, oldest first (log 7). -/
  bus       : List BusReply
  /-- How many free replies have been drawn (log 7). -/
  drawn     : Nat
  /-- The transactions issued, newest first (log 13). -/
  log       : List Transaction
deriving DecidableEq, Repr

/-- The machine just after construction with `cfg` (10_state.md R53, 70_reset_and_hazards.md R270). -/
def State.constructed (cfg : Config) : State where
  cfg       := cfg
  attached1 := false
  attached2 := false
  peer1     := []
  peer2     := []
  lock1     := none
  lock2     := none
  callers   := []
  cur       := 0
  inputs    := []
  bus       := []
  drawn     := 0
  log       := []

/-- The machine right after reset. The configuration is the value bound at construction (10_state.md R53); the spec
gives none, so `REFCFG` variant A stands here: DESIGN CHOICE, unsafe (log 1). -/
def State.reset : State := State.constructed Config.refA

end Sys2Proof.Machine
end

