-- ==== Sys2Proof/Machine/Flags.lean ====
section
/-! DEFINITION. The block has no flags (10_state.md R51): its one condition indication is the `STATUS` of the response.
Here are the codes and the three shapes a response takes (30_encoding.md R121, R122). -/

namespace Sys2Proof.Machine

/-- The 4-bit codes of 30_encoding.md R122. Codes 6..15 are no status. -/
def Status.code : Status → BitVec 4
  | .ok => 0
  | .transportError => 1
  | .invalidSelector => 2
  | .unsupportedOperation => 3
  | .parseError => 4
  | .invalidCommand => 5

/-- A command performed: `STATUS = OK` and `RDATA` (30_encoding.md R121). -/
def Response.done (rdata : Word32) : Response := ⟨.ok, some rdata, none, none, none, none⟩

/-- A command rejected by a check: the code and nothing else (60_exceptions.md R231). -/
def Response.rejected (e : Status) : Response := ⟨e, none, none, none, none, none⟩

/-- A failed transaction: bank, bus address, selector and bus status (20_memory.md R74, 60_exceptions.md R235). -/
def Response.transport (cfg : Config) (b : BankId) (sel : Selector) (st : Word32) : Response :=
  ⟨.transportError, none, some b.number, some (cfg.addr b), some sel, some st⟩

end Sys2Proof.Machine
end

