-- ==== Sys2Proof/Machine/Operands.lean ====
section
/-! DEFINITION. The operand forms and their checks, in the order 60_exceptions.md R236 makes them; port translation
(20_memory.md R90): `LOCATE` (41_transcode.md R181) and `ROUTE` (42_bank_mux.md R202). -/

namespace Sys2Proof.Machine

/-- The bank a `BANK` field names, if the instance has it (30_encoding.md R115). -/
def bankOf (cfg : Config) (bank : BitVec 2) : Option BankId := cfg.banks.find? (·.number == bank)

/-- Bank check of `check_common` (60_exceptions.md R236). -/
def checkBank (cfg : Config) (bank : BitVec 2) : Except Status BankId :=
  match bankOf cfg bank with
  | some b => .ok b
  | none => .error .invalidSelector

/-- The feature an index names (00_scope.md R10). -/
def featureOf (feat : BitVec 4) : Option Feature := Feature.all[feat.toNat]?

/-- `check_feature` (60_exceptions.md R236). -/
def checkFeature (feat : BitVec 4) : Except Status Feature :=
  match featureOf feat with
  | some f => .ok f
  | none => .error .invalidSelector

/-- Port check of the bank-level port commands: `p < N(b)` (60_exceptions.md R232 (c)). -/
def checkPort (cfg : Config) (b : BankId) (port : BitVec 8) : Except Status Nat :=
  if port.toNat < cfg.ports b then .ok port.toNat else .error .invalidSelector

/-- Whether global port `gp` lies in bank `b`'s range (42_bank_mux.md R202). -/
def holdsPort (cfg : Config) (gp : Nat) (b : BankId) : Bool := b.base ≤ gp && gp < b.base + cfg.ports b

/-- `ROUTE(gp)` (42_bank_mux.md R202): the bank that holds a global port, and the local port there. -/
def route (cfg : Config) (gp : Nat) : Option (BankId × Nat) :=
  (cfg.banks.find? (holdsPort cfg gp)).map fun b => (b, gp - b.base)

/-- Route check of the global port commands (60_exceptions.md R232 (d)). -/
def checkRoute (cfg : Config) (gport : BitVec 8) : Except Status (BankId × Nat) :=
  match route cfg gport.toNat with
  | some bp => .ok bp
  | none => .error .invalidSelector

/-- Writability check of the write commands (60_exceptions.md R234). -/
def checkWritable (cfg : Config) (f : Feature) : Except Status Unit :=
  if (cfg.info f).writable then .ok () else .error .unsupportedOperation

/-- `LOCATE` from entry number `k` on: the entry whose ports include `p`, and the slot of `p` in it. -/
def locateFrom (p : Nat) : List Entry → Nat → Option (Nat × Nat)
  | [], _ => none
  | e :: es, k => if e.start ≤ p ∧ p < e.start + e.count then some (k, p - e.start) else locateFrom p es (k + 1)

/-- `LOCATE(b, p)` (41_transcode.md R181): register ordinal and port slot of a local port. -/
def locate (cfg : Config) (b : BankId) (p : Nat) : Option (Nat × Nat) := locateFrom p (cfg.entries b) 0

/-- The bank visited after `b` by a command that visits the banks of a list in order (42_bank_mux.md R206). -/
def nextBank : List BankId → BankId → Option BankId
  | x :: y :: t, b => if x = b then some y else nextBank (y :: t) b
  | _, _ => none

end Sys2Proof.Machine
end

