-- ==== Sys2Proof/Machine/Table.lean ====
section
/-! DEFINITION. A table with natural-number keys in one canonical form: keys strictly rising, and no entry equal to the
default that an unlisted key reads as. Equal tables are equal lists. Register files and callers are held so. -/

namespace Sys2Proof.Machine

/-- The entry at key `a`, or the default `d`. -/
def tableGet {α : Type} (d : α) : List (Nat × α) → Nat → α
  | [], _ => d
  | (k, v) :: t, a => if a = k then v else tableGet d t a

/-- Put `x` before the rest of a table, unless `x` is the default. -/
def tableCons {α : Type} [DecidableEq α] (d : α) (a : Nat) (x : α) (t : List (Nat × α)) : List (Nat × α) :=
  if x = d then t else (a, x) :: t

/-- The table with `x` at key `a`; writing the default removes the entry. -/
def tableSet {α : Type} [DecidableEq α] (d : α) : List (Nat × α) → Nat → α → List (Nat × α)
  | [], a, x => tableCons d a x []
  | (k, v) :: t, a, x =>
    if a < k then tableCons d a x ((k, v) :: t)
    else if a = k then tableCons d a x t
    else (k, v) :: tableSet d t a x

/-- The canonical form. -/
abbrev tableWf {α : Type} (d : α) (t : List (Nat × α)) : Prop :=
  (t.map Prod.fst).Pairwise (· < ·) ∧ ∀ e ∈ t, e.2 ≠ d

end Sys2Proof.Machine
end

