-- ==== Sys2Proof/Machine/Ops.lean ====
section
/-! DEFINITION. The named operations over State: peers, locks, callers, the two bus primitives (00_scope.md R15), the
transport adapter (40_transport.md R141, R146), ending a command (R16), and `State.serve`, the one step every command's
meaning takes: checks, locks, one transaction (00_scope.md R17; log 8). -/

namespace Sys2Proof.Machine

/-! ### Fields by bank -/

/-- The register file of bank `b`'s peer device. -/
def State.peer (s : State) : BankId → Memory
  | .one => s.peer1
  | .two => s.peer2

/-- The state with another register file for bank `b`. -/
def State.setPeer (s : State) (b : BankId) (m : Memory) : State :=
  match b with
  | .one => { s with peer1 := m }
  | .two => { s with peer2 := m }

/-- `LOCK(b)` (10_state.md R52). -/
def State.lock (s : State) : BankId → Option CallerId
  | .one => s.lock1
  | .two => s.lock2

/-- The state with another holder of `LOCK(b)`. -/
def State.setLock (s : State) (b : BankId) (h : Option CallerId) : State :=
  match b with
  | .one => { s with lock1 := h }
  | .two => { s with lock2 := h }

/-- Whether bank `b`'s peer device is attached. -/
def State.attached (s : State) : BankId → Bool
  | .one => s.attached1
  | .two => s.attached2

/-- The state with bank `b` attached. -/
def State.setAttached (s : State) (b : BankId) : State :=
  match b with
  | .one => { s with attached1 := true }
  | .two => { s with attached2 := true }

/-! ### Register files -/

/-- What the peer device retains at a selector. -/
def Memory.get (m : Memory) (sel : Selector) : CtrlWord := tableGet CtrlWord.unknown m sel.toNat

/-- The register file with another control word at a selector. -/
def Memory.set (m : Memory) (sel : Selector) (c : CtrlWord) : Memory := tableSet CtrlWord.unknown m sel.toNat c

/-- The canonical form of a register file: selectors below 256 and strictly rising, no entry that retains nothing, no
value bit where nothing is known. -/
abbrev Memory.wf (m : Memory) : Prop :=
  tableWf CtrlWord.unknown m ∧ ∀ e ∈ m, e.1 < 256 ∧ e.2.value &&& ~~~ e.2.known = 0

/-- `CTRL` of the register at `(b, sel)` (10_state.md R46). -/
def State.ctrl (s : State) (b : BankId) (sel : Selector) : CtrlWord := (s.peer b).get sel

/-- The state with another `CTRL` at `(b, sel)`. -/
def State.setCtrl (s : State) (b : BankId) (sel : Selector) (c : CtrlWord) : State :=
  s.setPeer b ((s.peer b).set sel c)

/-! ### The bus primitives -/

/-- The reply to the next transaction: the peer device's, or a free value where State holds none (20_memory.md R73;
log 7). -/
def State.drawReply (s : State) : BusReply × State :=
  match s.bus with
  | r :: rest => (r, { s with bus := rest })
  | [] => (Config.busReply s.drawn, { s with drawn := s.drawn + 1 })

/-- The state with one more transaction on the bus. -/
def State.logged (s : State) (t : Transaction) : State := { s with log := t :: s.log }

/-- The transport transform (20_memory.md R76): nibble swap in variant A, none in variant B. It is its own inverse. -/
def transform (cfg : Config) (w : RegWord) : RegWord :=
  match cfg.variant with
  | .A => nswap w
  | .B => w

/-- The control bits of `(b, sel)` whose value is known. -/
def State.knownBits (s : State) (b : BankId) (sel : Selector) : RegWord :=
  (s.ctrl b sel).known &&& s.cfg.ctrlMask b sel

/-- The wire word a successful read returns when the peer device chooses `draw`: its logical form has every known
control bit at its value and every other bit as drawn (10_state.md R46, R47). -/
def State.wireWord (s : State) (b : BankId) (sel : Selector) (draw : RegWord) : RegWord :=
  transform s.cfg
    ((transform s.cfg draw &&& ~~~ s.knownBits b sel) ||| ((s.ctrl b sel).value &&& s.knownBits b sel))

/-- `MemRead(b, sel)` (00_scope.md R15, 20_memory.md R72): one transaction; a wire word, or a negative status. A failed
read changes no `CTRL` (10_state.md R48). -/
def State.memRead (s : State) (b : BankId) (sel : Selector) : Except Word32 RegWord × State :=
  match s.drawReply with
  | (.ok draw, s1) => (.ok (s.wireWord b sel draw), s1.logged (.read b sel (s.wireWord b sel draw)))
  | (.fail low, s1) => (.error (negativeStatus low), s1.logged (.readFailed b sel (negativeStatus low)))

/-- What a register retains after `v` was written to it (10_state.md R46): its control bits, from the logical form. -/
def written (cfg : Config) (b : BankId) (sel : Selector) (v : RegWord) : CtrlWord :=
  ⟨cfg.ctrlMask b sel, transform cfg v &&& cfg.ctrlMask b sel⟩

/-- `MemWrite(b, sel, v)` (00_scope.md R15, 20_memory.md R72): one transaction. A success sets every control bit of the
register (10_state.md R46), a failure makes them UNKNOWN (R48). -/
def State.memWrite (s : State) (b : BankId) (sel : Selector) (v : RegWord) : Except Word32 Unit × State :=
  match s.drawReply with
  | (.ok _, s1) => (.ok (), (s1.setCtrl b sel (written s.cfg b sel v)).logged (.write b sel v))
  | (.fail low, s1) =>
    (.error (negativeStatus low),
      (s1.setCtrl b sel CtrlWord.unknown).logged (.writeFailed b sel v (negativeStatus low)))

/-! ### Callers and their records -/

/-- What the block holds for caller `c`. -/
def State.caller (s : State) (c : CallerId) : Caller := tableGet Caller.fresh s.callers c

/-- The state with something else held for caller `c`. -/
def State.setCaller (s : State) (c : CallerId) (x : Caller) : State :=
  { s with callers := tableSet Caller.fresh s.callers c x }

/-- The in-flight record of the served caller (10_state.md R49). -/
def State.record (s : State) : InFlight := (s.caller s.cur).inFlight

/-- The state with another in-flight record for the served caller; its last response stays. -/
def State.setRecord (s : State) (r : InFlight) : State :=
  s.setCaller s.cur { s.caller s.cur with inFlight := r }

/-- Whether caller `c` has a command in progress. -/
def State.busy (s : State) (c : CallerId) : Bool := (s.caller c).inFlight.phase == .busy

/-- Whether any caller has a command in progress. -/
def State.anyBusy (s : State) : Bool := s.callers.any fun e => e.2.inFlight.phase == .busy

/-! ### Locks -/

/-- A lock after caller `c` let go of it. -/
def released (c : CallerId) (h : Option CallerId) : Option CallerId := if h = some c then none else h

/-- Caller `c` releases every lock it holds (10_state.md R52). -/
def State.releaseLocks (s : State) (c : CallerId) : State :=
  { s with lock1 := released c s.lock1, lock2 := released c s.lock2 }

/-- Caller `c` takes the locks of a list in order, as far as they are FREE or its own, and whether it has them all. -/
def takeInOrder (c : CallerId) : List BankId → State → State × Bool
  | [], s => (s, true)
  | b :: bs, s =>
    match s.lock b with
    | none => takeInOrder c bs (s.setLock b (some c))
    | some h => if h = c then takeInOrder c bs s else (s, false)

/-- The served caller takes the locks a command needs (10_state.md R52); without SERIALIZE there is no lock. -/
def State.takeLocks (s : State) (bs : List BankId) : State × Bool :=
  if s.cfg.serialize then takeInOrder s.cur bs s else (s, true)

/-! ### Ending a command -/

/-- The served caller's command ends with a response (00_scope.md R16, 10_state.md R50): the record is IDLE, its locks
are released, registers stay as they are. -/
def State.respond (s : State) (r : Response) : State :=
  (s.setCaller s.cur ⟨InFlight.idle, some r⟩).releaseLocks s.cur

/-- `raise E()` (00_scope.md R16, 60_exceptions.md R230): the one error mechanism of the block. There is no handler and
no return from an error (R239). -/
def State.raise (s : State) (e : Status) : State := s.respond (Response.rejected e)

/-- `raise TRANSPORT_ERROR(...)` (60_exceptions.md R235). -/
def State.raiseTransport (s : State) (b : BankId) (sel : Selector) (st : Word32) : State :=
  s.respond (Response.transport s.cfg b sel st)

/-- What a command does after a transaction that succeeded: go on with another record, or end with `RDATA`. -/
inductive Progress where
  | go (r : InFlight)
  | done (rdata : Word32)
deriving DecidableEq, Repr

/-- The served command goes on or ends. -/
def State.proceed (s : State) : Progress → State
  | .go r => s.setRecord r
  | .done rdata => s.respond (Response.done rdata)

/-! ### One step of a command -/

/-- A command whose checks have passed (60_exceptions.md R236): what it locks, how it enters its first transaction,
which register the next transaction reaches, and what follows a success. -/
structure Plan where
  /-- The banks whose locks it takes, in order (10_state.md R52). -/
  locks      : List BankId
  /-- Whether its first transaction reads or writes. -/
  first      : Place
  /-- The record before the first transaction. -/
  enter      : InFlight → InFlight
  /-- Bank and selector of the next transaction; none where the command has no such place. -/
  target     : InFlight → Option (BankId × Selector)
  /-- After `AREAD` returned a logical word. -/
  afterRead  : InFlight → RegWord → Progress
  /-- After `AWRITE` of `WBUF`. -/
  afterWrite : InFlight → Progress

/-- `AREAD(b, sel)` and what follows it (40_transport.md R141): one transaction, no retry (R142). -/
def State.readStep (s : State) (p : Plan) (b : BankId) (sel : Selector) : State :=
  match s.memRead b sel with
  | (.ok v, s1) => s1.proceed (p.afterRead s.record (transform s.cfg v))
  | (.error st, s1) => s1.raiseTransport b sel st

/-- `AWRITE(b, sel, WBUF)` and what follows it (40_transport.md R146): one transaction. -/
def State.writeStep (s : State) (p : Plan) (b : BankId) (sel : Selector) : State :=
  match s.memWrite b sel (transform s.cfg s.record.wbuf) with
  | (.ok _, s1) => s1.proceed (p.afterWrite s.record)
  | (.error st, s1) => s1.raiseTransport b sel st

/-- The next transaction of the served command. -/
def State.transact (s : State) (p : Plan) : Host.Outcome State Fault Refusal :=
  match p.target s.record, s.record.place with
  | some (b, sel), .read => .next (s.readStep p b sel)
  | some (b, sel), .write => .next (s.writeStep p b sel)
  | _, _ => .fault .lostPlace

/-- The command is accepted: it takes its locks and makes its first transaction, or waits for a lock that another
caller holds (10_state.md R52; logs 8 and 9). -/
def State.begin (s : State) (p : Plan) : Host.Outcome State Fault Refusal :=
  match s.takeLocks p.locks with
  | (s1, true) => (s1.setRecord { p.enter { s.record with phase := .busy } with place := p.first }).transact p
  | (s1, false) => .next (s1.setRecord { p.enter { s.record with phase := .busy } with place := .lock })

/-- One step of a command of the served caller (00_scope.md R17): from the start, its checks, whose first failure is
the response; then its locks and its first transaction; later, its next transaction. -/
def State.serve (plan : Config → Except Status Plan) (s : State) : Host.Outcome State Fault Refusal :=
  match s.record.place, plan s.cfg with
  | .start, .error e => .next (s.raise e)
  | .start, .ok p => s.begin p
  | .lock, .ok p => s.begin p
  | .read, .ok p => s.transact p
  | .write, .ok p => s.transact p
  | _, .error _ => .fault .lostPlace

end Sys2Proof.Machine
end

