-- ==== Sys2Proof/Machine/Transcode.lean ====
section
/-! DEFINITION. The transcoding engine (41_transcode.md): the read path, the write path and the port paths, over the
banks a command visits, and the bank-level commands. A bank-level command visits its one bank with its mask unshifted,
so it never reads `BASE(b)` (R192). -/

namespace Sys2Proof.Machine

/-- Register `K` of bank `B`, for a command that visits the banks of `visit`. -/
def currentRegister (cfg : Config) (visit : List BankId) (r : InFlight) : Option (BankId × Selector) :=
  if r.b ∈ visit then (cfg.entry? r.b r.k).map fun e => (r.b, e.sel) else none

/-- `READMASK` over the banks of `visit` in order (41_transcode.md R161, 42_bank_mux.md R205): each register read in
ascending ordinal, each bank's mask presented and put at `shift b`. -/
def readMask (cfg : Config) (f : Feature) (visit : List BankId) (shift : BankId → Nat) : Plan where
  locks := visit
  first := .read
  enter r := { r with b := visit.headD .one, k := 0, acc := 0, g := 0 }
  target r := if r.place = .read then currentRegister cfg visit r else none
  afterRead r w :=
    let e := cfg.entry r.b r.k
    let acc := gather (cfg.info f).off e.start w e.count r.acc
    if r.k + 1 < cfg.nreg r.b then .go { r with k := r.k + 1, acc := acc, wbuf := w }
    else
      let g := r.g ||| present (cfg.info f).pol acc (cfg.ports r.b) <<< shift r.b
      match nextBank visit r.b with
      | some b => .go { r with b := b, k := 0, acc := 0, g := g, wbuf := w }
      | none => .done g
  afterWrite _ := .done 0

/-- The hardware-truth mask `H` that bank `b` is to get from a presented mask (41_transcode.md R170, 42_bank_mux.md
R210). -/
def hardwareMask (cfg : Config) (f : Feature) (mask : Word32) (shift : BankId → Nat) (b : BankId) : Word32 :=
  present (cfg.info f).pol (mask >>> shift b &&& ones (cfg.ports b)) (cfg.ports b)

/-- `WRITEMASK` over the banks of `visit` in order (41_transcode.md R171, 42_bank_mux.md R210): each register read,
modified and written back before the next is read. -/
def writeMask (cfg : Config) (f : Feature) (visit : List BankId) (shift : BankId → Nat) (mask : Word32) : Plan where
  locks := visit
  first := .read
  enter r :=
    { r with b := visit.headD .one, k := 0, acc := hardwareMask cfg f mask shift (visit.headD .one) }
  target r := currentRegister cfg visit r
  afterRead r w :=
    let e := cfg.entry r.b r.k
    .go { r with wbuf := scatter (cfg.info f).off e.start r.acc e.count w, place := .write }
  afterWrite r :=
    if r.k + 1 < cfg.nreg r.b then .go { r with k := r.k + 1, place := .read }
    else
      match nextBank visit r.b with
      | some b => .go { r with b := b, k := 0, acc := hardwareMask cfg f mask shift b, place := .read }
      | none => .done 0

/-- Bank, selector and bit position of a feature at a local port (20_memory.md R90). -/
def portRegister (cfg : Config) (b : BankId) (p : Nat) : Option (BankId × Selector) :=
  (locate cfg b p).bind fun ks => (cfg.entry? b ks.1).map fun e => (b, e.sel)

/-- Register ordinal of a local port (41_transcode.md R181). -/
def portOrdinal (cfg : Config) (b : BankId) (p : Nat) : Nat := ((locate cfg b p).map Prod.fst).getD 0

/-- Bit position of feature `f` at a local port (30_encoding.md R101). -/
def portBit (cfg : Config) (f : Feature) (b : BankId) (p : Nat) : Nat :=
  bitPos (cfg.info f).off (((locate cfg b p).map Prod.snd).getD 0)

/-- One read of the register of a local port (41_transcode.md R180). That `K` holds the register's ordinal is the model's
choice: DESIGN CHOICE (log 25). -/
def readPort (cfg : Config) (f : Feature) (b : BankId) (p : Nat) : Plan where
  locks := [b]
  first := .read
  enter r := { r with b := b, k := portOrdinal cfg b p }
  target r := if r.place = .read then portRegister cfg b p else none
  afterRead _ w :=
    .done ((BitVec.ofBool (presentBit (cfg.info f).pol (w.getLsbD (portBit cfg f b p)))).setWidth 32)
  afterWrite _ := .done 0

/-- One read-modify-write of the register of a local port (41_transcode.md R185). That `K` holds the register's ordinal is
the model's choice: DESIGN CHOICE (log 25). -/
def writePort (cfg : Config) (f : Feature) (b : BankId) (p : Nat) (v : Bool) : Plan where
  locks := [b]
  first := .read
  enter r := { r with b := b, k := portOrdinal cfg b p }
  target _ := portRegister cfg b p
  afterRead r w :=
    .go { r with wbuf := setBit w (portBit cfg f b p) (presentBit (cfg.info f).pol v), place := .write }
  afterWrite _ := .done 0

/-- The checks of `GET_MASK`, in the order of 60_exceptions.md R236, and its plan. -/
def planGetm (bank : BitVec 2) (feat : BitVec 4) (cfg : Config) : Except Status Plan := do
  let b ← checkBank cfg bank
  let f ← checkFeature feat
  return readMask cfg f [b] fun _ => 0

/-- `GET_MASK` (41_transcode.md R160). -/
def execGetm (bank : BitVec 2) (feat : BitVec 4) (s : State) : Host.Outcome State Fault Refusal :=
  s.serve (planGetm bank feat)

/-- The checks of `SET_MASK`, in the order of 60_exceptions.md R236, and its plan. -/
def planSetm (bank : BitVec 2) (feat : BitVec 4) (mask : BitVec 32) (cfg : Config) : Except Status Plan := do
  let b ← checkBank cfg bank
  let f ← checkFeature feat
  checkWritable cfg f
  return writeMask cfg f [b] (fun _ => 0) mask

/-- `SET_MASK` (41_transcode.md R170). -/
def execSetm (bank : BitVec 2) (feat : BitVec 4) (mask : BitVec 32) (s : State) : Host.Outcome State Fault Refusal :=
  s.serve (planSetm bank feat mask)

/-- The checks of `GET_PORT`, in the order of 60_exceptions.md R236, and its plan. -/
def planGetp (bank : BitVec 2) (feat : BitVec 4) (port : BitVec 8) (cfg : Config) : Except Status Plan := do
  let b ← checkBank cfg bank
  let f ← checkFeature feat
  let p ← checkPort cfg b port
  return readPort cfg f b p

/-- `GET_PORT` (41_transcode.md R180). -/
def execGetp (bank : BitVec 2) (feat : BitVec 4) (port : BitVec 8) (s : State) : Host.Outcome State Fault Refusal :=
  s.serve (planGetp bank feat port)

/-- The checks of `SET_PORT`, in the order of 60_exceptions.md R236, and its plan. -/
def planSetp (bank : BitVec 2) (feat : BitVec 4) (port : BitVec 8) (v : Bool) (cfg : Config) : Except Status Plan := do
  let b ← checkBank cfg bank
  let f ← checkFeature feat
  let p ← checkPort cfg b port
  checkWritable cfg f
  return writePort cfg f b p v

/-- `SET_PORT` (41_transcode.md R185). -/
def execSetp (bank : BitVec 2) (feat : BitVec 4) (port : BitVec 8) (v : Bool) (s : State) :
    Host.Outcome State Fault Refusal :=
  s.serve (planSetp bank feat port v)

end Sys2Proof.Machine
end

