-- ==== Sys2Proof/Machine/Mux.lean ====
section
/-! DEFINITION. The bank multiplexer (42_bank_mux.md): the engine's paths over the global port space. The mask commands
visit every bank in ascending order, each bank's mask at `BASE(b)` (R205, R206, R210); the port commands act on the one
bank that holds the global port (R202, R215, R220). `BANK` is not read. -/

namespace Sys2Proof.Machine

/-- The checks of `MUX_GET_MASK`, in the order of 60_exceptions.md R236, and its plan. -/
def planMgetm (feat : BitVec 4) (cfg : Config) : Except Status Plan := do
  let f ← checkFeature feat
  return readMask cfg f cfg.banks BankId.base

/-- `MUX_GET_MASK` (42_bank_mux.md R205). -/
def execMgetm (feat : BitVec 4) (s : State) : Host.Outcome State Fault Refusal :=
  s.serve (planMgetm feat)

/-- The checks of `MUX_SET_MASK`, in the order of 60_exceptions.md R236, and its plan. -/
def planMsetm (feat : BitVec 4) (mask : BitVec 32) (cfg : Config) : Except Status Plan := do
  let f ← checkFeature feat
  checkWritable cfg f
  return writeMask cfg f cfg.banks BankId.base mask

/-- `MUX_SET_MASK` (42_bank_mux.md R210). -/
def execMsetm (feat : BitVec 4) (mask : BitVec 32) (s : State) : Host.Outcome State Fault Refusal :=
  s.serve (planMsetm feat mask)

/-- The checks of `MUX_GET_PORT`, in the order of 60_exceptions.md R236, and its plan. -/
def planMgetp (feat : BitVec 4) (gport : BitVec 8) (cfg : Config) : Except Status Plan := do
  let f ← checkFeature feat
  let bp ← checkRoute cfg gport
  return readPort cfg f bp.1 bp.2

/-- `MUX_GET_PORT` (42_bank_mux.md R215). -/
def execMgetp (feat : BitVec 4) (gport : BitVec 8) (s : State) : Host.Outcome State Fault Refusal :=
  s.serve (planMgetp feat gport)

/-- The checks of `MUX_SET_PORT`, in the order of 60_exceptions.md R236, and its plan. -/
def planMsetp (feat : BitVec 4) (gport : BitVec 8) (v : Bool) (cfg : Config) : Except Status Plan := do
  let f ← checkFeature feat
  let bp ← checkRoute cfg gport
  checkWritable cfg f
  return writePort cfg f bp.1 bp.2 v

/-- `MUX_SET_PORT` (42_bank_mux.md R220). -/
def execMsetp (feat : BitVec 4) (gport : BitVec 8) (v : Bool) (s : State) : Host.Outcome State Fault Refusal :=
  s.serve (planMsetp feat gport v)

end Sys2Proof.Machine
end

