-- ==== Sys2Proof/Machine/Transport.lean ====
section
/-! DEFINITION. The transport adapter's commands, `READ_WORD` and `WRITE_WORD` (40_transport.md). -/

namespace Sys2Proof.Machine

/-- One `AREAD` whose logical word is the result (40_transport.md R140). It uses neither `K`, `ACC` nor `WBUF` (log 25). -/
def readWord (b : BankId) (sel : Selector) : Plan where
  locks := [b]
  first := .read
  enter r := { r with b := b }
  target r := if r.place = .read then some (b, sel) else none
  afterRead _ w := .done (w.setWidth 32)
  afterWrite _ := .done 0

/-- One `AWRITE` of a given logical word, with no read first (40_transport.md R145). That the word stands in `WBUF` is the
model's choice: DESIGN CHOICE (log 25). -/
def writeWord (b : BankId) (sel : Selector) (word : RegWord) : Plan where
  locks := [b]
  first := .write
  enter r := { r with b := b, wbuf := word }
  target r := if r.place = .write then some (b, sel) else none
  afterRead r _ := .go r
  afterWrite _ := .done 0

/-- The checks of `READ_WORD`, in the order of 60_exceptions.md R236, and its plan. -/
def planRdw (bank : BitVec 2) (sel : BitVec 8) (cfg : Config) : Except Status Plan := do
  let b ← checkBank cfg bank
  return readWord b sel

/-- `READ_WORD` (40_transport.md R140): any selector is legal. -/
def execRdw (bank : BitVec 2) (sel : BitVec 8) (s : State) : Host.Outcome State Fault Refusal :=
  s.serve (planRdw bank sel)

/-- The checks of `WRITE_WORD`, in the order of 60_exceptions.md R236, and its plan. -/
def planWrw (bank : BitVec 2) (sel : BitVec 8) (word : BitVec 16) (cfg : Config) : Except Status Plan := do
  let b ← checkBank cfg bank
  return writeWord b sel word

/-- `WRITE_WORD` (40_transport.md R145): no writability check (20_memory.md R91). -/
def execWrw (bank : BitVec 2) (sel : BitVec 8) (word : BitVec 16) (s : State) : Host.Outcome State Fault Refusal :=
  s.serve (planWrw bank sel word)

end Sys2Proof.Machine
end

