-- ==== Sys2Proof/Machine/Dispatch.lean ====
section
/-! DEFINITION. One arm per command of 30_encoding.md R113. -/

namespace Sys2Proof.Machine

def exec (i : Instr) (s : State) : Host.Outcome State Fault Refusal :=
  match i with
  | .rdw bank sel => Sys2Proof.Machine.execRdw bank sel s
  | .wrw bank sel word => Sys2Proof.Machine.execWrw bank sel word s
  | .getm bank feat => Sys2Proof.Machine.execGetm bank feat s
  | .setm bank feat mask => Sys2Proof.Machine.execSetm bank feat mask s
  | .getp bank feat port => Sys2Proof.Machine.execGetp bank feat port s
  | .setp bank feat port v => Sys2Proof.Machine.execSetp bank feat port v s
  | .mgetm feat => Sys2Proof.Machine.execMgetm feat s
  | .msetm feat mask => Sys2Proof.Machine.execMsetm feat mask s
  | .mgetp feat gport => Sys2Proof.Machine.execMgetp feat gport s
  | .msetp feat gport v => Sys2Proof.Machine.execMsetp feat gport v s

end Sys2Proof.Machine
end

