-- ==== Sys2Proof/Machine/Fetch.lean ====
section
/-! DEFINITION. What a step does with each input: a delivered command, a caller's turn, an attach, a reconstruction
(70_reset_and_hazards.md), a write from outside the block. -/

namespace Sys2Proof.Machine

/-- Before the first command: the configuration well formed and every bank attached (70_reset_and_hazards.md R275). -/
def State.ready (s : State) : Bool := s.cfg.wf && s.cfg.banks.all s.attached

/-- The record of a command as delivered (70_reset_and_hazards.md R276). -/
def InFlight.delivered (cmd data : Word32) : InFlight :=
  { InFlight.idle with phase := .busy, cmd := cmd, data := data }

/-- One step of the command in the served caller's record: decoded from its words, or rejected with INVALID_COMMAND
(30_encoding.md R114). -/
def State.perform (s : State) : Host.Outcome State Fault Refusal :=
  match decode s.record.cmd s.record.data with
  | .ok i => exec i s
  | .error _ => .next (s.raise .invalidCommand)

/-- The state in which caller `c` is served and its record holds a command just delivered. -/
def State.deliver (s : State) (c : CallerId) (cmd data : Word32) : State :=
  { s with cur := c }.setRecord (InFlight.delivered cmd data)

/-- Caller `c` delivers a command: it runs at once up to its first transaction (70_reset_and_hazards.md R275, R276). -/
def State.accept (s : State) (c : CallerId) (cmd data : Word32) : Host.Outcome State Fault Refusal :=
  if !s.ready then .refused .notReady
  else if s.busy c then .refused .callerBusy
  else (s.deliver c cmd data).perform

/-- The next step of caller `c`'s command in progress; nothing where it has none (20_memory.md R84; log 10). -/
def State.takeTurn (s : State) (c : CallerId) : Host.Outcome State Fault Refusal :=
  if s.busy c then { s with cur := c }.perform else .next { s with cur := c }

/-- The host attaches the peer device at a bus address as the bank a selector names; no transaction
(70_reset_and_hazards.md R271, R274; log 4). -/
def State.attachBank (s : State) (selector : BitVec 2) (addr : Nat) : Host.Outcome State Fault Refusal :=
  match bankOf s.cfg selector with
  | none => .refused .noSuchBank
  | some b => if addr = s.cfg.addr b then .next (s.setAttached b) else .refused .wrongAddress

/-- A writer outside the block writes a peer register: its control bits take the word's, or become UNKNOWN where the
write failed (10_state.md R46, R48; log 22). It is no transaction of the block. -/
def State.outsideWrite (s : State) (b : BankId) (sel : Selector) (wire : RegWord) (ok : Bool) :
    Host.Outcome State Fault Refusal :=
  if b ∈ s.cfg.banks then .next (s.setCtrl b sel (if ok then written s.cfg b sel wire else CtrlWord.unknown))
  else .refused .noSuchBank

/-- Constructing a block with `cfg`: no instance where the configuration fails the checks (70_reset_and_hazards.md R270;
93_implementation_defined.md I33). -/
def State.construct (cfg : Config) : Host.Outcome State Fault Refusal :=
  if cfg.wf then .next (State.constructed cfg) else .refused .badConfiguration

/-- The block is reconstructed with the configuration it has, which no reset changes (00_scope.md R3; 10_state.md R53;
70_reset_and_hazards.md R270, R271, R273): everything as after construction, no transaction; what the outside does next
and what went over the bus are not the block's (log 21). -/
def State.reconstruct (s : State) : Host.Outcome State Fault Refusal :=
  if s.anyBusy then .refused .resetWhileBusy
  else
    match State.construct s.cfg with
    | .next t => .next { t with inputs := s.inputs, bus := s.bus, drawn := s.drawn, log := s.log }
    | .fault r => .fault r
    | .refused r => .refused r

/-- The state after taking its next input, and that input. -/
def State.nextInput (s : State) : Option (Input × State) :=
  match s.inputs with
  | [] => none
  | x :: rest => some (x, { s with inputs := rest })

/-- What the machine does with one input. -/
def State.take (s : State) : Input → Host.Outcome State Fault Refusal
  | .command c cmd data => s.accept c cmd data
  | .turn c => s.takeTurn c
  | .attach selector addr => s.attachBank selector addr
  | .reset => s.reconstruct
  | .outsideWrite b sel wire ok => s.outsideWrite b sel wire ok

/-- A caller number above every listed one: a caller with nothing in progress. -/
def State.newCaller (s : State) : CallerId := s.callers.foldl (fun n e => max n (e.1 + 1)) 0

end Sys2Proof.Machine
end

