-- ==== Sys2Proof/Machine/Step.lean ====
section
/-! DEFINITION. The step: the machine takes its next input. Without one the block does nothing: "there is no background
task" (60_exceptions.md R245; 70_reset_and_hazards.md R277; log 11). -/

namespace Sys2Proof.Machine

/-- One step of the machine. -/
def step (s : State) : Host.Outcome State Fault Refusal :=
  match s.nextInput with
  | none => .next s
  | some (x, s') => s'.take x

/-- The state whose next input is the command of a table word, from a caller with nothing in progress, with every bank
attached (70_reset_and_hazards.md R275; log 5). -/
def State.withFetchWord (s : State) (nbits w : Nat) : State :=
  { s with
    attached1 := true
    attached2 := true
    inputs := .command s.newCaller (cmdOfTable nbits w) (dataOfTable nbits w) :: s.inputs }

end Sys2Proof.Machine
end

