-- ==== Sys2Proof/Machine/Assembler.lean ====
section
/-! DEFINITION. The assembler lines of 30_encoding.md R125, the pseudo-commands of R126 and the words of R127. The
block sees only the words. -/

namespace Sys2Proof

/-- `<b>`: `b1` or `b2` (30_encoding.md R125). -/
inductive AsmBank where
  | b1
  | b2
deriving DecidableEq, Repr

/-- A feature mnemonic (30_encoding.md R125; 00_scope.md R10). -/
inductive AsmFeatureName where
  | lpmode
  | modabs
  | int
  | intl
  | reset
  | resetl
deriving DecidableEq, Repr

/-- `<f>`: a feature mnemonic, or a number 0..15 (30_encoding.md R125). -/
inductive AsmFeature where
  | name (n : AsmFeatureName)
  | number (n : BitVec 4)
deriving DecidableEq, Repr

/-- One line that stands for one command (30_encoding.md R125). -/
inductive AsmLine where
  | rdw (b : AsmBank) (sel : BitVec 8)
  | wrw (b : AsmBank) (sel : BitVec 8) (word : BitVec 32)
  | getm (b : AsmBank) (f : AsmFeature)
  | setm (b : AsmBank) (f : AsmFeature) (mask : BitVec 32)
  | getp (b : AsmBank) (f : AsmFeature) (p : BitVec 8)
  | setp (b : AsmBank) (f : AsmFeature) (p : BitVec 8) (v : Bool)
  | mgetm (f : AsmFeature)
  | msetm (f : AsmFeature) (mask : BitVec 32)
  | mgetp (f : AsmFeature) (gp : BitVec 8)
  | msetp (f : AsmFeature) (gp : BitVec 8) (v : Bool)
deriving DecidableEq, Repr

/-- One pseudo-command (30_encoding.md R126). -/
inductive AsmPseudo where
  | clrm (b : AsmBank) (f : AsmFeature)
  | fillm (b : AsmBank) (f : AsmFeature)
  | assert (b : AsmBank) (f : AsmFeature) (p : BitVec 8)
  | deassert (b : AsmBank) (f : AsmFeature) (p : BitVec 8)
  | nop
deriving DecidableEq, Repr

namespace Machine

/-- The `BANK` field of a bank name. -/
def asmBankField : AsmBank → BitVec 2
  | .b1 => 1
  | .b2 => 2

/-- The index of a feature mnemonic (00_scope.md R10). -/
def asmFeatureIndex : AsmFeatureName → BitVec 4
  | .lpmode => 0
  | .modabs => 1
  | .int => 2
  | .intl => 2
  | .reset => 3
  | .resetl => 3

/-- The `FEAT` field of a feature operand. -/
def asmFeatureField : AsmFeature → BitVec 4
  | .name n => asmFeatureIndex n
  | .number n => n

/-- The words `(CMD, DATA)` of a line (30_encoding.md R127): 0 in ignored fields, `DATA` as given. -/
def assembleLine : AsmLine → Word32 × Word32
  | .rdw b sel => (cmdWord 0x1 0 (asmBankField b) sel false, 0)
  | .wrw b sel word => (cmdWord 0x2 0 (asmBankField b) sel false, word)
  | .getm b f => (cmdWord 0x3 (asmFeatureField f) (asmBankField b) 0 false, 0)
  | .setm b f mask => (cmdWord 0x4 (asmFeatureField f) (asmBankField b) 0 false, mask)
  | .getp b f p => (cmdWord 0x5 (asmFeatureField f) (asmBankField b) p false, 0)
  | .setp b f p v => (cmdWord 0x6 (asmFeatureField f) (asmBankField b) p v, 0)
  | .mgetm f => (cmdWord 0x9 (asmFeatureField f) 0 0 false, 0)
  | .msetm f mask => (cmdWord 0xA (asmFeatureField f) 0 0 false, mask)
  | .mgetp f gp => (cmdWord 0xB (asmFeatureField f) 0 gp false, 0)
  | .msetp f gp v => (cmdWord 0xC (asmFeatureField f) 0 gp v, 0)

/-- The command a line stands for. -/
def lineInstr : AsmLine → Instr
  | .rdw b sel => .rdw (asmBankField b) sel
  | .wrw b sel word => .wrw (asmBankField b) sel (word.setWidth 16)
  | .getm b f => .getm (asmBankField b) (asmFeatureField f)
  | .setm b f mask => .setm (asmBankField b) (asmFeatureField f) mask
  | .getp b f p => .getp (asmBankField b) (asmFeatureField f) p
  | .setp b f p v => .setp (asmBankField b) (asmFeatureField f) p v
  | .mgetm f => .mgetm (asmFeatureField f)
  | .msetm f mask => .msetm (asmFeatureField f) mask
  | .mgetp f gp => .mgetp (asmFeatureField f) gp
  | .msetp f gp v => .msetp (asmFeatureField f) gp v

/-- The expansion of a pseudo-command (30_encoding.md R126). -/
def expandPseudo : AsmPseudo → List AsmLine
  | .clrm b f => [.setm b f 0]
  | .fillm b f => [.setm b f 0xFFFFFFFF]
  | .assert b f p => [.setp b f p true]
  | .deassert b f p => [.setp b f p false]
  | .nop => []

/-- The text of a bank operand. -/
def bankText : AsmBank → String
  | .b1 => "b1"
  | .b2 => "b2"

/-- The text of a feature operand; a number in decimal (30_encoding.md R125). -/
def featureText : AsmFeature → String
  | .name .lpmode => "lpmode"
  | .name .modabs => "modabs"
  | .name .int => "int"
  | .name .intl => "intl"
  | .name .reset => "reset"
  | .name .resetl => "resetl"
  | .number n => n.toNat.repr

/-- The text of a one-bit operand. -/
def bitText (v : Bool) : String := if v then "1" else "0"

/-- The text of a line (30_encoding.md R125), numbers in decimal. -/
def lineText : AsmLine → String
  | .rdw b sel => "rdw " ++ bankText b ++ ", " ++ sel.toNat.repr
  | .wrw b sel word => "wrw " ++ bankText b ++ ", " ++ sel.toNat.repr ++ ", " ++ word.toNat.repr
  | .getm b f => "getm " ++ bankText b ++ ", " ++ featureText f
  | .setm b f mask => "setm " ++ bankText b ++ ", " ++ featureText f ++ ", " ++ mask.toNat.repr
  | .getp b f p => "getp " ++ bankText b ++ ", " ++ featureText f ++ ", " ++ p.toNat.repr
  | .setp b f p v => "setp " ++ bankText b ++ ", " ++ featureText f ++ ", " ++ p.toNat.repr ++ ", " ++ bitText v
  | .mgetm f => "mgetm " ++ featureText f
  | .msetm f mask => "msetm " ++ featureText f ++ ", " ++ mask.toNat.repr
  | .mgetp f gp => "mgetp " ++ featureText f ++ ", " ++ gp.toNat.repr
  | .msetp f gp v => "msetp " ++ featureText f ++ ", " ++ gp.toNat.repr ++ ", " ++ bitText v

end Machine

end Sys2Proof
end

