-- ==== Sys2Proof/Safety.lean ====
section
/-! DEFINITION. The terms claims are stated in: what the next reply is, when a command's locks are free, a command run
with nobody else's step in between, and the invariants of a run. -/

namespace Sys2Proof.Machine

/-! ### Reading a state -/

/-- The reply the next transaction gets. -/
def State.reply (s : State) : BusReply := s.drawReply.1

/-- The last response returned to the served caller. -/
def State.response (s : State) : Option Response := (s.caller s.cur).response

/-- The locks of a list are FREE or the served caller's own, or there are no locks (10_state.md R52). -/
def State.locksFree (s : State) (bs : List BankId) : Prop :=
  s.cfg.serialize = true → ∀ b ∈ bs, s.lock b = none ∨ s.lock b = some s.cur

/-- The logical word a successful read of `(b, sel)` gives when the peer device chooses `draw` (10_state.md R46, R47). -/
def State.logicalWord (s : State) (b : BankId) (sel : Selector) (draw : RegWord) : RegWord :=
  transform s.cfg (s.wireWord b sel draw)

/-- The checks of a command, in the order of 60_exceptions.md R236, and its plan. -/
def planOf : Instr → Config → Except Status Plan
  | .rdw bank sel => planRdw bank sel
  | .wrw bank sel word => planWrw bank sel word
  | .getm bank feat => planGetm bank feat
  | .setm bank feat mask => planSetm bank feat mask
  | .getp bank feat port => planGetp bank feat port
  | .setp bank feat port v => planSetp bank feat port v
  | .mgetm feat => planMgetm feat
  | .msetm feat mask => planMsetm feat mask
  | .mgetp feat gport => planMgetp feat gport
  | .msetp feat gport v => planMsetp feat gport v

/-- What a step of the served caller leaves as it was: the configuration, the attached banks, who is served, what the
outside does next, and everything held for the other callers. -/
structure SameOutside (s t : State) : Prop where
  cfg       : t.cfg = s.cfg
  attached1 : t.attached1 = s.attached1
  attached2 : t.attached2 = s.attached2
  cur       : t.cur = s.cur
  inputs    : t.inputs = s.inputs
  callers   : ∀ c, c ≠ s.cur → t.caller c = s.caller c

/-- Every peer register retains what it retained. -/
def SamePeers (s t : State) : Prop := ∀ b sel, t.ctrl b sel = s.ctrl b sel

/-- Every peer register but `(b, sel)` retains what it retained. -/
def SamePeersBut (b : BankId) (sel : Selector) (s t : State) : Prop :=
  ∀ b' sel', (b', sel') ≠ (b, sel) → t.ctrl b' sel' = s.ctrl b' sel'

/-- The served command has ended with a response: its record is IDLE, it holds no lock, and every other lock is as it
was (00_scope.md R16, 10_state.md R52). That the record's fields other than PHASE are those of `InFlight.idle` is the
model's choice (log 2). -/
structure Ended (s t : State) (r : Response) : Prop where
  response : t.response = some r
  record   : t.record = InFlight.idle
  lock     : ∀ b, t.lock b = if s.lock b = some s.cur then none else s.lock b

/-! ### The transaction a command makes next -/

/-- The record with which the served command makes its next transaction: its own, or the one it enters with. -/
def State.dueRecord (s : State) (p : Plan) : InFlight :=
  match s.record.place with
  | .read => s.record
  | .write => s.record
  | .start => { p.enter { s.record with phase := .busy } with place := p.first }
  | .lock => { p.enter { s.record with phase := .busy } with place := p.first }

/-- Command `i` of the served caller passes its checks and makes a transaction now: it is under way, or it starts and
its locks are free. -/
structure Due (s : State) (i : Instr) (p : Plan) : Prop where
  checks : planOf i s.cfg = .ok p
  free   : s.record.place = .start ∨ s.record.place = .lock → s.locksFree p.locks
  busy   : s.record.place = .read ∨ s.record.place = .write → s.record.phase = .busy

/-- The step goes on with record `r`: no response, and no lock held by another caller changes. -/
structure Goes (s t : State) (r : InFlight) : Prop where
  record   : t.record = r
  response : t.response = s.response
  lock     : ∀ b c, c ≠ s.cur → (t.lock b = some c ↔ s.lock b = some c)

/-! ### Transactions -/

/-- The transaction is a read of the register at `(b, sel)`, with success or without. -/
def Transaction.reads (x : Transaction) (b : BankId) (sel : Selector) : Prop :=
  (∃ w, x = .read b sel w) ∨ ∃ st, x = .readFailed b sel st

/-- The transaction is a write of wire word `w` to the register at `(b, sel)`, with success or without. -/
def Transaction.writes (x : Transaction) (b : BankId) (sel : Selector) (w : RegWord) : Prop :=
  x = .write b sel w ∨ ∃ st, x = .writeFailed b sel w st

/-- The transaction a record of a read-modify-write makes at `(b, sel)`: the read, or the write of `WBUF`'s wire form. -/
def InFlight.accesses (r : InFlight) (cfg : Config) (x : Transaction) (b : BankId) (sel : Selector) : Prop :=
  r.place = .read ∧ x.reads b sel ∨ r.place = .write ∧ x.writes b sel (transform cfg r.wbuf)

/-! ### What a command is about -/

/-- `GET_MASK` of feature `f` of a bank, or `MUX_GET_MASK`: the banks read, and where each bank's mask goes. -/
def ReadsMask (cfg : Config) (f : Feature) (visit : List BankId) (shift : BankId → Nat) : Instr → Prop
  | .getm bank feat => ∃ b, bankOf cfg bank = some b ∧ featureOf feat = some f ∧ visit = [b] ∧ shift = fun _ => 0
  | .mgetm feat => featureOf feat = some f ∧ visit = cfg.banks ∧ shift = BankId.base
  | _ => False

/-- `SET_MASK` of a writable feature `f` of a bank, or `MUX_SET_MASK`. -/
def WritesMask (cfg : Config) (f : Feature) (visit : List BankId) (shift : BankId → Nat) (mask : Word32) :
    Instr → Prop
  | .setm bank feat m =>
    ∃ b, bankOf cfg bank = some b ∧ featureOf feat = some f ∧ (cfg.info f).writable = true ∧ m = mask
      ∧ visit = [b] ∧ shift = fun _ => 0
  | .msetm feat m =>
    featureOf feat = some f ∧ (cfg.info f).writable = true ∧ m = mask ∧ visit = cfg.banks ∧ shift = BankId.base
  | _ => False

/-- `GET_PORT` of feature `f` at local port `p` of bank `b`, or `MUX_GET_PORT` of the global port there. -/
def ReadsPort (cfg : Config) (f : Feature) (b : BankId) (p : Nat) : Instr → Prop
  | .getp bank feat port =>
    bankOf cfg bank = some b ∧ featureOf feat = some f ∧ port.toNat < cfg.ports b ∧ p = port.toNat
  | .mgetp feat gport => featureOf feat = some f ∧ route cfg gport.toNat = some (b, p)
  | _ => False

/-- `SET_PORT` of a writable feature `f` at local port `p` of bank `b`, or `MUX_SET_PORT` of the global port there. -/
def WritesPort (cfg : Config) (f : Feature) (b : BankId) (p : Nat) (v : Bool) : Instr → Prop
  | .setp bank feat port x =>
    bankOf cfg bank = some b ∧ featureOf feat = some f ∧ port.toNat < cfg.ports b ∧ (cfg.info f).writable = true
      ∧ p = port.toNat ∧ x = v
  | .msetp feat gport x =>
    featureOf feat = some f ∧ route cfg gport.toNat = some (b, p) ∧ (cfg.info f).writable = true ∧ x = v
  | _ => False

/-- The registers a mask command reaches, in order (41_transcode.md R161, 42_bank_mux.md R206). -/
def registersOf (cfg : Config) (visit : List BankId) : List (BankId × Selector) :=
  visit.flatMap fun b => (cfg.entries b).map fun e => (b, e.sel)

/-- `CTRL` of feature `f` at local port `p` of bank `b` (10_state.md R46): 0, 1 or UNKNOWN (`none`). -/
def State.ctrlBit (s : State) (b : BankId) (f : Feature) (p : Nat) : Option Bool :=
  (portRegister s.cfg b p).bind fun bs =>
    if (s.ctrl b bs.2).known.getLsbD (portBit s.cfg f b p) then
      some ((s.ctrl b bs.2).value.getLsbD (portBit s.cfg f b p))
    else none

/-! ### A command with nobody else in between -/

/-- Steps of the served caller's command, at most `n`, until its record is IDLE. -/
def runAlone (i : Instr) : Nat → State → Host.Outcome State Fault Refusal
  | 0, s => .next s
  | n + 1, s =>
    match exec i s with
    | .next t => if t.record.phase = .idle then .next t else runAlone i n t
    | .fault r => .fault r
    | .refused r => .refused r

/-- The peer devices answer the next transactions with success and the words of a list. -/
def State.answers (s : State) (draws : List RegWord) : Prop := ∃ rest, s.bus = draws.map BusReply.ok ++ rest

/-- The start of 95_test_vectors.md V-HZ-1, with RESET of port 1 at hardware 1: caller 1 is to set LPMODE of port 0 and
caller 2 RESET of port 1, both in the register at selector 0x10; caller 2 delivers before caller 1's turn. -/
def hazardStart (serialize : Bool) : State :=
  { State.reset with
    cfg := { Config.refA with serialize := serialize }
    attached1 := true
    attached2 := true
    peer1 := [(0x10, ⟨0x9999, 0x0080⟩)]
    inputs := [.command 1 0x01000106 0, .command 2 0x01010136 0, .turn 1, .turn 2, .turn 2]
    bus := [.ok 0, .ok 0, .ok 0, .ok 0] }

/-! ### Invariants -/

/-- Every register file is canonical, and a device retains nothing but control bits (10_state.md R45, R46). -/
structure MemoryOk (s : State) : Prop where
  canonical : ∀ b, (s.peer b).wf
  control   : ∀ b sel, (s.ctrl b sel).known &&& ~~~ s.cfg.ctrlMask b sel = 0

/-- A response has the fields its `STATUS` calls for and no other; its bus status is negative; the block never raises
PARSE_ERROR (30_encoding.md R121, R122; 60_exceptions.md R233). -/
def Response.shaped (r : Response) : Bool :=
  r.status ≠ .parseError
    && r.rdata.isSome == (r.status == .ok)
    && r.ebank.isSome == (r.status == .transportError)
    && r.eaddr.isSome == (r.status == .transportError)
    && r.esel.isSome == (r.status == .transportError)
    && r.estatus.isSome == (r.status == .transportError)
    && r.estatus.all BitVec.msb

/-- Every response held for a caller is shaped. -/
def ResponsesOk (s : State) : Prop := ∀ c r, (s.caller c).response = some r → r.shaped = true

/-- A record is IDLE, or BUSY with a command whose checks pass, at a place that command has. -/
inductive RecordOk (cfg : Config) (r : InFlight) : Prop where
  | idle (h : r = InFlight.idle)
  | waiting (i : Instr) (p : Plan) (busy : r.phase = .busy) (isCommand : decode r.cmd r.data = .ok i)
      (checks : planOf i cfg = .ok p) (serialize : cfg.serialize = true) (place : r.place = .lock)
  | running (i : Instr) (p : Plan) (busy : r.phase = .busy) (isCommand : decode r.cmd r.data = .ok i)
      (checks : planOf i cfg = .ok p) (place : r.place = .read ∨ r.place = .write) (target : (p.target r).isSome)

/-- Caller `c` has a command in progress that takes the lock of bank `b`. -/
def Needs (s : State) (c : CallerId) (b : BankId) : Prop :=
  ∃ i p, s.busy c = true ∧ decode (s.caller c).inFlight.cmd (s.caller c).inFlight.data = .ok i
    ∧ planOf i s.cfg = .ok p ∧ b ∈ p.locks

/-- Caller `c` is between its first transaction and its end. -/
def Running (s : State) (c : CallerId) : Prop :=
  (s.caller c).inFlight.place = .read ∨ (s.caller c).inFlight.place = .write

/-- The invariant of a run: the configuration passes its checks; every record stands at a place of its command; a lock
is held only by a command that takes it, and by every running command that takes it (10_state.md R52). -/
structure RunInv (s : State) : Prop where
  cfg     : s.cfg.wf = true
  callers : tableWf Caller.fresh s.callers
  records : ∀ c, RecordOk s.cfg (s.caller c).inFlight
  holders : ∀ b c, s.lock b = some c → s.cfg.serialize = true ∧ Needs s c b
  held    : s.cfg.serialize = true → ∀ b c, Running s c → Needs s c b → s.lock b = some c

end Sys2Proof.Machine
end

