-- ==== Sys2Proof/Certificates/Slice0/Obligations.lean ====
section
/-! DEFINITION. The statements for the provers. -/

open Sys2Proof Sys2Proof.Machine

/-! ### Encoding -/

/-- Decoding the words of a command gives the command back (30_encoding.md R111 to R113, R127). -/
def Obligations.DecodeOfEncode : Prop :=
  ∀ i : Instr, decode (encode i).1 (encode i).2 = .ok i

/-- A command is illegal exactly when its `OP` or a reserved bit says so; delivered by an idle caller of a ready block,
it is rejected with INVALID_COMMAND and changes nothing but that caller's response (30_encoding.md R114). -/
def Obligations.IllegalCommandIsRejected : Prop :=
  (∀ cmd data : Word32, (∀ i, decode cmd data ≠ .ok i) ↔
      (opField cmd).toNat ∈ [0x0, 0x7, 0x8, 0xD, 0xE, 0xF] ∨ reservedLow cmd ≠ 0 ∨ reservedHigh cmd ≠ 0) ∧
    ∀ (s : State) (c : CallerId) (cmd data : Word32) (rest : List Input),
      s.inputs = .command c cmd data :: rest → s.ready = true → s.busy c = false → (∀ b, s.lock b ≠ some c) →
      ((opField cmd).toNat ∈ [0x0, 0x7, 0x8, 0xD, 0xE, 0xF] ∨ reservedLow cmd ≠ 0 ∨ reservedHigh cmd ≠ 0) →
      ∃ t, step s = .next t ∧ (t.caller c).response = some (Response.rejected .invalidCommand)
        ∧ (t.caller c).inFlight.phase = .idle ∧ (∀ c', c' ≠ c → t.caller c' = s.caller c')
        ∧ t.cfg = s.cfg ∧ (∀ b, t.attached b = s.attached b) ∧ (∀ b, t.peer b = s.peer b)
        ∧ (∀ b, t.lock b = s.lock b) ∧ t.inputs = rest ∧ t.bus = s.bus ∧ t.drawn = s.drawn ∧ t.log = s.log

/-- Two pairs of words that agree on `OP`, on clear reserved bits and on the fields the command uses are the same
command (30_encoding.md R113; 92_eei_decisions.md D5). -/
def Obligations.IgnoredFieldsDoNotMatter : Prop :=
  ∀ (cmd cmd' data data' : Word32) (i : Instr), decode cmd data = .ok i → opField cmd' = opField cmd →
    reservedLow cmd' = 0 → reservedHigh cmd' = 0 →
    (match i with
      | .rdw _ _ => bankField cmd' = bankField cmd ∧ idxField cmd' = idxField cmd
      | .wrw _ _ _ => bankField cmd' = bankField cmd ∧ idxField cmd' = idxField cmd
          ∧ data'.extractLsb' 0 16 = data.extractLsb' 0 16
      | .getm _ _ => bankField cmd' = bankField cmd ∧ featField cmd' = featField cmd
      | .setm _ _ _ => bankField cmd' = bankField cmd ∧ featField cmd' = featField cmd ∧ data' = data
      | .getp _ _ _ => bankField cmd' = bankField cmd ∧ featField cmd' = featField cmd ∧ idxField cmd' = idxField cmd
      | .setp _ _ _ _ => bankField cmd' = bankField cmd ∧ featField cmd' = featField cmd
          ∧ idxField cmd' = idxField cmd ∧ vField cmd' = vField cmd
      | .mgetm _ => featField cmd' = featField cmd
      | .msetm _ _ => featField cmd' = featField cmd ∧ data' = data
      | .mgetp _ _ => featField cmd' = featField cmd ∧ idxField cmd' = idxField cmd
      | .msetp _ _ _ => featField cmd' = featField cmd ∧ idxField cmd' = idxField cmd ∧ vField cmd' = vField cmd) →
    decode cmd' data' = .ok i

/-- Words written out from the spec's encodings and vectors decode to their commands (30_encoding.md R127;
95_test_vectors.md). -/
def Obligations.SpecWordsDecode : Prop :=
  decode 0x01050236 0 = .ok (.setp 2 3 5 true) ∧ decode 0x00100102 0x2143 = .ok (.wrw 1 0x10 0x2143)
    ∧ decode 0x00000104 0xA5 = .ok (.setm 1 0 0xA5) ∧ decode 0x011F003C 0 = .ok (.msetp 3 31 true)
    ∧ decode 0x00000309 0 = .ok (.mgetm 0)

/-- Assembled lines decode to their commands, with the fields of bank and feature names; a pseudo-command is its
expansion, and the lines of the expansion decode to the command they name (30_encoding.md R125 to R127). Lines as
syntax trees are the model's choice (log 24). -/
def Obligations.AssembledLinesDecode : Prop :=
  (∀ l : AsmLine, decode (assembleLine l).1 (assembleLine l).2 = .ok (lineInstr l)) ∧
    assembleLine (.setp .b2 (.number 3) 5 true) = (0x01050236, 0) ∧
    (asmBankField .b1 = 1 ∧ asmBankField .b2 = 2) ∧
    [AsmFeatureName.lpmode, .modabs, .int, .intl, .reset, .resetl].map asmFeatureIndex = [0, 1, 2, 2, 3, 3] ∧
    ∀ (b : AsmBank) (f : AsmFeature) (p : BitVec 8),
      (expandPseudo (.clrm b f) = [.setm b f 0]
        ∧ decode (assembleLine (.setm b f 0)).1 (assembleLine (.setm b f 0)).2 =
          .ok (.setm (asmBankField b) (asmFeatureField f) 0)) ∧
      (expandPseudo (.fillm b f) = [.setm b f 0xFFFFFFFF]
        ∧ decode (assembleLine (.setm b f 0xFFFFFFFF)).1 (assembleLine (.setm b f 0xFFFFFFFF)).2 =
          .ok (.setm (asmBankField b) (asmFeatureField f) 0xFFFFFFFF)) ∧
      (expandPseudo (.assert b f p) = [.setp b f p true]
        ∧ decode (assembleLine (.setp b f p true)).1 (assembleLine (.setp b f p true)).2 =
          .ok (.setp (asmBankField b) (asmFeatureField f) p true)) ∧
      (expandPseudo (.deassert b f p) = [.setp b f p false]
        ∧ decode (assembleLine (.setp b f p false)).1 (assembleLine (.setp b f p false)).2 =
          .ok (.setp (asmBankField b) (asmFeatureField f) p false)) ∧
      expandPseudo .nop = []

/-- A step runs the command its input delivers or resumes: the decoded instruction, in the state where the input is
taken, its caller is served and, for a new command, its record holds the two words (R110, R276, R84). Inputs and the
served caller are the model's own (logs 6 and 20). -/
def Obligations.StepRunsTheDecodedCommand : Prop :=
  (∀ (s : State) (c : CallerId) (cmd data : Word32) (rest : List Input) (i : Instr),
      s.inputs = .command c cmd data :: rest → s.ready = true → s.busy c = false → decode cmd data = .ok i →
      step s = exec i ({ s with inputs := rest }.deliver c cmd data)) ∧
    ∀ (s : State) (c : CallerId) (rest : List Input) (i : Instr),
      s.inputs = .turn c :: rest → s.busy c = true →
      decode (s.caller c).inFlight.cmd (s.caller c).inFlight.data = .ok i →
      step s = exec i { s with inputs := rest, cur := c }

/-! ### Words and masks -/

/-- The nibble swap exchanges the nibbles of each byte (20_memory.md R75). -/
def Obligations.NibbleSwapExchangesNibbles : Prop :=
  (∀ w : RegWord, (nswap w).extractLsb' 12 4 = w.extractLsb' 8 4 ∧ (nswap w).extractLsb' 8 4 = w.extractLsb' 12 4
      ∧ (nswap w).extractLsb' 4 4 = w.extractLsb' 0 4 ∧ (nswap w).extractLsb' 0 4 = w.extractLsb' 4 4
      ∧ nswap w = ((w &&& 0x0F0F) <<< 4 ||| (w &&& 0xF0F0) >>> 4)) ∧
    nswap 0x1234 = 0x2143

/-- The laws of the nibble swap (20_memory.md R77). -/
def Obligations.NibbleSwapLaws : Prop :=
  (∀ w : RegWord, nswap (nswap w) = w) ∧ nswap 0x0000 = 0x0000 ∧ nswap 0xFFFF = 0xFFFF
    ∧ (∀ (w : RegWord) (i : Nat), i < 16 → (nswap w).getLsbD (i ^^^ 4) = w.getLsbD i)
    ∧ (∀ w : RegWord, nswap (w.rotateLeft 8) = (nswap w).rotateLeft 8)
    ∧ ∀ a b : RegWord, nswap (a &&& b) = nswap a &&& nswap b ∧ nswap (a ||| b) = nswap a ||| nswap b
      ∧ nswap (a ^^^ b) = nswap a ^^^ nswap b ∧ nswap (~~~a) = ~~~ nswap a

/-- Presentation inverts the `N` bits of an active-low mask, leaves an active-high mask, and is its own inverse
(41_transcode.md R163). -/
def Obligations.PresentationIsItsOwnInverse : Prop :=
  ∀ (h : Word32) (n : Nat), n ≤ 32 →
    present .activeHigh h n = h ∧ (∀ j, (present .activeLow h n).getLsbD j = (decide (j < n) && !h.getLsbD j))
      ∧ (h.toNat < 2 ^ n → ∀ pol, present pol (present pol h n) n = h)

/-! ### Layout and routing -/

/-- The descriptors of a configuration that passes the checks are those its variant selects: in variant A 4 or 2 entries
and 16 or 8 ports a bank, in variant B one entry and 4 ports; entry `k` starts at port `4*k` and covers 4 ports
(00_scope.md R9; 10_state.md R35 to R37; 42_bank_mux.md R201). -/
def Obligations.DescriptorsAreTheVariants : Prop :=
  ∀ (cfg : Config) (b : BankId), cfg.wf = true → b ∈ cfg.banks →
    cfg.nreg b = (cfg.bank b).nreg
      ∧ (cfg.variant = .A → cfg.nreg b = 4 ∧ cfg.ports b = 16 ∨ cfg.nreg b = 2 ∧ cfg.ports b = 8)
      ∧ (cfg.variant = .B → cfg.nreg b = 1 ∧ cfg.ports b = 4)
      ∧ ∀ k e, cfg.entry? b k = some e → e.start = 4 * k ∧ e.count = 4

/-- `LOCATE` finds the one entry whose ports include `p`, and the slot; ordinal and slot are `p >> 2` and `p & 3`
(41_transcode.md R181). -/
def Obligations.LocateFindsTheOnlySlot : Prop :=
  ∀ (cfg : Config) (b : BankId) (p : Nat), cfg.wf = true → b ∈ cfg.banks → p < cfg.ports b →
    ∃ k e, locate cfg b p = some (k, p - e.start) ∧ cfg.entry? b k = some e
      ∧ e.start ≤ p ∧ p < e.start + e.count
      ∧ (∀ k' e', cfg.entry? b k' = some e' → e'.start ≤ p → p < e'.start + e'.count → k' = k)
      ∧ k = p / 4 ∧ p - e.start = p % 4

/-- `ROUTE` finds the one bank whose range holds a global port and the local port there; with two 16-port banks, ports
0..15 are bank 1's, 16..31 bank 2's, and no bank holds a port from 32 on (42_bank_mux.md R202). -/
def Obligations.RouteFindsTheHoldingBank : Prop :=
  ∀ (cfg : Config) (gp : Nat), cfg.wf = true →
    (∀ b p, route cfg gp = some (b, p) ↔ b ∈ cfg.banks ∧ b.base ≤ gp ∧ gp < b.base + cfg.ports b ∧ p = gp - b.base)
      ∧ (cfg.variant = .A → cfg.ports .one = 16 → cfg.ports .two = 16 →
        route cfg gp =
          if gp < 16 then some (.one, gp) else if gp < 32 then some (.two, gp - 16) else none)

/-- The control bits of a register are the bits of the writable features of the slots in use of its entry; every other
bit is a status bit (10_state.md R45). -/
def Obligations.ControlBitsAreThoseOfWritableFeatures : Prop :=
  ∀ (cfg : Config) (b : BankId) (sel : Selector) (j : Nat), cfg.wf = true → b ∈ cfg.banks →
    ((cfg.ctrlMask b sel).getLsbD j = true ↔
      ∃ k e slot f, cfg.entry? b k = some e ∧ e.sel = sel ∧ slot < e.count ∧ (cfg.info f).writable = true
        ∧ j = 4 * slot + (cfg.info f).off.toNat)

/-- The `STATUS` codes (30_encoding.md R122). -/
def Obligations.StatusCodesAreTheSpecs : Prop :=
  Status.code .ok = 0 ∧ Status.code .transportError = 1 ∧ Status.code .invalidSelector = 2
    ∧ Status.code .unsupportedOperation = 3 ∧ Status.code .parseError = 4 ∧ Status.code .invalidCommand = 5

/-! ### The peer device -/

/-- A successful read returns every known control bit at its value and every other bit as the device chooses, in
logical form; it changes no `CTRL` (10_state.md R46, R47). -/
def Obligations.ReadReturnsKnownControlBits : Prop :=
  ∀ (s : State) (b : BankId) (sel : Selector) (draw : RegWord), s.reply = .ok draw →
    ∃ wire, (s.memRead b sel).1 = .ok wire ∧ SamePeers s (s.memRead b sel).2
      ∧ ∀ j, (transform s.cfg wire).getLsbD j =
        if (s.ctrl b sel).known.getLsbD j ∧ (s.cfg.ctrlMask b sel).getLsbD j then (s.ctrl b sel).value.getLsbD j
        else (transform s.cfg draw).getLsbD j

/-- A successful write sets every control bit of its register to the bit of the word's logical form, and changes no
other register (10_state.md R46, 20_memory.md R87). -/
def Obligations.WriteSetsControlBits : Prop :=
  ∀ (s : State) (b : BankId) (sel : Selector) (v draw : RegWord), MemoryOk s → s.reply = .ok draw →
    (s.memWrite b sel v).1 = .ok () ∧ SamePeersBut b sel s (s.memWrite b sel v).2
      ∧ ∀ j, (((s.memWrite b sel v).2.ctrl b sel).known.getLsbD j = (s.cfg.ctrlMask b sel).getLsbD j)
        ∧ ((s.cfg.ctrlMask b sel).getLsbD j = true →
          ((s.memWrite b sel v).2.ctrl b sel).value.getLsbD j = (transform s.cfg v).getLsbD j)

/-- A failed write makes every control bit of its register UNKNOWN; a failed read changes no `CTRL` (10_state.md R48). -/
def Obligations.FailedWriteForgetsControlBits : Prop :=
  ∀ (s : State) (b : BankId) (sel : Selector) (v : RegWord) (low : BitVec 31), MemoryOk s → s.reply = .fail low →
    (s.memWrite b sel v).1 = .error (negativeStatus low) ∧ (s.memWrite b sel v).2.ctrl b sel = CtrlWord.unknown
      ∧ SamePeersBut b sel s (s.memWrite b sel v).2
      ∧ (s.memRead b sel).1 = .error (negativeStatus low) ∧ SamePeers s (s.memRead b sel).2

/-! ### What every step of a command leaves alone -/

/-- Frame of all ten commands: a step of one leaves the configuration, the attached banks, the inputs, every other
caller and every other caller's locks alone (10_state.md R30, R52; 60_exceptions.md R244). -/
def Obligations.StepOfACommandLeavesTheRestAlone : Prop :=
  ∀ (i : Instr) (s t : State), exec i s = .next t →
    SameOutside s t ∧ ∀ b c, c ≠ s.cur → (t.lock b = some c ↔ s.lock b = some c)

/-- A step of a command makes at most one transaction, and only the register that a write of it names may retain
something else (00_scope.md R6, 20_memory.md R72, R81, R87). -/
def Obligations.StepOfACommandIsAtMostOneTransaction : Prop :=
  ∀ (i : Instr) (s t : State), exec i s = .next t →
    (t.log = s.log ∧ SamePeers s t ∧ t.bus = s.bus ∧ t.drawn = s.drawn) ∨
    ∃ x, t.log = x :: s.log ∧
      match x with
      | .read _ _ _ => SamePeers s t
      | .readFailed _ _ _ => SamePeers s t
      | .write b sel _ => SamePeersBut b sel s t
      | .writeFailed b sel _ _ => SamePeersBut b sel s t

/-- The register and the kind of every transaction: `rdw` reads and `wrw` writes the register of its operands, mask
commands access the register their record stands at, port commands the register of their port; `getm`, `getp`, `mgetm`
and `mgetp` never write, and what is written is the wire form of the command's word or of `WBUF` (20_memory.md R71;
40_transport.md R145, R146; 41_transcode.md R161, R171, R180, R181, R185; 42_bank_mux.md R204 to R206, R210). -/
def Obligations.CommandsReachOnlyTheirRegisters : Prop :=
  ∀ (i : Instr) (s t : State) (x : Transaction), exec i s = .next t → t.log = x :: s.log →
    match i with
    | .rdw bank sel => ∃ b, bankOf s.cfg bank = some b ∧ x.reads b sel
    | .wrw bank sel word => ∃ b w, bankOf s.cfg bank = some b ∧ x.writes b sel w
        ∧ (s.record.place = .start ∨ s.record.place = .lock → w = transform s.cfg word)
        ∧ (s.record.place = .write → w = transform s.cfg s.record.wbuf)
    | .getm bank feat => ∃ b f sel, bankOf s.cfg bank = some b ∧ featureOf feat = some f
        ∧ currentRegister s.cfg [b] (s.dueRecord (readMask s.cfg f [b] fun _ => 0)) = some (b, sel) ∧ x.reads b sel
    | .setm bank feat mask => ∃ b f sel r, bankOf s.cfg bank = some b ∧ featureOf feat = some f
        ∧ r = s.dueRecord (writeMask s.cfg f [b] (fun _ => 0) mask) ∧ currentRegister s.cfg [b] r = some (b, sel)
        ∧ r.accesses s.cfg x b sel
    | .getp bank _ port => ∃ b sel, bankOf s.cfg bank = some b ∧ portRegister s.cfg b port.toNat = some (b, sel)
        ∧ x.reads b sel
    | .setp bank feat port v => ∃ b f sel, bankOf s.cfg bank = some b ∧ featureOf feat = some f
        ∧ portRegister s.cfg b port.toNat = some (b, sel)
        ∧ (s.dueRecord (writePort s.cfg f b port.toNat v)).accesses s.cfg x b sel
    | .mgetm feat => ∃ f b sel, featureOf feat = some f
        ∧ currentRegister s.cfg s.cfg.banks (s.dueRecord (readMask s.cfg f s.cfg.banks BankId.base)) = some (b, sel)
        ∧ x.reads b sel
    | .msetm feat mask => ∃ f b sel r, featureOf feat = some f
        ∧ r = s.dueRecord (writeMask s.cfg f s.cfg.banks BankId.base mask)
        ∧ currentRegister s.cfg s.cfg.banks r = some (b, sel) ∧ r.accesses s.cfg x b sel
    | .mgetp _ gport => ∃ b p sel, route s.cfg gport.toNat = some (b, p) ∧ portRegister s.cfg b p = some (b, sel)
        ∧ x.reads b sel
    | .msetp feat gport v => ∃ f b p sel, featureOf feat = some f ∧ route s.cfg gport.toNat = some (b, p)
        ∧ portRegister s.cfg b p = some (b, sel) ∧ (s.dueRecord (writePort s.cfg f b p v)).accesses s.cfg x b sel

/-! ### Errors -/

/-- INVALID_SELECTOR: a bank, feature, local port or global port outside the declared range, before any bus access
(60_exceptions.md R232). -/
def Obligations.OutOfRangeSelectorsAreRejected : Prop :=
  ∀ (s : State) (bank : BitVec 2) (feat : BitVec 4) (idx : BitVec 8) (word : BitVec 16) (mask : BitVec 32) (v : Bool),
    s.record.place = .start →
    (s.raise .invalidSelector).log = s.log ∧
    (¬ (1 ≤ bank.toNat ∧ bank.toNat ≤ s.cfg.banks.length) →
      ∀ i ∈ [Instr.rdw bank idx, .wrw bank idx word, .getm bank feat, .setm bank feat mask, .getp bank feat idx,
          .setp bank feat idx v], exec i s = .next (s.raise .invalidSelector)) ∧
    (3 < feat.toNat →
      ∀ i ∈ [Instr.getm bank feat, .setm bank feat mask, .getp bank feat idx, .setp bank feat idx v, .mgetm feat,
          .msetm feat mask, .mgetp feat idx, .msetp feat idx v], exec i s = .next (s.raise .invalidSelector)) ∧
    (∀ b, bankOf s.cfg bank = some b → s.cfg.ports b ≤ idx.toNat →
      ∀ i ∈ [Instr.getp bank feat idx, .setp bank feat idx v], exec i s = .next (s.raise .invalidSelector)) ∧
    ((∀ b ∈ s.cfg.banks, ¬ (b.base ≤ idx.toNat ∧ idx.toNat < b.base + s.cfg.ports b)) →
      ∀ i ∈ [Instr.mgetp feat idx, .msetp feat idx v], exec i s = .next (s.raise .invalidSelector))

/-- UNSUPPORTED_OPERATION: a write command whose selectors pass, on a feature that is not writable, before any bus
access (60_exceptions.md R234, R236). -/
def Obligations.ReadOnlyFeaturesAreNotWritten : Prop :=
  ∀ (s : State) (bank : BitVec 2) (feat : BitVec 4) (idx : BitVec 8) (mask : BitVec 32) (v : Bool) (b : BankId)
    (f : Feature),
    s.record.place = .start → bankOf s.cfg bank = some b → featureOf feat = some f →
    (s.cfg.info f).writable = false →
    (s.raise .unsupportedOperation).log = s.log ∧
    exec (.setm bank feat mask) s = .next (s.raise .unsupportedOperation) ∧
    exec (.msetm feat mask) s = .next (s.raise .unsupportedOperation) ∧
    (idx.toNat < s.cfg.ports b → exec (.setp bank feat idx v) s = .next (s.raise .unsupportedOperation)) ∧
    (∀ b' p, route s.cfg idx.toNat = some (b', p) →
      exec (.msetp feat idx v) s = .next (s.raise .unsupportedOperation))

/-- A rejected command ends at once: its response holds the code and nothing else, its record is IDLE, its locks are
released, and registers, bus and other callers stay as they were (00_scope.md R16; 60_exceptions.md R230, R238). -/
def Obligations.RejectionChangesOnlyTheResponse : Prop :=
  ∀ (s : State) (e : Status),
    Ended s (s.raise e) ⟨e, none, none, none, none, none⟩ ∧ SameOutside s (s.raise e) ∧ SamePeers s (s.raise e)
      ∧ (s.raise e).bus = s.bus ∧ (s.raise e).drawn = s.drawn ∧ (s.raise e).log = s.log

/-- A transaction that fails ends its command with TRANSPORT_ERROR, the failing bank, its address, the selector and the
status verbatim, no result and no further transaction (60_exceptions.md R235, R237; 40_transport.md R141, R142, R146). -/
def Obligations.FailedTransactionEndsTheCommand : Prop :=
  ∀ (i : Instr) (s : State) (p : Plan) (b : BankId) (sel : Selector) (low : BitVec 31),
    Due s i p → p.target (s.dueRecord p) = some (b, sel) →
    (s.dueRecord p).place = .read ∨ (s.dueRecord p).place = .write → s.reply = .fail low →
    ∃ t, exec i s = .next t
      ∧ Ended s t ⟨.transportError, none, some b.number, some (s.cfg.addr b), some sel, some (negativeStatus low)⟩
      ∧ (negativeStatus low).toInt < 0 ∧ SameOutside s t ∧ SamePeersBut b sel s t
      ∧ ((s.dueRecord p).place = .read → t.log = .readFailed b sel (negativeStatus low) :: s.log ∧ SamePeers s t)
      ∧ ((s.dueRecord p).place = .write →
        t.log = .writeFailed b sel (transform s.cfg (s.dueRecord p).wbuf) (negativeStatus low) :: s.log)

/-- A command whose checks pass waits while another caller holds a lock it takes: no transaction, no response, no
register changed; it may take locks that are FREE, none that another caller holds (10_state.md R52; log 9). -/
def Obligations.CommandWaitsForItsLocks : Prop :=
  ∀ (i : Instr) (s : State) (p : Plan),
    planOf i s.cfg = .ok p → s.record.place = .start ∨ s.record.place = .lock → ¬ s.locksFree p.locks →
    ∃ t, exec i s = .next t ∧ SameOutside s t ∧ SamePeers s t ∧ t.log = s.log ∧ t.bus = s.bus ∧ t.drawn = s.drawn
      ∧ t.response = s.response ∧ t.record.place = .lock ∧ t.record.phase = .busy ∧ t.record.cmd = s.record.cmd
      ∧ t.record.data = s.record.data
      ∧ ∀ b, t.lock b = s.lock b ∨ s.lock b = none ∧ b ∈ p.locks ∧ t.lock b = some s.cur

/-! ### Commands: what a step answers -/

/-- `READ_WORD` returns the logical word of its register (40_transport.md R140, R141). -/
def Obligations.ReadWordAnswersTheLogicalWord : Prop :=
  ∀ (s : State) (bank : BitVec 2) (sel : Selector) (b : BankId) (draw : RegWord),
    s.record.place = .start ∨ s.record.place = .lock → bankOf s.cfg bank = some b → s.locksFree [b] →
    s.reply = .ok draw →
    ∃ t, exec (.rdw bank sel) s = .next t
      ∧ Ended s t ⟨.ok, some ((transform s.cfg (s.wireWord b sel draw)).setWidth 32), none, none, none, none⟩
      ∧ SameOutside s t ∧ SamePeers s t ∧ t.log = .read b sel (s.wireWord b sel draw) :: s.log

/-- `WRITE_WORD` puts the word's wire form on the bus, with no read first and no writability check, sets the register's
control bits, and answers 0 (40_transport.md R145, R146; 20_memory.md R91). -/
def Obligations.WriteWordSetsTheRegister : Prop :=
  ∀ (s : State) (bank : BitVec 2) (sel : Selector) (word draw : RegWord) (b : BankId), MemoryOk s →
    s.record.place = .start ∨ s.record.place = .lock → bankOf s.cfg bank = some b → s.locksFree [b] →
    s.reply = .ok draw →
    ∃ t, exec (.wrw bank sel word) s = .next t ∧ Ended s t ⟨.ok, some 0, none, none, none, none⟩
      ∧ SameOutside s t ∧ t.log = .write b sel (transform s.cfg word) :: s.log
      ∧ t.ctrl b sel = ⟨s.cfg.ctrlMask b sel, word &&& s.cfg.ctrlMask b sel⟩ ∧ SamePeersBut b sel s t

/-- A word written and then read back agrees with itself on every control bit (40_transport.md R147). -/
def Obligations.WrittenWordReadsBack : Prop :=
  ∀ (s t u : State) (bank : BitVec 2) (sel : Selector) (word : RegWord) (x r : Word32), MemoryOk s →
    s.record.place = .start →
    exec (.wrw bank sel word) s = .next t → t.response = some (Response.done x) → t.record = InFlight.idle →
    exec (.rdw bank sel) t = .next u → u.response = some (Response.done r) → u.record = InFlight.idle →
    ∃ b, bankOf s.cfg bank = some b ∧
      ∀ j, (s.cfg.ctrlMask b sel).getLsbD j = true → r.getLsbD j = word.getLsbD j

/-- `GET_PORT` and `MUX_GET_PORT` answer the presented bit of the port, from one read of its register
(41_transcode.md R180, 42_bank_mux.md R215). -/
def Obligations.GetPortAnswersThePresentedBit : Prop :=
  ∀ (i : Instr) (s : State) (f : Feature) (b : BankId) (p k slot : Nat) (e : Entry) (draw : RegWord),
    ReadsPort s.cfg f b p i → s.record.place = .start ∨ s.record.place = .lock →
    locate s.cfg b p = some (k, slot) → s.cfg.entry? b k = some e → s.locksFree [b] → s.reply = .ok draw →
    ∃ t, exec i s = .next t
      ∧ Ended s t (Response.done (if presentBit (s.cfg.info f).pol
          ((s.logicalWord b e.sel draw).getLsbD (4 * slot + (s.cfg.info f).off.toNat)) then 1 else 0))
      ∧ SameOutside s t ∧ SamePeers s t ∧ t.log = .read b e.sel (s.wireWord b e.sel draw) :: s.log

/-- `SET_PORT` and `MUX_SET_PORT` first read the port's register and set the port's bit in the word read; no register
changes yet (41_transcode.md R185, 42_bank_mux.md R220). -/
def Obligations.SetPortReadsItsRegister : Prop :=
  ∀ (i : Instr) (s : State) (f : Feature) (b : BankId) (p k slot : Nat) (v : Bool) (e : Entry) (draw : RegWord),
    WritesPort s.cfg f b p v i → s.record.place = .start ∨ s.record.place = .lock →
    locate s.cfg b p = some (k, slot) → s.cfg.entry? b k = some e → s.locksFree [b] → s.reply = .ok draw →
    ∃ t r, exec i s = .next t ∧ Goes s t r ∧ r.phase = .busy ∧ r.place = .write
      ∧ r.cmd = s.record.cmd ∧ r.data = s.record.data
      ∧ (∀ j, r.wbuf.getLsbD j =
        if j = 4 * slot + (s.cfg.info f).off.toNat ∧ j < 16 then presentBit (s.cfg.info f).pol v
        else (s.logicalWord b e.sel draw).getLsbD j)
      ∧ SameOutside s t ∧ SamePeers s t ∧ t.log = .read b e.sel (s.wireWord b e.sel draw) :: s.log

/-- `SET_PORT` and `MUX_SET_PORT` then write the buffered word, whatever the register has become, and answer 0; no other
register changes (41_transcode.md R185, 42_bank_mux.md R220; 70_reset_and_hazards.md R281). -/
def Obligations.SetPortWritesItsRegister : Prop :=
  ∀ (i : Instr) (s : State) (f : Feature) (b : BankId) (p k slot : Nat) (v : Bool) (e : Entry) (draw : RegWord),
    MemoryOk s → WritesPort s.cfg f b p v i → s.record.place = .write → s.record.phase = .busy →
    locate s.cfg b p = some (k, slot) →
    s.cfg.entry? b k = some e → s.reply = .ok draw →
    ∃ t, exec i s = .next t ∧ Ended s t (Response.done 0) ∧ SameOutside s t
      ∧ t.log = .write b e.sel (transform s.cfg s.record.wbuf) :: s.log
      ∧ t.ctrl b e.sel = ⟨s.cfg.ctrlMask b e.sel, s.record.wbuf &&& s.cfg.ctrlMask b e.sel⟩
      ∧ SamePeersBut b e.sel s t

/-- A read of `GET_MASK` or `MUX_GET_MASK`: the register's slots go into the accumulator; then the next register, the
next bank, or the answer (41_transcode.md R161, 42_bank_mux.md R205). -/
def Obligations.GetMaskReadsRegisterByRegister : Prop :=
  ∀ (i : Instr) (s : State) (f : Feature) (visit : List BankId) (shift : BankId → Nat) (r : InFlight) (e : Entry)
    (draw : RegWord) (acc g : Word32),
    ReadsMask s.cfg f visit shift i → Due s i (readMask s.cfg f visit shift) →
    r = s.dueRecord (readMask s.cfg f visit shift) → r.place = .read → r.b ∈ visit →
    s.cfg.entry? r.b r.k = some e → s.reply = .ok draw →
    acc = gather (s.cfg.info f).off e.start (s.logicalWord r.b e.sel draw) e.count r.acc →
    g = r.g ||| present (s.cfg.info f).pol acc (s.cfg.ports r.b) <<< shift r.b →
    ∃ t, exec i s = .next t ∧ SameOutside s t ∧ SamePeers s t
      ∧ t.log = .read r.b e.sel (s.wireWord r.b e.sel draw) :: s.log
      ∧ (r.k + 1 < s.cfg.nreg r.b →
        Goes s t { r with k := r.k + 1, acc := acc, wbuf := s.logicalWord r.b e.sel draw })
      ∧ (s.cfg.nreg r.b ≤ r.k + 1 → ∀ b, nextBank visit r.b = some b →
        Goes s t { r with b := b, k := 0, acc := 0, g := g, wbuf := s.logicalWord r.b e.sel draw })
      ∧ (s.cfg.nreg r.b ≤ r.k + 1 → nextBank visit r.b = none → Ended s t (Response.done g))

/-- A read of `SET_MASK` or `MUX_SET_MASK`: the accumulator's bits go into the register's slots, and the write of the
same register is next (41_transcode.md R171, R174; 42_bank_mux.md R210). -/
def Obligations.SetMaskReadsRegister : Prop :=
  ∀ (i : Instr) (s : State) (f : Feature) (visit : List BankId) (shift : BankId → Nat) (mask : Word32) (r : InFlight)
    (e : Entry) (draw : RegWord),
    WritesMask s.cfg f visit shift mask i → Due s i (writeMask s.cfg f visit shift mask) →
    r = s.dueRecord (writeMask s.cfg f visit shift mask) → r.place = .read → r.b ∈ visit →
    s.cfg.entry? r.b r.k = some e → e.count ≤ 4 → s.reply = .ok draw →
    ∃ t w, exec i s = .next t ∧ SameOutside s t ∧ SamePeers s t
      ∧ t.log = .read r.b e.sel (s.wireWord r.b e.sel draw) :: s.log
      ∧ Goes s t { r with wbuf := w, place := .write }
      ∧ (∀ slot, slot < e.count →
        w.getLsbD (4 * slot + (s.cfg.info f).off.toNat) = r.acc.getLsbD (e.start + slot))
      ∧ ∀ j, (∀ slot, slot < e.count → j ≠ 4 * slot + (s.cfg.info f).off.toNat) →
        w.getLsbD j = (s.logicalWord r.b e.sel draw).getLsbD j

/-- A write of `SET_MASK` or `MUX_SET_MASK`: the buffered word goes to the register just read; then the next register,
the next bank with its part of the mask, or the answer 0 (41_transcode.md R171, R175; 42_bank_mux.md R210). -/
def Obligations.SetMaskWritesRegister : Prop :=
  ∀ (i : Instr) (s : State) (f : Feature) (visit : List BankId) (shift : BankId → Nat) (mask : Word32) (e : Entry)
    (draw : RegWord), MemoryOk s →
    WritesMask s.cfg f visit shift mask i → s.record.place = .write → s.record.phase = .busy → s.record.b ∈ visit →
    s.cfg.entry? s.record.b s.record.k = some e → s.reply = .ok draw →
    ∃ t, exec i s = .next t ∧ SameOutside s t
      ∧ t.log = .write s.record.b e.sel (transform s.cfg s.record.wbuf) :: s.log
      ∧ t.ctrl s.record.b e.sel =
        ⟨s.cfg.ctrlMask s.record.b e.sel, s.record.wbuf &&& s.cfg.ctrlMask s.record.b e.sel⟩
      ∧ SamePeersBut s.record.b e.sel s t
      ∧ (s.record.k + 1 < s.cfg.nreg s.record.b →
        Goes s t { s.record with k := s.record.k + 1, place := .read })
      ∧ (s.cfg.nreg s.record.b ≤ s.record.k + 1 → ∀ b, nextBank visit s.record.b = some b →
        Goes s t
          { s.record with
            b := b, k := 0, place := .read,
            acc := present (s.cfg.info f).pol (mask >>> shift b &&& ones (s.cfg.ports b)) (s.cfg.ports b) })
      ∧ (s.cfg.nreg s.record.b ≤ s.record.k + 1 → nextBank visit s.record.b = none → Ended s t (Response.done 0))

/-! ### Commands run with nobody else in between -/

/-- `GET_MASK` and `MUX_GET_MASK` alone, no transaction failing: one read of every register in order, then the
presented mask, bit by bit, with 0 outside the banks' ports (41_transcode.md R160, R161, R164; 42_bank_mux.md R205;
70_reset_and_hazards.md R285). -/
def Obligations.GetMaskAnswersThePresentedMask : Prop :=
  ∀ (i : Instr) (s : State) (f : Feature) (visit : List BankId) (shift : BankId → Nat) (draws : List RegWord),
    s.cfg.wf = true → ReadsMask s.cfg f visit shift i → s.record.place = .start ∨ s.record.place = .lock →
    s.locksFree visit →
    s.answers draws → draws.length = (registersOf s.cfg visit).length →
    ∃ t r, runAlone i draws.length s = .next t ∧ Ended s t (Response.done r) ∧ SameOutside s t ∧ SamePeers s t
      ∧ t.log = (((registersOf s.cfg visit).zip draws).map fun x =>
          Transaction.read x.1.1 x.1.2 (s.wireWord x.1.1 x.1.2 x.2)).reverse ++ s.log
      ∧ (∀ b e slot draw, b ∈ visit → e ∈ s.cfg.entries b → slot < e.count →
        ((b, e.sel), draw) ∈ (registersOf s.cfg visit).zip draws →
        r.getLsbD (shift b + (e.start + slot)) = presentBit (s.cfg.info f).pol
          ((s.logicalWord b e.sel draw).getLsbD (4 * slot + (s.cfg.info f).off.toNat)))
      ∧ ∀ j, (∀ b ∈ visit, j < shift b ∨ shift b + s.cfg.ports b ≤ j) → r.getLsbD j = false

/-- `SET_MASK` and `MUX_SET_MASK` alone, no transaction failing: every register is read and written back, in order; each
port's bit of a word written is the hardware value of its presented bit, every other bit is the bit read, and no other
register changes (41_transcode.md R170, R171, R174, R175; 42_bank_mux.md R210; 70_reset_and_hazards.md R285). -/
def Obligations.SetMaskWritesThePresentedMask : Prop :=
  ∀ (i : Instr) (s : State) (f : Feature) (visit : List BankId) (shift : BankId → Nat) (mask : Word32)
    (draws : List (RegWord × RegWord)), s.cfg.wf = true → MemoryOk s → WritesMask s.cfg f visit shift mask i →
    s.record.place = .start ∨ s.record.place = .lock →
    s.locksFree visit →
    s.answers (draws.flatMap fun d => [d.1, d.2]) → draws.length = (registersOf s.cfg visit).length →
    ∃ t words, runAlone i (2 * draws.length) s = .next t ∧ Ended s t (Response.done 0) ∧ SameOutside s t
      ∧ words.length = draws.length
      ∧ t.log = (((registersOf s.cfg visit).zip (draws.zip words)).flatMap fun x =>
          [Transaction.read x.1.1 x.1.2 (s.wireWord x.1.1 x.1.2 x.2.1.1),
            Transaction.write x.1.1 x.1.2 (transform s.cfg x.2.2)]).reverse ++ s.log
      ∧ (∀ b sel, (b, sel) ∉ registersOf s.cfg visit → t.ctrl b sel = s.ctrl b sel)
      ∧ ∀ b e draw w, b ∈ visit → e ∈ s.cfg.entries b →
        ((b, e.sel), draw, w) ∈ (registersOf s.cfg visit).zip (draws.zip words) →
        t.ctrl b e.sel = ⟨s.cfg.ctrlMask b e.sel, w &&& s.cfg.ctrlMask b e.sel⟩
          ∧ (∀ slot, slot < e.count → w.getLsbD (4 * slot + (s.cfg.info f).off.toNat) =
            presentBit (s.cfg.info f).pol (mask.getLsbD (shift b + (e.start + slot))))
          ∧ ∀ j, (∀ slot, slot < e.count → j ≠ 4 * slot + (s.cfg.info f).off.toNat) →
            w.getLsbD j = (s.logicalWord b e.sel draw.1).getLsbD j

/-- Polarity symmetry: after a `SET_MASK` that returned OK, a `GET_MASK` that returns OK returns the mask, provided
nobody wrote the bank's registers in between (41_transcode.md R190). Each command runs with no one else's step inside
it. -/
def Obligations.SetMaskThenGetMaskRoundTrips : Prop :=
  ∀ (s t t' u : State) (bank : BitVec 2) (feat : BitVec 4) (mask x r : Word32) (b : BankId) (n m : Nat),
    s.cfg.wf = true → MemoryOk s → bankOf s.cfg bank = some b → s.record.place = .start →
    0 < n → runAlone (.setm bank feat mask) n s = .next t → t.record = InFlight.idle →
    t.response = some (Response.done x) →
    t'.cfg = t.cfg → (∀ e ∈ t.cfg.entries b, t'.ctrl b e.sel = t.ctrl b e.sel) → t'.record.place = .start →
    0 < m → runAlone (.getm bank feat) m t' = .next u → u.record = InFlight.idle →
    u.response = some (Response.done r) →
    r = mask &&& ones (s.cfg.ports b)

/-- Isolation of `SET_PORT` and `MUX_SET_PORT`: a write that returned OK gives its port's control bit the hardware value
of `v`, and leaves every other control bit that was known as it was, in every bank (41_transcode.md R185, R191;
42_bank_mux.md R220). -/
def Obligations.SetPortIsolatesItsBit : Prop :=
  ∀ (i : Instr) (s t : State) (f : Feature) (b : BankId) (p : Nat) (v : Bool) (x : Word32) (n : Nat),
    s.cfg.wf = true → MemoryOk s → WritesPort s.cfg f b p v i → s.record.place = .start →
    0 < n → runAlone i n s = .next t → t.record = InFlight.idle → t.response = some (Response.done x) →
    t.ctrlBit b f p = some (presentBit (s.cfg.info f).pol v) ∧
    ∀ b' g q y, b' ∈ s.cfg.banks → (s.cfg.info g).writable = true → (b', g, q) ≠ (b, f, p) →
      s.ctrlBit b' g q = some y → t.ctrlBit b' g q = some y

/-- Isolation of `SET_MASK` and `MUX_SET_MASK`: a write that returned OK gives every port's control bit of its feature
the hardware value of the mask's bit, and leaves the known control bits of every other feature as they were
(41_transcode.md R174, R191; 42_bank_mux.md R210). -/
def Obligations.SetMaskIsolatesItsFeature : Prop :=
  ∀ (i : Instr) (s t : State) (f : Feature) (visit : List BankId) (shift : BankId → Nat) (mask x : Word32) (n : Nat),
    s.cfg.wf = true → MemoryOk s → WritesMask s.cfg f visit shift mask i → s.record.place = .start →
    0 < n → runAlone i n s = .next t → t.record = InFlight.idle → t.response = some (Response.done x) →
    (∀ b p, b ∈ visit → p < s.cfg.ports b →
      t.ctrlBit b f p = some (presentBit (s.cfg.info f).pol (mask.getLsbD (shift b + p)))) ∧
    ∀ b g q y, b ∈ s.cfg.banks → (s.cfg.info g).writable = true → g ≠ f →
      s.ctrlBit b g q = some y → t.ctrlBit b g q = some y

/-- Partial application: when `SET_MASK` or `MUX_SET_MASK` ends with TRANSPORT_ERROR, the registers before the one it
names are written with the mask, that one is written or not as a failed write admits, the registers after it and every
other register retain what they did (41_transcode.md R173, 42_bank_mux.md R211; 70_reset_and_hazards.md R280). -/
def Obligations.FailedSetMaskIsAppliedInPart : Prop :=
  ∀ (i : Instr) (s t : State) (f : Feature) (visit : List BankId) (shift : BankId → Nat) (mask : Word32) (b : BankId)
    (n : Nat) (sel : Selector) (st : Word32),
    s.cfg.wf = true → MemoryOk s → WritesMask s.cfg f visit shift mask i → s.record.place = .start →
    0 < n → runAlone i n s = .next t → t.record = InFlight.idle →
    t.response = some (Response.transport s.cfg b sel st) →
    ∃ k e, b ∈ visit ∧ s.cfg.entry? b k = some e ∧ e.sel = sel
      ∧ (∀ b' k' e', b' ∈ visit → s.cfg.entry? b' k' = some e' →
        b'.number.toNat < b.number.toNat ∨ b' = b ∧ k' < k →
        (t.ctrl b' e'.sel).known = s.cfg.ctrlMask b' e'.sel
          ∧ (∀ slot, slot < e'.count → (t.ctrl b' e'.sel).value.getLsbD (4 * slot + (s.cfg.info f).off.toNat) =
            presentBit (s.cfg.info f).pol (mask.getLsbD (shift b' + (e'.start + slot))))
          ∧ ∀ j, (∀ slot, slot < e'.count → j ≠ 4 * slot + (s.cfg.info f).off.toNat) →
            (s.ctrl b' e'.sel).known.getLsbD j = true →
            (t.ctrl b' e'.sel).value.getLsbD j = (s.ctrl b' e'.sel).value.getLsbD j)
      ∧ (t.ctrl b sel = s.ctrl b sel ∨ t.ctrl b sel = CtrlWord.unknown)
      ∧ (∀ b' k' e', b' ∈ visit → s.cfg.entry? b' k' = some e' →
        b.number.toNat < b'.number.toNat ∨ b' = b ∧ k < k' → t.ctrl b' e'.sel = s.ctrl b' e'.sel)
      ∧ ∀ b' sel', (b', sel') ∉ registersOf s.cfg visit → t.ctrl b' sel' = s.ctrl b' sel'

/-- Every command whose checks pass and whose locks are free ends when it runs alone, within 16 steps whatever the peer
devices answer, with OK or TRANSPORT_ERROR (70_reset_and_hazards.md R276, R286). -/
def Obligations.EveryCommandAloneEnds : Prop :=
  ∀ (i : Instr) (s : State) (p : Plan), s.cfg.wf = true → s.record.place = .start ∨ s.record.place = .lock →
    planOf i s.cfg = .ok p → s.locksFree p.locks →
    ∃ t r, runAlone i 16 s = .next t ∧ Ended s t r ∧ (r.status = .ok ∨ r.status = .transportError)

/-! ### The multiplexer -/

/-- In variant B every `MUX_*` command is its bank-level command on bank 1 (42_bank_mux.md R225). -/
def Obligations.VariantBMuxIsBankOne : Prop :=
  ∀ (s : State) (feat : BitVec 4) (gport : BitVec 8) (mask : Word32) (v : Bool), s.cfg.variant = .B →
    exec (.mgetm feat) s = exec (.getm 1 feat) s ∧ exec (.msetm feat mask) s = exec (.setm 1 feat mask) s
      ∧ exec (.mgetp feat gport) s = exec (.getp 1 feat gport) s
      ∧ exec (.msetp feat gport v) s = exec (.setp 1 feat gport v) s
      ∧ (s.cfg.wf = true → s.record.place = .start → 4 ≤ gport.toNat →
        exec (.mgetp feat gport) s = .next (s.raise .invalidSelector)
          ∧ exec (.msetp feat gport v) s = .next (s.raise .invalidSelector))

/-- A `MUX_*` port command is the bank-level command on the bank and local port its global port is routed to
(42_bank_mux.md R215, R220). -/
def Obligations.MuxPortIsTheRoutedPort : Prop :=
  ∀ (s : State) (feat : BitVec 4) (gport port : BitVec 8) (v : Bool) (b : BankId),
    route s.cfg gport.toNat = some (b, port.toNat) →
    exec (.mgetp feat gport) s = exec (.getp b.number feat port) s
      ∧ exec (.msetp feat gport v) s = exec (.setp b.number feat port v) s

/-! ### Invariants -/

/-- The machine just after construction has the values of 10_state.md R53, no response (log 3), and meets every
invariant; so does `State.reset`, whose configuration is the model's choice (log 1). -/
def Obligations.ConstructionMeetsTheInvariants : Prop :=
  (∀ cfg : Config, cfg.wf = true → RunInv (State.constructed cfg) ∧ MemoryOk (State.constructed cfg)
      ∧ ResponsesOk (State.constructed cfg) ∧ (State.constructed cfg).cfg = cfg
      ∧ (∀ c, ((State.constructed cfg).caller c).inFlight.phase = .idle)
      ∧ (∀ b, (State.constructed cfg).lock b = none)
      ∧ (∀ b sel, (State.constructed cfg).ctrl b sel = CtrlWord.unknown)
      ∧ ∀ c, ((State.constructed cfg).caller c).response = none) ∧
    State.reset = State.constructed Config.refA ∧ RunInv State.reset ∧ MemoryOk State.reset ∧ ResponsesOk State.reset

/-- Every step keeps the invariant of records and locks (10_state.md R49, R52). The places of a record are the model's
own (log 19). -/
def Obligations.StepKeepsTheInvariant : Prop :=
  ∀ s t : State, RunInv s → step s = .next t → RunInv t

/-- No step from a state that meets the invariant ends in a fault. -/
def Obligations.NoFaultFromTheInvariant : Prop :=
  ∀ (s : State) (r : Fault), RunInv s → step s ≠ .fault r

/-- Every step keeps the register files canonical, and a peer device retains control bits only (10_state.md R45, R46).
The canonical form of a register file is the model's choice (log 12). -/
def Obligations.StepKeepsMemoryOk : Prop :=
  ∀ s t : State, MemoryOk s → step s = .next t → MemoryOk t

/-- Every step keeps the shape of responses (30_encoding.md R121; 60_exceptions.md R233). -/
def Obligations.StepKeepsResponsesShaped : Prop :=
  ∀ s t : State, ResponsesOk s → step s = .next t → ResponsesOk t

/-- With SERIALIZE, no other command that takes the same bank's lock is between its first transaction and its end when
a caller makes a transaction on that bank (10_state.md R52, 20_memory.md R86). -/
def Obligations.SerializedTransactionsExcludeOthers : Prop :=
  ∀ (s t : State) (x : Transaction) (b : BankId), RunInv s → s.cfg.serialize = true → step s = .next t →
    t.log = x :: s.log →
    (match x with
      | .read b' _ _ => b' = b
      | .readFailed b' _ _ => b' = b
      | .write b' _ _ => b' = b
      | .writeFailed b' _ _ _ => b' = b) →
    ∀ c, c ≠ t.cur → Running s c → ¬ Needs s c b

/-! ### Reset, attach and the command port -/

/-- Reconstruction of a block whose configuration passes the checks while every record is IDLE gives IDLE records, FREE
locks and UNKNOWN control bits, keeps the configuration, and makes no transaction (10_state.md R53;
70_reset_and_hazards.md R270, R271). -/
def Obligations.ReconstructionResetsTheBlock : Prop :=
  ∀ (s : State) (rest : List Input), s.inputs = .reset :: rest → s.anyBusy = false → s.cfg.wf = true →
    ∃ t, step s = .next t ∧ t.cfg = s.cfg ∧ (∀ c, (t.caller c).inFlight.phase = .idle) ∧ (∀ b, t.lock b = none)
      ∧ (∀ b sel, t.ctrl b sel = CtrlWord.unknown) ∧ t.log = s.log ∧ t.inputs = rest

/-- No step changes the configuration, the variant in it, or any parameter: it is bound at construction (00_scope.md R3;
10_state.md R30, R53). -/
def Obligations.NoStepChangesTheConfiguration : Prop :=
  ∀ s t : State, step s = .next t → t.cfg = s.cfg

/-- What the spec has a model refuse: a reset while a command is in progress, a construction or reconstruction whose
configuration fails the checks, a command before the block is ready, and a second command of a busy caller (10_state.md
R38; 70_reset_and_hazards.md R273, R275, R276; 93 I30 to I33). That the checks ask for the variant's descriptors and
for addresses below `2^ADDR_W` too is the model's reading (logs 15 and 16). -/
def Obligations.RefusedInputs : Prop :=
  ∀ (s : State) (rest : List Input) (cfg : Config) (c : CallerId) (cmd data : Word32),
    (s.inputs = .reset :: rest → s.anyBusy = true → step s = .refused .resetWhileBusy) ∧
    (s.inputs = .reset :: rest → s.anyBusy = false → s.cfg.wf = false → step s = .refused .badConfiguration) ∧
    (cfg.wf = false → State.construct cfg = .refused .badConfiguration) ∧
    (s.inputs = .command c cmd data :: rest → (s.cfg.wf = false ∨ ∃ b ∈ s.cfg.banks, s.attached b = false) →
      step s = .refused .notReady) ∧
    (s.inputs = .command c cmd data :: rest → s.ready = true → s.busy c = true → step s = .refused .callerBusy)

/-- Attaching the peer device of a bank at its address makes no transaction and changes nothing else
(70_reset_and_hazards.md R271, R274). That an attach is an input of the machine is the model's choice (log 4). -/
def Obligations.AttachMakesNoTransaction : Prop :=
  ∀ (s : State) (b : BankId) (rest : List Input), b ∈ s.cfg.banks →
    s.inputs = .attach b.number (s.cfg.addr b) :: rest →
    ∃ t, step s = .next t ∧ t.attached b = true ∧ (∀ b', b' ≠ b → t.attached b' = s.attached b') ∧ t.cfg = s.cfg
      ∧ t.log = s.log ∧ (∀ b', t.peer b' = s.peer b') ∧ t.callers = s.callers ∧ (∀ b', t.lock b' = s.lock b')

/-! ### Hazards -/

/-- The lost update of 70_reset_and_hazards.md R281 and 95_test_vectors.md V-HZ-1: two callers' `setp` on one register,
reads before writes; the second write undoes the first, and both callers are told OK. -/
def Obligations.LostUpdateHappens : Prop :=
  ∃ t, Host.Core.run core 4
      { State.reset with
        attached1 := true, attached2 := true
        peer1 := [(0x10, ⟨0x9999, 0⟩)]
        inputs := [.command 1 0x01000106 0, .command 2 0x01010136 0, .turn 1, .turn 2]
        bus := [.ok 0, .ok 0, .ok 0, .ok 0] } = .next t
    ∧ t.ctrl .one 0x10 = ⟨0x9999, 0⟩
    ∧ (t.caller 1).response = some (Response.done 0) ∧ (t.caller 2).response = some (Response.done 0)

/-- With SERIALIZE, caller 2 waits for the lock after its command is delivered, with one transaction on the bus, and both
updates stand; the same five inputs without SERIALIZE lose caller 1's update (10_state.md R52;
70_reset_and_hazards.md R281; 95_test_vectors.md V-HZ-1). The inputs and the places of a record are the model's own
(logs 6 and 19). -/
def Obligations.SerializedUpdatesBothStand : Prop :=
  (∃ u, Host.Core.run core 2 (hazardStart true) = .next u
      ∧ (u.caller 2).inFlight.place = .lock ∧ (u.caller 2).inFlight.phase = .busy ∧ u.lock .one = some 1
      ∧ u.log = [.read .one 0x10 0x0008]) ∧
    (∃ t, Host.Core.run core 5 (hazardStart true) = .next t
      ∧ t.ctrl .one 0x10 = ⟨0x9999, 0x0001⟩ ∧ (∀ b, t.lock b = none)
      ∧ (t.caller 1).response = some (Response.done 0) ∧ (t.caller 2).response = some (Response.done 0)) ∧
    ∃ t, Host.Core.run core 5 (hazardStart false) = .next t ∧ t.ctrl .one 0x10 = ⟨0x9999, 0x0000⟩
end

