-- ==== Sys2Proof/Laws/Bits.lean ====
section
/-! SUPPORT. Bits of the bit operations, one lemma per operation, and the loops of the read and write paths read bit by
bit. -/

namespace Sys2Proof.Machine

@[simp] theorem getLsbD_setBit {w : Nat} (v : BitVec w) (i : Nat) (x : Bool) (j : Nat) :
    (setBit v i x).getLsbD j = if j = i ∧ j < w then x else v.getLsbD j := by
  by_cases hj : j < w
  · by_cases h : j = i
    · subst h; cases x <;> simp [setBit, hj]
    · cases x <;> simp [setBit, hj, h]
  · rw [if_neg fun h => hj h.2, BitVec.getLsbD_of_ge _ _ (Nat.le_of_not_lt hj),
      BitVec.getLsbD_of_ge _ _ (Nat.le_of_not_lt hj)]

@[simp] theorem getLsbD_ones (n j : Nat) : (ones n).getLsbD j = decide (j < 32 ∧ j < n) := by
  rw [ones, BitVec.getLsbD_ofNat, Nat.testBit_two_pow_sub_one]
  simp

/-- `NSWAP` moves bit `i` to bit `i XOR 4` (20_memory.md R77). -/
theorem getLsbD_nswap (w : RegWord) (i : Nat) : (nswap w).getLsbD i = (decide (i < 16) && w.getLsbD (i ^^^ 4)) := by
  by_cases hi : i < 16
  · interval_cases i <;> simp [nswap]
  · simp [hi, BitVec.getLsbD_of_ge _ _ (Nat.le_of_not_lt hi)]

@[simp] theorem nswap_nswap (w : RegWord) : nswap (nswap w) = w := by
  apply BitVec.eq_of_getLsbD_eq
  intro i hi
  simp only [getLsbD_nswap, hi, decide_true, Bool.true_and]
  interval_cases i <;> rfl

@[simp] theorem presentBit_presentBit (pol : Polarity) (x : Bool) : presentBit pol (presentBit pol x) = x := by
  cases pol <;> simp [presentBit]

/-- `PRESENT` acts on each port's bit alone (41_transcode.md R163). -/
theorem getLsbD_present (pol : Polarity) (h : Word32) {n j : Nat} (hj : j < 32) (hn : j < n) :
    (present pol h n).getLsbD j = presentBit pol (h.getLsbD j) := by
  cases pol <;> simp [present, presentBit, hj, hn]

/-- `PRESENT` has no bit at or above `N` when its argument has none (41_transcode.md R164). -/
theorem getLsbD_present_ge (pol : Polarity) (h : Word32) {n j : Nat} (hn : n ≤ j) (hh : h.getLsbD j = false) :
    (present pol h n).getLsbD j = false := by
  cases pol <;> simp [present, hh]
  omega

/-- The loop of `READMASK` bit by bit (41_transcode.md R161). -/
theorem getLsbD_gather (off : BitVec 2) (start : Nat) (w : RegWord) (count : Nat) (acc : Word32) (j : Nat) :
    (gather off start w count acc).getLsbD j =
      if start ≤ j ∧ j < start + count ∧ j < 32 then w.getLsbD (bitPos off (j - start)) else acc.getLsbD j := by
  induction count with
  | zero => simp [gather]; omega
  | succ s ih =>
    simp only [gather, getLsbD_setBit, ih]
    by_cases h : j = start + s
    · subst h
      by_cases h32 : start + s < 32 <;> simp [h32]
    · by_cases h1 : start ≤ j ∧ j < start + s ∧ j < 32
      · rw [if_neg (by omega), if_pos h1, if_pos (by omega)]
      · rw [if_neg (by omega), if_neg h1, if_neg (by omega)]

/-- A bit position determines slot and offset (30_encoding.md R101). -/
theorem bitPos_inj {o o' : BitVec 2} {s s' : Nat} (h : bitPos o s = bitPos o' s') : o = o' ∧ s = s' := by
  have h1 := o.isLt
  have h2 := o'.isLt
  simp only [bitPos] at h
  exact ⟨BitVec.eq_of_toNat_eq (by omega), by omega⟩

/-- A slot below 4 keeps its bits below 16 (30_encoding.md R101). -/
theorem bitPos_lt {o : BitVec 2} {s : Nat} (h : s < 4) : bitPos o s < 16 := by
  have := o.isLt
  simp only [bitPos]
  omega

/-- The loop of `WRITEMASK` at a bit of a slot in use (41_transcode.md R171). -/
theorem getLsbD_scatter_slot (off : BitVec 2) (start : Nat) (acc : Word32) {count s : Nat} (w : RegWord)
    (hs : s < count) (h4 : s < 4) :
    (scatter off start acc count w).getLsbD (bitPos off s) = acc.getLsbD (start + s) := by
  induction count with
  | zero => omega
  | succ n ih =>
    simp only [scatter, getLsbD_setBit]
    by_cases h : s = n
    · subst h; simp [bitPos_lt h4]
    · rw [if_neg fun h' => h (bitPos_inj h'.1).2]
      exact ih (by omega)

/-- The loop of `WRITEMASK` at every other bit: as it was (41_transcode.md R174). -/
theorem getLsbD_scatter_other (off : BitVec 2) (start : Nat) (acc : Word32) (count : Nat) (w : RegWord) (j : Nat)
    (hj : ∀ s, s < count → j ≠ bitPos off s) :
    (scatter off start acc count w).getLsbD j = w.getLsbD j := by
  induction count with
  | zero => rfl
  | succ n ih =>
    simp only [scatter, getLsbD_setBit]
    rw [if_neg fun h => hj n (by omega) h.1]
    exact ih fun s hs => hj s (by omega)

/-- The bits of a feature in the slots in use. -/
theorem getLsbD_slotBits (off : BitVec 2) (count j : Nat) :
    (slotBits off count).getLsbD j = true ↔ j < 16 ∧ ∃ s < count, j = bitPos off s := by
  induction count with
  | zero => simp [slotBits]
  | succ n ih =>
    simp only [slotBits, getLsbD_setBit]
    by_cases h : j = bitPos off n ∧ j < 16
    · rw [if_pos h]
      exact ⟨fun _ => ⟨h.2, n, by omega, h.1⟩, fun _ => rfl⟩
    · rw [if_neg h, ih]
      constructor
      · rintro ⟨h1, s, hs, rfl⟩
        exact ⟨h1, s, by omega, rfl⟩
      · rintro ⟨h1, s, hs, rfl⟩
        refine ⟨h1, s, ?_, rfl⟩
        rcases Nat.lt_succ_iff_lt_or_eq.1 hs with h2 | rfl
        · exact h2
        · exact absurd ⟨rfl, h1⟩ h

end Sys2Proof.Machine
end

