-- ==== Sys2Proof/Laws/Layout.lean ====
section
/-! SUPPORT. What a well-formed configuration says of its entries, ports, banks and features. -/

namespace Sys2Proof

/-- The port count of a list of entries. -/
abbrev countOf (es : List Entry) : Nat := (es.map Entry.count).sum

theorem contiguousFrom_cons {n : Nat} {e : Entry} {es : List Entry} :
    contiguousFrom n (e :: es) = true ↔
      e.start = n ∧ 1 ≤ e.count ∧ e.count ≤ 4 ∧ contiguousFrom (n + e.count) es = true := by
  simp [contiguousFrom, and_assoc]

/-- Every entry of a contiguous list lies in the list's port range and has 1 to 4 slots. -/
theorem contiguousFrom_bounds {n k : Nat} {e : Entry} {es : List Entry} (h : contiguousFrom n es = true)
    (hk : es[k]? = some e) :
    n ≤ e.start ∧ e.start + e.count ≤ n + countOf es ∧ 1 ≤ e.count ∧ e.count ≤ 4 := by
  induction es generalizing n k with
  | nil => simp at hk
  | cons a es ih =>
    obtain ⟨h1, h2, h3, h4⟩ := contiguousFrom_cons.1 h
    cases k with
    | zero =>
      obtain rfl : a = e := by simpa using hk
      simp only [countOf, List.map_cons, List.sum_cons]
      omega
    | succ k =>
      have := ih h4 (by simpa using hk)
      simp only [countOf, List.map_cons, List.sum_cons] at this ⊢
      omega

/-- Entries of a contiguous list come in port order without overlap. -/
theorem contiguousFrom_lt {n k k' : Nat} {e e' : Entry} {es : List Entry} (h : contiguousFrom n es = true)
    (hk : es[k]? = some e) (hk' : es[k']? = some e') (hlt : k < k') : e.start + e.count ≤ e'.start := by
  induction es generalizing n k k' with
  | nil => simp at hk
  | cons a es ih =>
    obtain ⟨h1, -, -, h4⟩ := contiguousFrom_cons.1 h
    obtain ⟨k', rfl⟩ : ∃ m, k' = m + 1 := ⟨k' - 1, by omega⟩
    cases k with
    | zero =>
      obtain rfl : a = e := by simpa using hk
      have := (contiguousFrom_bounds h4 (by simpa using hk')).1
      omega
    | succ k => exact ih h4 (by simpa using hk) (by simpa using hk') (by omega)

/-- A port lies in at most one entry of a contiguous list. -/
theorem contiguousFrom_unique {n p k k' : Nat} {e e' : Entry} {es : List Entry} (h : contiguousFrom n es = true)
    (hk : es[k]? = some e) (hk' : es[k']? = some e') (h1 : e.start ≤ p) (h2 : p < e.start + e.count)
    (h1' : e'.start ≤ p) (h2' : p < e'.start + e'.count) : k = k' := by
  rcases lt_trichotomy k k' with hlt | heq | hlt
  · have := contiguousFrom_lt h hk hk' hlt; omega
  · exact heq
  · have := contiguousFrom_lt h hk' hk hlt; omega

namespace Machine

/-- What `LOCATE` answers is an entry of the list and the slot of `p` in it. -/
theorem locateFrom_some {p k0 k s : Nat} {es : List Entry} (h : locateFrom p es k0 = some (k, s)) :
    ∃ e, k0 ≤ k ∧ es[k - k0]? = some e ∧ e.start ≤ p ∧ p < e.start + e.count ∧ s = p - e.start := by
  induction es generalizing k0 with
  | nil => simp [locateFrom] at h
  | cons a es ih =>
    simp only [locateFrom] at h
    split_ifs at h with hp
    · obtain ⟨rfl, rfl⟩ := by simpa using h
      exact ⟨a, le_refl _, by simp, hp.1, hp.2, rfl⟩
    · obtain ⟨e, hk, he, hr⟩ := ih h
      refine ⟨e, by omega, ?_, hr⟩
      rw [show k - k0 = (k - (k0 + 1)) + 1 by omega]
      simpa using he

/-- `LOCATE` finds every port of a contiguous list. -/
theorem locateFrom_isSome {n p k0 : Nat} {es : List Entry} (h : contiguousFrom n es = true) (h1 : n ≤ p)
    (h2 : p < n + countOf es) : (locateFrom p es k0).isSome := by
  induction es generalizing n k0 with
  | nil => simp [countOf] at h2; omega
  | cons a es ih =>
    obtain ⟨hs, -, -, h4⟩ := contiguousFrom_cons.1 h
    simp only [locateFrom]
    split_ifs with hp
    · rfl
    · simp only [countOf, List.map_cons, List.sum_cons] at h2
      exact ih h4 (by omega) (by simp only [countOf]; omega)

end Machine

/-! ### A well-formed configuration -/

theorem Config.wf_descriptor {cfg : Config} (h : cfg.wf = true) {b : BankId} (hb : b ∈ cfg.banks) :
    cfg.entries b ≠ [] ∧ contiguousFrom 0 (cfg.entries b) = true ∧ ((cfg.entries b).map Entry.sel).Nodup
      ∧ cfg.ports b ≤ 16 := by
  simp only [Config.wf, Bool.and_eq_true, List.all_eq_true] at h
  have := h.1.1.1.1.1 b hb
  simp only [Config.descriptorOk, Bool.and_eq_true, Bool.not_eq_true', List.isEmpty_eq_false_iff,
    decide_eq_true_eq] at this
  tauto

theorem Config.wf_offsets {cfg : Config} (h : cfg.wf = true) {f g : Feature}
    (hfg : (cfg.info f).off = (cfg.info g).off) : f = g := by
  simp only [Config.wf, Bool.and_eq_true] at h
  have := h.1.1.1.2
  simp [Config.offsetsOk, Feature.all] at this
  cases f <;> cases g <;> simp_all

theorem Config.wf_ranges {cfg : Config} (h : cfg.wf = true) (ha : cfg.variant = .A) : cfg.ports .one ≤ 16 := by
  exact (Config.wf_descriptor h (b := .one) (by simp [Config.banks, ha])).2.2.2

/-- Entry `k` of a well-formed bank starts at port `4*k` and covers 4 ports (10_state.md R35 to R37). -/
theorem Config.wf_entry {cfg : Config} (h : cfg.wf = true) {b : BankId} {k : Nat} {e : Entry}
    (he : cfg.entry? b k = some e) : e.start = 4 * k ∧ e.count = 4 := by
  simp only [Config.wf, Config.shapeOk, Bool.and_eq_true, beq_iff_eq] at h
  have hs := congrArg (fun l => l[k]?) h.2.1
  have hk : cfg.layout[k]? = some e := by
    simp only [Config.entry?, Config.entries, List.getElem?_take] at he
    split at he
    · exact he
    · cases he
  have hlt : k < cfg.layout.length := (List.getElem?_eq_some_iff.1 hk).1
  simp only [List.getElem?_map, hk, Option.map_some, List.getElem?_range hlt, Option.some.injEq, Prod.mk.injEq] at hs
  exact hs

/-- `N(b)` is four ports for each entry. -/
theorem Config.wf_ports {cfg : Config} (h : cfg.wf = true) (b : BankId) : cfg.ports b = 4 * cfg.nreg b := by
  have h4 : ∀ c ∈ (cfg.entries b).map Entry.count, c = 4 := by
    intro c hc
    obtain ⟨e, he, rfl⟩ := List.mem_map.1 hc
    obtain ⟨k, hk⟩ := List.getElem?_of_mem he
    exact (Config.wf_entry h hk).2
  rw [Config.ports, Config.nreg, List.eq_replicate_of_mem h4]
  simp [Nat.mul_comm]

/-- `NREG(b)` of a well-formed configuration: 4 or 2 in variant A, 1 in variant B (00_scope.md R9). -/
theorem Config.wf_nreg {cfg : Config} (h : cfg.wf = true) {b : BankId} (hb : b ∈ cfg.banks) :
    cfg.nreg b = (cfg.bank b).nreg ∧ (cfg.variant = .A → cfg.nreg b = 4 ∨ cfg.nreg b = 2)
      ∧ (cfg.variant = .B → cfg.nreg b = 1) := by
  simp only [Config.wf, Config.shapeOk, Bool.and_eq_true] at h
  have hs := h.2.2
  cases hv : cfg.variant <;> rw [hv] at hs
  · simp only [Bool.and_eq_true, beq_iff_eq, List.all_eq_true, Bool.or_eq_true] at hs
    have := hs.2 b hb
    simp only [Config.nreg, Config.entries, List.length_take, hs.1]
    refine ⟨by omega, fun _ => by omega, fun hAB => by cases hAB⟩
  · simp only [Bool.and_eq_true, beq_iff_eq] at hs
    obtain rfl : b = .one := by simpa [Config.banks, hv] using hb
    have hn : cfg.nreg .one = 1 := by simp [Config.nreg, Config.entries, List.length_take, hs.1, Config.bank, hs.2]
    exact ⟨hn.trans hs.2.symm, fun hAB => (by cases hAB), fun _ => hn⟩

theorem Config.wf_nreg_le {cfg : Config} (h : cfg.wf = true) {b : BankId} (hb : b ∈ cfg.banks) : cfg.nreg b ≤ 4 := by
  obtain ⟨-, h1, h2⟩ := Config.wf_nreg h hb
  cases hv : cfg.variant
  · have := h1 hv
    omega
  · have := h2 hv
    omega

/-- Entry and selector determine each other in a well-formed bank. -/
theorem Config.entry_sel_inj {cfg : Config} (h : cfg.wf = true) {b : BankId} (hb : b ∈ cfg.banks) {k k' : Nat}
    {e e' : Entry} (hk : cfg.entry? b k = some e) (hk' : cfg.entry? b k' = some e') (hs : e.sel = e'.sel) :
    k = k' := by
  have hn := (Config.wf_descriptor h hb).2.2.1
  have h1 : ((cfg.entries b).map Entry.sel)[k]? = some e.sel := by simp [show (cfg.entries b)[k]? = some e from hk]
  have h2 : ((cfg.entries b).map Entry.sel)[k']? = some e.sel := by
    simp [show (cfg.entries b)[k']? = some e' from hk', hs]
  have hlt : k < ((cfg.entries b).map Entry.sel).length := by
    by_contra hge
    rw [List.getElem?_eq_none (by omega)] at h1
    cases h1
  exact (List.getElem?_inj hlt hn).1 (h1.trans h2.symm)

theorem Config.entry?_lt {cfg : Config} {b : BankId} {k : Nat} {e : Entry} (h : cfg.entry? b k = some e) :
    k < cfg.nreg b := by
  by_contra hge
  rw [Config.entry?, List.getElem?_eq_none (by simpa [Config.nreg] using hge)] at h
  cases h

theorem Config.entry?_of_lt {cfg : Config} {b : BankId} {k : Nat} (h : k < cfg.nreg b) :
    ∃ e, cfg.entry? b k = some e :=
  ⟨(cfg.entries b)[k]'h, List.getElem?_eq_getElem h⟩

@[simp] theorem Config.entry_of_entry? {cfg : Config} {b : BankId} {k : Nat} {e : Entry}
    (h : cfg.entry? b k = some e) : cfg.entry b k = e := by
  simp [Config.entry, h]

theorem Config.entry?_mem {cfg : Config} {b : BankId} {k : Nat} {e : Entry} (h : cfg.entry? b k = some e) :
    e ∈ cfg.entries b :=
  List.mem_of_getElem? h

/-- Bounds of an entry of a well-formed bank. -/
theorem Config.entry_bounds {cfg : Config} (h : cfg.wf = true) {b : BankId} (hb : b ∈ cfg.banks) {k : Nat} {e : Entry}
    (hk : cfg.entry? b k = some e) :
    e.start + e.count ≤ cfg.ports b ∧ 1 ≤ e.count ∧ e.count ≤ 4 ∧ cfg.ports b ≤ 16 := by
  obtain ⟨-, hc, -, hp⟩ := Config.wf_descriptor h hb
  have := contiguousFrom_bounds hc hk
  simp only [countOf, Nat.zero_add] at this
  exact ⟨this.2.1, this.2.2.1, this.2.2.2, hp⟩

/-- The register kind of a feature register. -/
theorem Config.registerAt_sel {cfg : Config} (h : cfg.wf = true) {b : BankId} (hb : b ∈ cfg.banks) {k : Nat} {e : Entry}
    (hk : cfg.entry? b k = some e) : cfg.registerAt b e.sel = .feature e := by
  have hfind : (cfg.entries b).find? (·.sel == e.sel) = some e := by
    cases hf : (cfg.entries b).find? (·.sel == e.sel) with
    | none =>
      have := List.find?_eq_none.1 hf e (Config.entry?_mem hk)
      simp at this
    | some e' =>
      have hsel : e'.sel = e.sel := by simpa using List.find?_some hf
      obtain ⟨k', hk'⟩ := List.getElem?_of_mem (List.mem_of_find?_eq_some hf)
      have := Config.entry_sel_inj h hb hk' hk hsel
      subst this
      rw [show cfg.entry? b k' = (cfg.entries b)[k']? from rfl, hk'] at hk
      exact hk
  simp [Config.registerAt, hfind]

theorem Config.registerAt_mem {cfg : Config} {b : BankId} {sel : Selector} {e : Entry}
    (h : cfg.registerAt b sel = .feature e) : e ∈ cfg.entries b ∧ e.sel = sel := by
  unfold Config.registerAt at h
  split at h
  · rename_i e' he
    cases h
    exact ⟨List.mem_of_find?_eq_some he, by simpa using List.find?_some he⟩
  · split_ifs at h

/-- The control bits of a register with `count` slots in use (10_state.md R45). -/
theorem Config.getLsbD_controlBits (cfg : Config) (count j : Nat) :
    (cfg.controlBits count).getLsbD j = true ↔
      ∃ f, (cfg.info f).writable = true ∧ (Machine.slotBits (cfg.info f).off count).getLsbD j = true := by
  have key : ∀ (c : Bool) (m x : RegWord), (if c then m ||| x else m).getLsbD j = (m.getLsbD j || (c && x.getLsbD j)) := by
    intro c m x; cases c <;> simp
  simp only [Config.controlBits, Feature.all, List.foldl, key]
  constructor
  · intro h
    simp only [show BitVec.getLsbD (0 : RegWord) j = false from BitVec.getLsbD_zero, Bool.false_or, Bool.or_eq_true,
      Bool.and_eq_true] at h
    rcases h with ((h | h) | h) | h
    · exact ⟨.lpmode, h⟩
    · exact ⟨.modabs, h⟩
    · exact ⟨.intr, h⟩
    · exact ⟨.reset, h⟩
  · rintro ⟨f, h1, h2⟩
    cases f <;> simp [h1, h2]

/-- `LOCATE` of a port of a well-formed bank. -/
theorem Config.locate_some {cfg : Config} (h : cfg.wf = true) {b : BankId} (hb : b ∈ cfg.banks) {p : Nat}
    (hp : p < cfg.ports b) :
    ∃ k e, Machine.locate cfg b p = some (k, p - e.start) ∧ cfg.entry? b k = some e ∧ e.start ≤ p
      ∧ p < e.start + e.count := by
  obtain ⟨-, hc, -, -⟩ := Config.wf_descriptor h hb
  have hs := Machine.locateFrom_isSome (k0 := 0) hc (Nat.zero_le p) (by rw [Nat.zero_add]; exact hp)
  obtain ⟨⟨k, s⟩, hks⟩ := Option.isSome_iff_exists.1 hs
  obtain ⟨e, -, he, h1, h2, rfl⟩ := Machine.locateFrom_some hks
  exact ⟨k, e, hks, by simpa [Config.entry?] using he, h1, h2⟩

/-- What `LOCATE` answers. -/
theorem Config.locate_eq_some {cfg : Config} {b : BankId} {p k s : Nat} (h : Machine.locate cfg b p = some (k, s)) :
    ∃ e, cfg.entry? b k = some e ∧ e.start ≤ p ∧ p < e.start + e.count ∧ s = p - e.start := by
  obtain ⟨e, -, he, hr⟩ := Machine.locateFrom_some h
  exact ⟨e, by simpa [Config.entry?] using he, hr⟩

/-- `LOCATE` finds the entry a port lies in. -/
theorem Config.locate_of_entry {cfg : Config} (h : cfg.wf = true) {b : BankId} (hb : b ∈ cfg.banks) {p k : Nat} {e : Entry}
    (hk : cfg.entry? b k = some e) (h1 : e.start ≤ p) (h2 : p < e.start + e.count) :
    Machine.locate cfg b p = some (k, p - e.start) := by
  have hp : p < cfg.ports b := by have := Config.entry_bounds h hb hk; omega
  obtain ⟨k', e', hl, hk', h1', h2'⟩ := Config.locate_some h hb hp
  obtain ⟨-, hc, -, -⟩ := Config.wf_descriptor h hb
  obtain rfl := contiguousFrom_unique hc hk hk' h1 h2 h1' h2'
  rw [hk] at hk'
  cases hk'
  exact hl

/-! ### Banks, features and checks -/

theorem BankId.number_inj {b b' : BankId} (h : b.number = b'.number) : b = b' := by
  cases b <;> cases b' <;> first | rfl | (simp [BankId.number] at h)

namespace Machine

theorem bankOf_eq_some {cfg : Config} {bank : BitVec 2} {b : BankId} (h : bankOf cfg bank = some b) :
    b ∈ cfg.banks ∧ b.number = bank :=
  ⟨List.mem_of_find?_eq_some h, by simpa using List.find?_some h⟩

theorem bankOf_number {cfg : Config} {b : BankId} (h : b ∈ cfg.banks) : bankOf cfg b.number = some b := by
  cases hf : bankOf cfg b.number with
  | none =>
    have := List.find?_eq_none.1 hf b h
    simp at this
  | some b' => rw [BankId.number_inj (bankOf_eq_some hf).2]

theorem route_eq_some {cfg : Config} {gp p : Nat} {b : BankId} (h : route cfg gp = some (b, p)) :
    b ∈ cfg.banks ∧ b.base ≤ gp ∧ gp < b.base + cfg.ports b ∧ p = gp - b.base := by
  simp only [route, Option.map_eq_some_iff] at h
  obtain ⟨b', hf, he⟩ := h
  obtain ⟨rfl, rfl⟩ := by simpa using he
  have := List.find?_some hf
  simp only [holdsPort, Bool.and_eq_true, decide_eq_true_eq] at this
  exact ⟨List.mem_of_find?_eq_some hf, this.1, this.2, rfl⟩

end Machine

end Sys2Proof
end

