-- ==== Sys2Proof/Laws/Table.lean ====
section
/-! SUPPORT. Laws of canonical tables: reading after writing, and that writing keeps the canonical form. -/

namespace Sys2Proof.Machine

variable {α : Type}

@[simp] theorem tableGet_nil (d : α) (a : Nat) : tableGet d [] a = d := rfl

theorem tableGet_cons (d : α) (k : Nat) (v : α) (t : List (Nat × α)) (a : Nat) :
    tableGet d ((k, v) :: t) a = if a = k then v else tableGet d t a := rfl

/-- A key below every listed key reads as the default. -/
theorem tableGet_of_forall_ne (d : α) (t : List (Nat × α)) (a : Nat) (h : ∀ e ∈ t, e.1 ≠ a) : tableGet d t a = d := by
  induction t with
  | nil => rfl
  | cons e t ih =>
    have he : a ≠ e.1 := fun h' => h e (by simp) h'.symm
    rw [show e = (e.1, e.2) from rfl, tableGet_cons, if_neg he]
    exact ih fun e' h' => h e' (by simp [h'])

/-- What is read at a key is the default or listed there. -/
theorem tableGet_mem_or (d : α) (t : List (Nat × α)) (a : Nat) : tableGet d t a = d ∨ (a, tableGet d t a) ∈ t := by
  induction t with
  | nil => exact .inl rfl
  | cons e t ih =>
    rw [show e = (e.1, e.2) from rfl, tableGet_cons]
    split_ifs with h
    · exact .inr (by simp [h])
    · exact ih.imp id fun h' => by simp [h']

variable [DecidableEq α]

/-- Writing leaves every other key alone. -/
theorem tableGet_set_of_ne (d : α) (t : List (Nat × α)) {a b : Nat} (x : α) (h : b ≠ a) :
    tableGet d (tableSet d t a x) b = tableGet d t b := by
  induction t with
  | nil => simp only [tableSet, tableCons]; split_ifs <;> simp [tableGet, h]
  | cons e t ih =>
    obtain ⟨k, v⟩ := e
    simp only [tableSet, tableCons]
    split_ifs with h1 h2 h3 h4
    · rfl
    · simp [tableGet, h]
    · simp [tableGet, h3 ▸ h]
    · simp [tableGet, h, h3 ▸ h]
    · simp [tableGet, ih]

/-- Writing something other than the default is read back. -/
theorem tableGet_set_of_ne_default (d : α) (t : List (Nat × α)) (a : Nat) {x : α} (h : x ≠ d) :
    tableGet d (tableSet d t a x) a = x := by
  induction t with
  | nil => simp [tableSet, tableCons, tableGet, h]
  | cons e t ih =>
    obtain ⟨k, v⟩ := e
    simp only [tableSet, tableCons, h, if_false]
    split_ifs with h1 h2
    · simp [tableGet]
    · simp [tableGet]
    · simp [tableGet, h2, ih]

/-- The entries after a write are the new one and old ones. -/
theorem mem_tableSet {d : α} {t : List (Nat × α)} {a : Nat} {x : α} {e : Nat × α} (h : e ∈ tableSet d t a x) :
    (e = (a, x) ∧ x ≠ d) ∨ e ∈ t := by
  induction t with
  | nil =>
    simp only [tableSet, tableCons] at h
    split_ifs at h with hx
    · exact .inr h
    · exact .inl ⟨by simpa using h, hx⟩
  | cons e' t ih =>
    obtain ⟨k, v⟩ := e'
    simp only [tableSet, tableCons] at h
    split_ifs at h with h1 h2 h3 h4
    · exact .inr h
    · rcases List.mem_cons.1 h with h | h
      · exact .inl ⟨h, h2⟩
      · exact .inr h
    · exact .inr (by simp [h])
    · rcases List.mem_cons.1 h with h | h
      · exact .inl ⟨h, h4⟩
      · exact .inr (by simp [h])
    · rcases List.mem_cons.1 h with h | h
      · exact .inr (by simp [h])
      · exact (ih h).imp id fun h => by simp [h]

omit [DecidableEq α] in
/-- The canonical form of a table with a first entry. -/
theorem tableWf_cons {d : α} {k : Nat} {v : α} {t : List (Nat × α)} :
    tableWf d ((k, v) :: t) ↔ (∀ e ∈ t, k < e.1) ∧ v ≠ d ∧ tableWf d t := by
  simp only [tableWf, List.map_cons, List.pairwise_cons, List.mem_map, List.mem_cons, forall_eq_or_imp,
    forall_exists_index, and_imp, forall_apply_eq_imp_iff₂]
  tauto

/-- Writing the default removes the entry: the key reads as the default. -/
theorem tableGet_set_default (d : α) {t : List (Nat × α)} (a : Nat) (h : tableWf d t) :
    tableGet d (tableSet d t a d) a = d := by
  induction t with
  | nil => simp [tableSet, tableCons]
  | cons e t ih =>
    obtain ⟨k, v⟩ := e
    obtain ⟨hk, -, ht⟩ := tableWf_cons.1 h
    simp only [tableSet, tableCons, if_true]
    split_ifs with h1 h2
    · exact tableGet_of_forall_ne _ _ _ fun e he => by
        rcases List.mem_cons.1 he with rfl | he
        · exact fun h => by simp at h; omega
        · have := hk e he; omega
    · exact tableGet_of_forall_ne _ _ _ fun e he => by have := hk e he; omega
    · simp [tableGet, h2, ih ht]

/-- A canonical table reads back what was written. -/
theorem tableGet_set_self (d : α) {t : List (Nat × α)} (a : Nat) (x : α) (h : tableWf d t) :
    tableGet d (tableSet d t a x) a = x := by
  by_cases hx : x = d
  · subst hx; exact tableGet_set_default x a h
  · exact tableGet_set_of_ne_default d t a hx

/-- Writing keeps the canonical form. -/
theorem tableSet_wf {d : α} {t : List (Nat × α)} (a : Nat) (x : α) (h : tableWf d t) : tableWf d (tableSet d t a x) := by
  induction t with
  | nil => simp only [tableSet, tableCons]; split_ifs with hx <;> simp [tableWf, hx]
  | cons e t ih =>
    obtain ⟨k, v⟩ := e
    obtain ⟨hk, hv, ht⟩ := tableWf_cons.1 h
    simp only [tableSet, tableCons]
    split_ifs with h1 h2 h3 h4
    · exact h
    · refine tableWf_cons.2 ⟨fun e he => ?_, h2, h⟩
      rcases List.mem_cons.1 he with rfl | he
      · exact h1
      · exact h1.trans (hk e he)
    · exact ht
    · exact tableWf_cons.2 ⟨fun e he => h3 ▸ hk e he, h4, ht⟩
    · refine tableWf_cons.2 ⟨fun e he => ?_, hv, ih ht⟩
      rcases mem_tableSet he with ⟨rfl, -⟩ | he
      · simp only; omega
      · exact hk e he

end Sys2Proof.Machine
end

