-- ==== Sys2Proof/Laws/State.lean ====
section
/-! SUPPORT. For each update of State: what every other field holds after it, and what is read of the field it writes. -/

namespace Sys2Proof.Machine

/-! ### setPeer -/

@[simp] theorem State.setPeer_cfg (s : State) (b : BankId) (m : Memory) : (s.setPeer b m).cfg = s.cfg := by cases b <;> rfl

@[simp] theorem State.setPeer_attached1 (s : State) (b : BankId) (m : Memory) : (s.setPeer b m).attached1 = s.attached1 := by cases b <;> rfl

@[simp] theorem State.setPeer_attached2 (s : State) (b : BankId) (m : Memory) : (s.setPeer b m).attached2 = s.attached2 := by cases b <;> rfl

@[simp] theorem State.setPeer_lock1 (s : State) (b : BankId) (m : Memory) : (s.setPeer b m).lock1 = s.lock1 := by cases b <;> rfl

@[simp] theorem State.setPeer_lock2 (s : State) (b : BankId) (m : Memory) : (s.setPeer b m).lock2 = s.lock2 := by cases b <;> rfl

@[simp] theorem State.setPeer_callers (s : State) (b : BankId) (m : Memory) : (s.setPeer b m).callers = s.callers := by cases b <;> rfl

@[simp] theorem State.setPeer_cur (s : State) (b : BankId) (m : Memory) : (s.setPeer b m).cur = s.cur := by cases b <;> rfl

@[simp] theorem State.setPeer_inputs (s : State) (b : BankId) (m : Memory) : (s.setPeer b m).inputs = s.inputs := by cases b <;> rfl

@[simp] theorem State.setPeer_bus (s : State) (b : BankId) (m : Memory) : (s.setPeer b m).bus = s.bus := by cases b <;> rfl

@[simp] theorem State.setPeer_drawn (s : State) (b : BankId) (m : Memory) : (s.setPeer b m).drawn = s.drawn := by cases b <;> rfl

@[simp] theorem State.setPeer_log (s : State) (b : BankId) (m : Memory) : (s.setPeer b m).log = s.log := by cases b <;> rfl

/-! ### setLock -/

@[simp] theorem State.setLock_cfg (s : State) (b : BankId) (h : Option CallerId) : (s.setLock b h).cfg = s.cfg := by cases b <;> rfl

@[simp] theorem State.setLock_attached1 (s : State) (b : BankId) (h : Option CallerId) : (s.setLock b h).attached1 = s.attached1 := by cases b <;> rfl

@[simp] theorem State.setLock_attached2 (s : State) (b : BankId) (h : Option CallerId) : (s.setLock b h).attached2 = s.attached2 := by cases b <;> rfl

@[simp] theorem State.setLock_peer1 (s : State) (b : BankId) (h : Option CallerId) : (s.setLock b h).peer1 = s.peer1 := by cases b <;> rfl

@[simp] theorem State.setLock_peer2 (s : State) (b : BankId) (h : Option CallerId) : (s.setLock b h).peer2 = s.peer2 := by cases b <;> rfl

@[simp] theorem State.setLock_callers (s : State) (b : BankId) (h : Option CallerId) : (s.setLock b h).callers = s.callers := by cases b <;> rfl

@[simp] theorem State.setLock_cur (s : State) (b : BankId) (h : Option CallerId) : (s.setLock b h).cur = s.cur := by cases b <;> rfl

@[simp] theorem State.setLock_inputs (s : State) (b : BankId) (h : Option CallerId) : (s.setLock b h).inputs = s.inputs := by cases b <;> rfl

@[simp] theorem State.setLock_bus (s : State) (b : BankId) (h : Option CallerId) : (s.setLock b h).bus = s.bus := by cases b <;> rfl

@[simp] theorem State.setLock_drawn (s : State) (b : BankId) (h : Option CallerId) : (s.setLock b h).drawn = s.drawn := by cases b <;> rfl

@[simp] theorem State.setLock_log (s : State) (b : BankId) (h : Option CallerId) : (s.setLock b h).log = s.log := by cases b <;> rfl

/-! ### setAttached -/

@[simp] theorem State.setAttached_cfg (s : State) (b : BankId) : (s.setAttached b).cfg = s.cfg := by cases b <;> rfl

@[simp] theorem State.setAttached_peer1 (s : State) (b : BankId) : (s.setAttached b).peer1 = s.peer1 := by cases b <;> rfl

@[simp] theorem State.setAttached_peer2 (s : State) (b : BankId) : (s.setAttached b).peer2 = s.peer2 := by cases b <;> rfl

@[simp] theorem State.setAttached_lock1 (s : State) (b : BankId) : (s.setAttached b).lock1 = s.lock1 := by cases b <;> rfl

@[simp] theorem State.setAttached_lock2 (s : State) (b : BankId) : (s.setAttached b).lock2 = s.lock2 := by cases b <;> rfl

@[simp] theorem State.setAttached_callers (s : State) (b : BankId) : (s.setAttached b).callers = s.callers := by cases b <;> rfl

@[simp] theorem State.setAttached_cur (s : State) (b : BankId) : (s.setAttached b).cur = s.cur := by cases b <;> rfl

@[simp] theorem State.setAttached_inputs (s : State) (b : BankId) : (s.setAttached b).inputs = s.inputs := by cases b <;> rfl

@[simp] theorem State.setAttached_bus (s : State) (b : BankId) : (s.setAttached b).bus = s.bus := by cases b <;> rfl

@[simp] theorem State.setAttached_drawn (s : State) (b : BankId) : (s.setAttached b).drawn = s.drawn := by cases b <;> rfl

@[simp] theorem State.setAttached_log (s : State) (b : BankId) : (s.setAttached b).log = s.log := by cases b <;> rfl

/-! ### setCtrl -/

@[simp] theorem State.setCtrl_cfg (s : State) (b : BankId) (sel : Selector) (c : CtrlWord) : (s.setCtrl b sel c).cfg = s.cfg := by cases b <;> rfl

@[simp] theorem State.setCtrl_attached1 (s : State) (b : BankId) (sel : Selector) (c : CtrlWord) : (s.setCtrl b sel c).attached1 = s.attached1 := by cases b <;> rfl

@[simp] theorem State.setCtrl_attached2 (s : State) (b : BankId) (sel : Selector) (c : CtrlWord) : (s.setCtrl b sel c).attached2 = s.attached2 := by cases b <;> rfl

@[simp] theorem State.setCtrl_lock1 (s : State) (b : BankId) (sel : Selector) (c : CtrlWord) : (s.setCtrl b sel c).lock1 = s.lock1 := by cases b <;> rfl

@[simp] theorem State.setCtrl_lock2 (s : State) (b : BankId) (sel : Selector) (c : CtrlWord) : (s.setCtrl b sel c).lock2 = s.lock2 := by cases b <;> rfl

@[simp] theorem State.setCtrl_callers (s : State) (b : BankId) (sel : Selector) (c : CtrlWord) : (s.setCtrl b sel c).callers = s.callers := by cases b <;> rfl

@[simp] theorem State.setCtrl_cur (s : State) (b : BankId) (sel : Selector) (c : CtrlWord) : (s.setCtrl b sel c).cur = s.cur := by cases b <;> rfl

@[simp] theorem State.setCtrl_inputs (s : State) (b : BankId) (sel : Selector) (c : CtrlWord) : (s.setCtrl b sel c).inputs = s.inputs := by cases b <;> rfl

@[simp] theorem State.setCtrl_bus (s : State) (b : BankId) (sel : Selector) (c : CtrlWord) : (s.setCtrl b sel c).bus = s.bus := by cases b <;> rfl

@[simp] theorem State.setCtrl_drawn (s : State) (b : BankId) (sel : Selector) (c : CtrlWord) : (s.setCtrl b sel c).drawn = s.drawn := by cases b <;> rfl

@[simp] theorem State.setCtrl_log (s : State) (b : BankId) (sel : Selector) (c : CtrlWord) : (s.setCtrl b sel c).log = s.log := by cases b <;> rfl

/-! ### logged -/

@[simp] theorem State.logged_cfg (s : State) (x : Transaction) : (s.logged x).cfg = s.cfg := rfl

@[simp] theorem State.logged_attached1 (s : State) (x : Transaction) : (s.logged x).attached1 = s.attached1 := rfl

@[simp] theorem State.logged_attached2 (s : State) (x : Transaction) : (s.logged x).attached2 = s.attached2 := rfl

@[simp] theorem State.logged_peer1 (s : State) (x : Transaction) : (s.logged x).peer1 = s.peer1 := rfl

@[simp] theorem State.logged_peer2 (s : State) (x : Transaction) : (s.logged x).peer2 = s.peer2 := rfl

@[simp] theorem State.logged_lock1 (s : State) (x : Transaction) : (s.logged x).lock1 = s.lock1 := rfl

@[simp] theorem State.logged_lock2 (s : State) (x : Transaction) : (s.logged x).lock2 = s.lock2 := rfl

@[simp] theorem State.logged_callers (s : State) (x : Transaction) : (s.logged x).callers = s.callers := rfl

@[simp] theorem State.logged_cur (s : State) (x : Transaction) : (s.logged x).cur = s.cur := rfl

@[simp] theorem State.logged_inputs (s : State) (x : Transaction) : (s.logged x).inputs = s.inputs := rfl

@[simp] theorem State.logged_bus (s : State) (x : Transaction) : (s.logged x).bus = s.bus := rfl

@[simp] theorem State.logged_drawn (s : State) (x : Transaction) : (s.logged x).drawn = s.drawn := rfl

/-! ### setCaller -/

@[simp] theorem State.setCaller_cfg (s : State) (c : CallerId) (x : Caller) : (s.setCaller c x).cfg = s.cfg := rfl

@[simp] theorem State.setCaller_attached1 (s : State) (c : CallerId) (x : Caller) : (s.setCaller c x).attached1 = s.attached1 := rfl

@[simp] theorem State.setCaller_attached2 (s : State) (c : CallerId) (x : Caller) : (s.setCaller c x).attached2 = s.attached2 := rfl

@[simp] theorem State.setCaller_peer1 (s : State) (c : CallerId) (x : Caller) : (s.setCaller c x).peer1 = s.peer1 := rfl

@[simp] theorem State.setCaller_peer2 (s : State) (c : CallerId) (x : Caller) : (s.setCaller c x).peer2 = s.peer2 := rfl

@[simp] theorem State.setCaller_lock1 (s : State) (c : CallerId) (x : Caller) : (s.setCaller c x).lock1 = s.lock1 := rfl

@[simp] theorem State.setCaller_lock2 (s : State) (c : CallerId) (x : Caller) : (s.setCaller c x).lock2 = s.lock2 := rfl

@[simp] theorem State.setCaller_cur (s : State) (c : CallerId) (x : Caller) : (s.setCaller c x).cur = s.cur := rfl

@[simp] theorem State.setCaller_inputs (s : State) (c : CallerId) (x : Caller) : (s.setCaller c x).inputs = s.inputs := rfl

@[simp] theorem State.setCaller_bus (s : State) (c : CallerId) (x : Caller) : (s.setCaller c x).bus = s.bus := rfl

@[simp] theorem State.setCaller_drawn (s : State) (c : CallerId) (x : Caller) : (s.setCaller c x).drawn = s.drawn := rfl

@[simp] theorem State.setCaller_log (s : State) (c : CallerId) (x : Caller) : (s.setCaller c x).log = s.log := rfl

/-! ### setRecord -/

@[simp] theorem State.setRecord_cfg (s : State) (r : InFlight) : (s.setRecord r).cfg = s.cfg := rfl

@[simp] theorem State.setRecord_attached1 (s : State) (r : InFlight) : (s.setRecord r).attached1 = s.attached1 := rfl

@[simp] theorem State.setRecord_attached2 (s : State) (r : InFlight) : (s.setRecord r).attached2 = s.attached2 := rfl

@[simp] theorem State.setRecord_peer1 (s : State) (r : InFlight) : (s.setRecord r).peer1 = s.peer1 := rfl

@[simp] theorem State.setRecord_peer2 (s : State) (r : InFlight) : (s.setRecord r).peer2 = s.peer2 := rfl

@[simp] theorem State.setRecord_lock1 (s : State) (r : InFlight) : (s.setRecord r).lock1 = s.lock1 := rfl

@[simp] theorem State.setRecord_lock2 (s : State) (r : InFlight) : (s.setRecord r).lock2 = s.lock2 := rfl

@[simp] theorem State.setRecord_cur (s : State) (r : InFlight) : (s.setRecord r).cur = s.cur := rfl

@[simp] theorem State.setRecord_inputs (s : State) (r : InFlight) : (s.setRecord r).inputs = s.inputs := rfl

@[simp] theorem State.setRecord_bus (s : State) (r : InFlight) : (s.setRecord r).bus = s.bus := rfl

@[simp] theorem State.setRecord_drawn (s : State) (r : InFlight) : (s.setRecord r).drawn = s.drawn := rfl

@[simp] theorem State.setRecord_log (s : State) (r : InFlight) : (s.setRecord r).log = s.log := rfl

/-! ### releaseLocks -/

@[simp] theorem State.releaseLocks_cfg (s : State) (c : CallerId) : (s.releaseLocks c).cfg = s.cfg := rfl

@[simp] theorem State.releaseLocks_attached1 (s : State) (c : CallerId) : (s.releaseLocks c).attached1 = s.attached1 := rfl

@[simp] theorem State.releaseLocks_attached2 (s : State) (c : CallerId) : (s.releaseLocks c).attached2 = s.attached2 := rfl

@[simp] theorem State.releaseLocks_peer1 (s : State) (c : CallerId) : (s.releaseLocks c).peer1 = s.peer1 := rfl

@[simp] theorem State.releaseLocks_peer2 (s : State) (c : CallerId) : (s.releaseLocks c).peer2 = s.peer2 := rfl

@[simp] theorem State.releaseLocks_callers (s : State) (c : CallerId) : (s.releaseLocks c).callers = s.callers := rfl

@[simp] theorem State.releaseLocks_cur (s : State) (c : CallerId) : (s.releaseLocks c).cur = s.cur := rfl

@[simp] theorem State.releaseLocks_inputs (s : State) (c : CallerId) : (s.releaseLocks c).inputs = s.inputs := rfl

@[simp] theorem State.releaseLocks_bus (s : State) (c : CallerId) : (s.releaseLocks c).bus = s.bus := rfl

@[simp] theorem State.releaseLocks_drawn (s : State) (c : CallerId) : (s.releaseLocks c).drawn = s.drawn := rfl

@[simp] theorem State.releaseLocks_log (s : State) (c : CallerId) : (s.releaseLocks c).log = s.log := rfl

/-! ### respond -/

@[simp] theorem State.respond_cfg (s : State) (r : Response) : (s.respond r).cfg = s.cfg := rfl

@[simp] theorem State.respond_attached1 (s : State) (r : Response) : (s.respond r).attached1 = s.attached1 := rfl

@[simp] theorem State.respond_attached2 (s : State) (r : Response) : (s.respond r).attached2 = s.attached2 := rfl

@[simp] theorem State.respond_peer1 (s : State) (r : Response) : (s.respond r).peer1 = s.peer1 := rfl

@[simp] theorem State.respond_peer2 (s : State) (r : Response) : (s.respond r).peer2 = s.peer2 := rfl

@[simp] theorem State.respond_cur (s : State) (r : Response) : (s.respond r).cur = s.cur := rfl

@[simp] theorem State.respond_inputs (s : State) (r : Response) : (s.respond r).inputs = s.inputs := rfl

@[simp] theorem State.respond_bus (s : State) (r : Response) : (s.respond r).bus = s.bus := rfl

@[simp] theorem State.respond_drawn (s : State) (r : Response) : (s.respond r).drawn = s.drawn := rfl

@[simp] theorem State.respond_log (s : State) (r : Response) : (s.respond r).log = s.log := rfl

/-! ### drawReply -/

@[simp] theorem State.drawReply_cfg (s : State) : s.drawReply.2.cfg = s.cfg := by unfold State.drawReply; split <;> rfl

@[simp] theorem State.drawReply_attached1 (s : State) : s.drawReply.2.attached1 = s.attached1 := by unfold State.drawReply; split <;> rfl

@[simp] theorem State.drawReply_attached2 (s : State) : s.drawReply.2.attached2 = s.attached2 := by unfold State.drawReply; split <;> rfl

@[simp] theorem State.drawReply_peer1 (s : State) : s.drawReply.2.peer1 = s.peer1 := by unfold State.drawReply; split <;> rfl

@[simp] theorem State.drawReply_peer2 (s : State) : s.drawReply.2.peer2 = s.peer2 := by unfold State.drawReply; split <;> rfl

@[simp] theorem State.drawReply_lock1 (s : State) : s.drawReply.2.lock1 = s.lock1 := by unfold State.drawReply; split <;> rfl

@[simp] theorem State.drawReply_lock2 (s : State) : s.drawReply.2.lock2 = s.lock2 := by unfold State.drawReply; split <;> rfl

@[simp] theorem State.drawReply_callers (s : State) : s.drawReply.2.callers = s.callers := by unfold State.drawReply; split <;> rfl

@[simp] theorem State.drawReply_cur (s : State) : s.drawReply.2.cur = s.cur := by unfold State.drawReply; split <;> rfl

@[simp] theorem State.drawReply_inputs (s : State) : s.drawReply.2.inputs = s.inputs := by unfold State.drawReply; split <;> rfl

@[simp] theorem State.drawReply_log (s : State) : s.drawReply.2.log = s.log := by unfold State.drawReply; split <;> rfl

/-! ### What is read of the field written -/

@[simp] theorem State.logged_log (s : State) (x : Transaction) : (s.logged x).log = x :: s.log := rfl

@[simp] theorem State.peer_setPeer_self (s : State) (b : BankId) (m : Memory) : (s.setPeer b m).peer b = m := by
  cases b <;> rfl

theorem State.peer_setPeer_of_ne (s : State) {b b' : BankId} (m : Memory) (h : b' ≠ b) :
    (s.setPeer b m).peer b' = s.peer b' := by
  cases b <;> cases b' <;> first | rfl | exact absurd rfl h

@[simp] theorem State.lock_setLock_self (s : State) (b : BankId) (x : Option CallerId) :
    (s.setLock b x).lock b = x := by
  cases b <;> rfl

theorem State.lock_setLock_of_ne (s : State) {b b' : BankId} (x : Option CallerId) (h : b' ≠ b) :
    (s.setLock b x).lock b' = s.lock b' := by
  cases b <;> cases b' <;> first | rfl | exact absurd rfl h

@[simp] theorem State.attached_setAttached_self (s : State) (b : BankId) : (s.setAttached b).attached b = true := by
  cases b <;> rfl

theorem State.attached_setAttached_of_ne (s : State) {b b' : BankId} (h : b' ≠ b) :
    (s.setAttached b).attached b' = s.attached b' := by
  cases b <;> cases b' <;> first | rfl | exact absurd rfl h

@[simp] theorem State.lock_releaseLocks (s : State) (c : CallerId) (b : BankId) :
    (s.releaseLocks c).lock b = released c (s.lock b) := by
  cases b <;> rfl

/-! ### Accessors over updates that do not touch them -/

@[simp] theorem State.caller_setPeer (s : State) (b : BankId) (m : Memory) (c' : CallerId) : (s.setPeer b m).caller c' = s.caller c' := by simp [State.caller]

@[simp] theorem State.record_setPeer (s : State) (b : BankId) (m : Memory) : (s.setPeer b m).record = s.record := by simp [State.record]

@[simp] theorem State.caller_setLock (s : State) (b : BankId) (h : Option CallerId) (c' : CallerId) : (s.setLock b h).caller c' = s.caller c' := by simp [State.caller]

@[simp] theorem State.record_setLock (s : State) (b : BankId) (h : Option CallerId) : (s.setLock b h).record = s.record := by simp [State.record]

@[simp] theorem State.caller_setAttached (s : State) (b : BankId) (c' : CallerId) : (s.setAttached b).caller c' = s.caller c' := by simp [State.caller]

@[simp] theorem State.record_setAttached (s : State) (b : BankId) : (s.setAttached b).record = s.record := by simp [State.record]

@[simp] theorem State.caller_setCtrl (s : State) (b : BankId) (sel : Selector) (c : CtrlWord) (c' : CallerId) : (s.setCtrl b sel c).caller c' = s.caller c' := by simp [State.caller]

@[simp] theorem State.record_setCtrl (s : State) (b : BankId) (sel : Selector) (c : CtrlWord) : (s.setCtrl b sel c).record = s.record := by simp [State.record]

@[simp] theorem State.caller_logged (s : State) (x : Transaction) (c' : CallerId) : (s.logged x).caller c' = s.caller c' := by simp [State.caller]

@[simp] theorem State.record_logged (s : State) (x : Transaction) : (s.logged x).record = s.record := by simp [State.record]

@[simp] theorem State.caller_releaseLocks (s : State) (c : CallerId) (c' : CallerId) : (s.releaseLocks c).caller c' = s.caller c' := by simp [State.caller]

@[simp] theorem State.record_releaseLocks (s : State) (c : CallerId) : (s.releaseLocks c).record = s.record := by simp [State.record]

@[simp] theorem State.caller_drawReply (s : State) (c' : CallerId) : s.drawReply.2.caller c' = s.caller c' := by simp [State.caller]

@[simp] theorem State.record_drawReply (s : State) : s.drawReply.2.record = s.record := by simp [State.record]

@[simp] theorem State.lock_setPeer (s : State) (b : BankId) (m : Memory) (b' : BankId) : (s.setPeer b m).lock b' = s.lock b' := by
  cases b' <;> simp [State.lock]

@[simp] theorem State.lock_setAttached (s : State) (b : BankId) (b' : BankId) : (s.setAttached b).lock b' = s.lock b' := by
  cases b' <;> simp [State.lock]

@[simp] theorem State.lock_setCtrl (s : State) (b : BankId) (sel : Selector) (c : CtrlWord) (b' : BankId) : (s.setCtrl b sel c).lock b' = s.lock b' := by
  cases b' <;> simp [State.lock]

@[simp] theorem State.lock_logged (s : State) (x : Transaction) (b' : BankId) : (s.logged x).lock b' = s.lock b' := by
  cases b' <;> simp [State.lock]

@[simp] theorem State.lock_setCaller (s : State) (c : CallerId) (x : Caller) (b' : BankId) : (s.setCaller c x).lock b' = s.lock b' := by
  cases b' <;> simp [State.lock]

@[simp] theorem State.lock_setRecord (s : State) (r : InFlight) (b' : BankId) : (s.setRecord r).lock b' = s.lock b' := by
  cases b' <;> simp [State.lock]

@[simp] theorem State.lock_drawReply (s : State) (b' : BankId) : s.drawReply.2.lock b' = s.lock b' := by
  cases b' <;> simp [State.lock]

@[simp] theorem State.peer_setLock (s : State) (b : BankId) (h : Option CallerId) (b' : BankId) : (s.setLock b h).peer b' = s.peer b' := by
  cases b' <;> simp [State.peer]

@[simp] theorem State.ctrl_setLock (s : State) (b : BankId) (h : Option CallerId) (b' : BankId) (sel' : Selector) :
    (s.setLock b h).ctrl b' sel' = s.ctrl b' sel' := by
  simp [State.ctrl]

@[simp] theorem State.peer_setAttached (s : State) (b : BankId) (b' : BankId) : (s.setAttached b).peer b' = s.peer b' := by
  cases b' <;> simp [State.peer]

@[simp] theorem State.ctrl_setAttached (s : State) (b : BankId) (b' : BankId) (sel' : Selector) :
    (s.setAttached b).ctrl b' sel' = s.ctrl b' sel' := by
  simp [State.ctrl]

@[simp] theorem State.peer_logged (s : State) (x : Transaction) (b' : BankId) : (s.logged x).peer b' = s.peer b' := by
  cases b' <;> simp [State.peer]

@[simp] theorem State.ctrl_logged (s : State) (x : Transaction) (b' : BankId) (sel' : Selector) :
    (s.logged x).ctrl b' sel' = s.ctrl b' sel' := by
  simp [State.ctrl]

@[simp] theorem State.peer_setCaller (s : State) (c : CallerId) (x : Caller) (b' : BankId) : (s.setCaller c x).peer b' = s.peer b' := by
  cases b' <;> simp [State.peer]

@[simp] theorem State.ctrl_setCaller (s : State) (c : CallerId) (x : Caller) (b' : BankId) (sel' : Selector) :
    (s.setCaller c x).ctrl b' sel' = s.ctrl b' sel' := by
  simp [State.ctrl]

@[simp] theorem State.peer_setRecord (s : State) (r : InFlight) (b' : BankId) : (s.setRecord r).peer b' = s.peer b' := by
  cases b' <;> simp [State.peer]

@[simp] theorem State.ctrl_setRecord (s : State) (r : InFlight) (b' : BankId) (sel' : Selector) :
    (s.setRecord r).ctrl b' sel' = s.ctrl b' sel' := by
  simp [State.ctrl]

@[simp] theorem State.peer_releaseLocks (s : State) (c : CallerId) (b' : BankId) : (s.releaseLocks c).peer b' = s.peer b' := by
  cases b' <;> simp [State.peer]

@[simp] theorem State.ctrl_releaseLocks (s : State) (c : CallerId) (b' : BankId) (sel' : Selector) :
    (s.releaseLocks c).ctrl b' sel' = s.ctrl b' sel' := by
  simp [State.ctrl]

@[simp] theorem State.peer_respond (s : State) (r : Response) (b' : BankId) : (s.respond r).peer b' = s.peer b' := by
  cases b' <;> simp [State.peer]

@[simp] theorem State.ctrl_respond (s : State) (r : Response) (b' : BankId) (sel' : Selector) :
    (s.respond r).ctrl b' sel' = s.ctrl b' sel' := by
  simp [State.ctrl]

@[simp] theorem State.peer_drawReply (s : State) (b' : BankId) : s.drawReply.2.peer b' = s.peer b' := by
  cases b' <;> simp [State.peer]

@[simp] theorem State.ctrl_drawReply (s : State) (b' : BankId) (sel' : Selector) :
    s.drawReply.2.ctrl b' sel' = s.ctrl b' sel' := by
  simp [State.ctrl]

end Sys2Proof.Machine
end

