-- ==== Sys2Proof/Laws/Ops.lean ====
section
/-! SUPPORT. For each shared operation, what it can do, said once: register files, the bus primitives, callers, locks,
the end of a command, and the one step of a command (`State.serve_cases`). -/

namespace Sys2Proof.Machine

/-! ### The transport transform -/

@[simp] theorem transform_transform (cfg : Config) (w : RegWord) : transform cfg (transform cfg w) = w := by
  unfold transform; split <;> simp

/-! ### Register files -/

theorem Memory.get_set_self {m : Memory} (h : m.wf) (sel : Selector) (c : CtrlWord) : (m.set sel c).get sel = c :=
  tableGet_set_self _ _ _ h.1

theorem Memory.get_set_of_ne (m : Memory) {sel sel' : Selector} (c : CtrlWord) (h : sel' ≠ sel) :
    (m.set sel c).get sel' = m.get sel' :=
  tableGet_set_of_ne _ _ _ fun h' => h (BitVec.eq_of_toNat_eq h')

/-- A write keeps the canonical form. -/
theorem Memory.set_wf {m : Memory} (h : m.wf) (sel : Selector) {c : CtrlWord} (hc : c.value &&& ~~~ c.known = 0) :
    (m.set sel c).wf := by
  refine ⟨tableSet_wf _ _ h.1, fun e he => ?_⟩
  rcases mem_tableSet he with ⟨rfl, -⟩ | he
  · exact ⟨sel.isLt, hc⟩
  · exact h.2 e he

/-- Every register file after construction, and after reset, is canonical. -/
theorem State.constructed_peer_wf (cfg : Config) (b : BankId) : ((State.constructed cfg).peer b).wf := by
  cases b <;> exact ⟨⟨.nil, by intro e he; cases he⟩, by intro e he; cases he⟩

theorem State.reset_peer_wf (b : BankId) : (State.reset.peer b).wf := State.constructed_peer_wf _ b

/-- A canonical register file retains no value where nothing is known. -/
theorem Memory.get_value {m : Memory} (h : m.wf) (sel : Selector) : (m.get sel).value &&& ~~~ (m.get sel).known = 0 := by
  rcases tableGet_mem_or CtrlWord.unknown m sel.toNat with h' | h'
  · rw [Memory.get, h']; rfl
  · exact (h.2 _ h').2

theorem State.ctrl_setCtrl_self (s : State) {b : BankId} (h : (s.peer b).wf) (sel : Selector) (c : CtrlWord) :
    (s.setCtrl b sel c).ctrl b sel = c := by
  simp [State.ctrl, State.setCtrl, Memory.get_set_self h]

theorem State.ctrl_setCtrl_of_ne (s : State) {b b' : BankId} {sel sel' : Selector} (c : CtrlWord)
    (h : (b', sel') ≠ (b, sel)) : (s.setCtrl b sel c).ctrl b' sel' = s.ctrl b' sel' := by
  by_cases hb : b' = b
  · subst hb
    have : sel' ≠ sel := fun h' => h (by rw [h'])
    simp [State.ctrl, State.setCtrl, Memory.get_set_of_ne _ _ this]
  · simp [State.ctrl, State.setCtrl, State.peer_setPeer_of_ne _ _ hb]

theorem State.peer_setCtrl_wf (s : State) (b : BankId) (sel : Selector) {c : CtrlWord}
    (hc : c.value &&& ~~~ c.known = 0) (h : ∀ b', (s.peer b').wf) (b' : BankId) : ((s.setCtrl b sel c).peer b').wf := by
  by_cases hb : b' = b
  · subst hb; simpa [State.setCtrl] using Memory.set_wf (h b') sel hc
  · simpa [State.setCtrl, State.peer_setPeer_of_ne _ _ hb] using h b'

/-- What a written register retains is its control bits. -/
theorem written_value (cfg : Config) (b : BankId) (sel : Selector) (v : RegWord) :
    (written cfg b sel v).value &&& ~~~ (written cfg b sel v).known = 0 := by
  apply BitVec.eq_of_getLsbD_eq
  intro i hi
  simp [written]
  tauto

/-! ### The bus primitives -/

theorem State.memRead_ok {s : State} {draw : RegWord} (h : s.reply = .ok draw) (b : BankId) (sel : Selector) :
    s.memRead b sel = (.ok (s.wireWord b sel draw), s.drawReply.2.logged (.read b sel (s.wireWord b sel draw))) := by
  simp only [State.reply] at h
  unfold State.memRead
  rw [show s.drawReply = (s.drawReply.1, s.drawReply.2) from rfl, h]

theorem State.memRead_fail {s : State} {low : BitVec 31} (h : s.reply = .fail low) (b : BankId) (sel : Selector) :
    s.memRead b sel =
      (.error (negativeStatus low), s.drawReply.2.logged (.readFailed b sel (negativeStatus low))) := by
  simp only [State.reply] at h
  unfold State.memRead
  rw [show s.drawReply = (s.drawReply.1, s.drawReply.2) from rfl, h]

theorem State.memWrite_ok {s : State} {draw : RegWord} (h : s.reply = .ok draw) (b : BankId) (sel : Selector)
    (v : RegWord) :
    s.memWrite b sel v =
      (.ok (), (s.drawReply.2.setCtrl b sel (written s.cfg b sel v)).logged (.write b sel v)) := by
  simp only [State.reply] at h
  unfold State.memWrite
  rw [show s.drawReply = (s.drawReply.1, s.drawReply.2) from rfl, h]

theorem State.memWrite_fail {s : State} {low : BitVec 31} (h : s.reply = .fail low) (b : BankId) (sel : Selector)
    (v : RegWord) :
    s.memWrite b sel v =
      (.error (negativeStatus low),
        (s.drawReply.2.setCtrl b sel CtrlWord.unknown).logged (.writeFailed b sel v (negativeStatus low))) := by
  simp only [State.reply] at h
  unfold State.memWrite
  rw [show s.drawReply = (s.drawReply.1, s.drawReply.2) from rfl, h]

/-- The first of the replies State holds is the next one, and the rest remain. -/
theorem State.reply_of_bus {s : State} {r : BusReply} {rest : List BusReply} (h : s.bus = r :: rest) :
    s.reply = r ∧ s.drawReply.2.bus = rest := by
  simp [State.reply, State.drawReply, h]

theorem negativeStatus_msb (low : BitVec 31) : (negativeStatus low).msb = true := by
  simp [negativeStatus, BitVec.msb_eq_getLsbD_last]

/-! ### Callers -/

theorem State.caller_setCaller_self (s : State) (c : CallerId) {x : Caller} (h : x ≠ Caller.fresh) :
    (s.setCaller c x).caller c = x :=
  tableGet_set_of_ne_default _ _ _ h

@[simp] theorem State.caller_setCaller_of_ne (s : State) {c c' : CallerId} (x : Caller) (h : c' ≠ c) :
    (s.setCaller c x).caller c' = s.caller c' :=
  tableGet_set_of_ne _ _ _ h

@[simp] theorem State.caller_setRecord_of_ne (s : State) {c' : CallerId} (r : InFlight) (h : c' ≠ s.cur) :
    (s.setRecord r).caller c' = s.caller c' :=
  State.caller_setCaller_of_ne _ _ h

/-- A record other than the idle one is read back. -/
theorem State.caller_setRecord_ne (s : State) {r : InFlight} (h : r ≠ InFlight.idle) :
    (s.setRecord r).caller s.cur = { s.caller s.cur with inFlight := r } :=
  State.caller_setCaller_self _ _ fun h' => h (congrArg Caller.inFlight h')

theorem InFlight.ne_idle_of_busy {r : InFlight} (h : r.phase = .busy) : r ≠ InFlight.idle := fun h' => by
  rw [h'] at h
  cases h

theorem InFlight.ne_idle_of_place {r : InFlight} (h : r.place ≠ .start) : r ≠ InFlight.idle := fun h' => h (by rw [h']; rfl)

/-- A BUSY record is read back. -/
theorem State.caller_setRecord (s : State) {r : InFlight} (h : r.phase = .busy) :
    (s.setRecord r).caller s.cur = { s.caller s.cur with inFlight := r } :=
  s.caller_setRecord_ne (InFlight.ne_idle_of_busy h)

theorem State.record_setRecord (s : State) {r : InFlight} (h : r.phase = .busy) : (s.setRecord r).record = r := by
  simp [State.record, State.caller_setRecord s h]

/-- The last response stays with a caller that goes on. -/
theorem State.response_setRecord_ne (s : State) {r : InFlight} (h : r ≠ InFlight.idle) :
    (s.setRecord r).response = s.response := by
  simp [State.response, State.caller_setRecord_ne s h]

/-! ### The end of a command -/

@[simp] theorem State.caller_respond_self (s : State) (r : Response) :
    (s.respond r).caller s.cur = ⟨InFlight.idle, some r⟩ := by
  simpa [State.respond] using State.caller_setCaller_self s s.cur (x := ⟨InFlight.idle, some r⟩) (by simp [Caller.fresh])

@[simp] theorem State.caller_respond_of_ne (s : State) (r : Response) {c : CallerId} (h : c ≠ s.cur) :
    (s.respond r).caller c = s.caller c := by
  simp [State.respond, h]

@[simp] theorem State.lock_respond (s : State) (r : Response) (b : BankId) :
    (s.respond r).lock b = released s.cur (s.lock b) := by
  simp [State.respond]

@[simp] theorem State.record_respond (s : State) (r : Response) : (s.respond r).record = InFlight.idle := by
  simp [State.record]

@[simp] theorem State.response_respond (s : State) (r : Response) : (s.respond r).response = some r := by
  simp [State.response]

/-- A response ends the command. -/
theorem State.ended_respond (s : State) (r : Response) : Ended s (s.respond r) r where
  response := by simp
  record := by simp
  lock b := by simp [released]

/-! ### Locks -/

/-- Taking locks changes nothing but locks. -/
theorem takeInOrder_eq (c : CallerId) (bs : List BankId) (s : State) :
    ∃ l1 l2, (takeInOrder c bs s).1 = { s with lock1 := l1, lock2 := l2 } := by
  induction bs generalizing s with
  | nil => exact ⟨s.lock1, s.lock2, rfl⟩
  | cons b bs ih =>
    simp only [takeInOrder]
    split
    · obtain ⟨l1, l2, h⟩ := ih (s.setLock b (some c))
      exact ⟨l1, l2, by rw [h]; cases b <;> rfl⟩
    · split_ifs
      · exact ih s
      · exact ⟨s.lock1, s.lock2, rfl⟩

/-- A lock stays as it was, or was FREE and now belongs to the taker, who asked for it. -/
theorem takeInOrder_lock (c : CallerId) (bs : List BankId) (s : State) (b : BankId) :
    (takeInOrder c bs s).1.lock b = s.lock b ∨
      s.lock b = none ∧ b ∈ bs ∧ (takeInOrder c bs s).1.lock b = some c := by
  induction bs generalizing s with
  | nil => exact .inl rfl
  | cons a bs ih =>
    simp only [takeInOrder]
    split
    · rename_i ha
      by_cases hb : b = a
      · subst hb
        rcases ih (s.setLock b (some c)) with h | ⟨h, -, -⟩
        · exact .inr ⟨ha, by simp, by simpa using h⟩
        · simp at h
      · rcases ih (s.setLock a (some c)) with h | ⟨h, hm, h'⟩
        · exact .inl (by simpa [State.lock_setLock_of_ne _ _ hb] using h)
        · exact .inr ⟨by simpa [State.lock_setLock_of_ne _ _ hb] using h, by simp [hm], h'⟩
    · split_ifs
      · exact (ih s).imp id fun ⟨h, hm, h'⟩ => ⟨h, by simp [hm], h'⟩
      · exact .inl rfl

/-- The taker has them all when told so. -/
theorem takeInOrder_all {c : CallerId} {bs : List BankId} {s : State} (h : (takeInOrder c bs s).2 = true) {b : BankId}
    (hb : b ∈ bs) : (takeInOrder c bs s).1.lock b = some c := by
  induction bs generalizing s with
  | nil => simp at hb
  | cons a bs ih =>
    have hkeep : ∀ t : State, t.lock a = some c → (takeInOrder c bs t).1.lock a = some c := fun t ht => by
      rcases takeInOrder_lock c bs t a with h' | ⟨h', -, -⟩
      · rw [h', ht]
      · simp [ht] at h'
    simp only [takeInOrder] at h ⊢
    split at h
    · rcases List.mem_cons.1 hb with rfl | hb
      · exact hkeep _ (by simp)
      · exact ih h hb
    · rename_i x hx
      split_ifs at h ⊢ with hc
      · rcases List.mem_cons.1 hb with rfl | hb
        · exact hkeep _ (by rw [hx, hc])
        · exact ih h hb

/-- Locks that are FREE or its own are all taken. -/
theorem takeInOrder_free {c : CallerId} {bs : List BankId} {s : State}
    (h : ∀ b ∈ bs, s.lock b = none ∨ s.lock b = some c) : (takeInOrder c bs s).2 = true := by
  induction bs generalizing s with
  | nil => rfl
  | cons a bs ih =>
    simp only [takeInOrder]
    split
    · refine ih fun b hb => ?_
      by_cases hba : b = a
      · subst hba; exact .inr (by simp)
      · simpa [State.lock_setLock_of_ne _ _ hba] using h b (by simp [hb])
    · rename_i x hx
      have : x = c := by simpa [hx] using h a (by simp)
      rw [if_pos this]
      exact ih fun b hb => h b (by simp [hb])

/-- Locks all the taker's own already: nothing changes. -/
theorem takeInOrder_own {c : CallerId} {bs : List BankId} {s : State} (h : ∀ b ∈ bs, s.lock b = some c) :
    takeInOrder c bs s = (s, true) := by
  induction bs with
  | nil => rfl
  | cons a bs ih =>
    simp only [takeInOrder, h a (by simp), if_true]
    exact ih fun b hb => h b (by simp [hb])

/-- What the served caller's taking of locks can do: nothing but locks change, each stays or goes from FREE to it. -/
theorem State.takeLocks_eq (s : State) (bs : List BankId) :
    ∃ l1 l2, (s.takeLocks bs).1 = { s with lock1 := l1, lock2 := l2 } := by
  unfold State.takeLocks
  split_ifs
  · exact takeInOrder_eq _ _ _
  · exact ⟨s.lock1, s.lock2, rfl⟩

theorem State.takeLocks_lock (s : State) (bs : List BankId) (b : BankId) :
    (s.takeLocks bs).1.lock b = s.lock b ∨
      s.cfg.serialize = true ∧ s.lock b = none ∧ b ∈ bs ∧ (s.takeLocks bs).1.lock b = some s.cur := by
  unfold State.takeLocks
  split_ifs with h
  · exact (takeInOrder_lock s.cur bs s b).imp id fun h' => ⟨h, h'⟩
  · exact .inl rfl

theorem State.takeLocks_all {s : State} {bs : List BankId} (hs : s.cfg.serialize = true)
    (h : (s.takeLocks bs).2 = true) {b : BankId} (hb : b ∈ bs) : (s.takeLocks bs).1.lock b = some s.cur := by
  unfold State.takeLocks at h ⊢
  rw [if_pos hs] at h ⊢
  exact takeInOrder_all h hb

theorem State.takeLocks_free {s : State} {bs : List BankId} (h : s.locksFree bs) : (s.takeLocks bs).2 = true := by
  unfold State.takeLocks
  split_ifs with hs
  · exact takeInOrder_free (h hs)
  · rfl

theorem State.takeLocks_serialize {s : State} {bs : List BankId} (h : (s.takeLocks bs).2 = false) :
    s.cfg.serialize = true := by
  unfold State.takeLocks at h
  split_ifs at h with hs
  exact hs

/-! ### One step of a command -/

/-- Every meaning is the one step of its command's plan. -/
theorem exec_eq_serve (i : Instr) (s : State) : exec i s = s.serve (planOf i) := by
  cases i <;> rfl

/-- What a read transaction can do. -/
theorem State.readStep_cases (s : State) (p : Plan) (b : BankId) (sel : Selector) :
    (∃ draw, s.reply = .ok draw ∧
      s.readStep p b sel = (s.drawReply.2.logged (.read b sel (s.wireWord b sel draw))).proceed
        (p.afterRead s.record (s.logicalWord b sel draw))) ∨
    (∃ low, s.reply = .fail low ∧
      s.readStep p b sel = (s.drawReply.2.logged (.readFailed b sel (negativeStatus low))).raiseTransport b sel
        (negativeStatus low)) := by
  cases h : s.reply with
  | ok draw => exact .inl ⟨draw, rfl, by simp [State.readStep, State.memRead_ok h, State.logicalWord]⟩
  | fail low => exact .inr ⟨low, rfl, by simp [State.readStep, State.memRead_fail h]⟩

/-- What a write transaction can do. -/
theorem State.writeStep_cases (s : State) (p : Plan) (b : BankId) (sel : Selector) :
    (∃ draw, s.reply = .ok draw ∧
      s.writeStep p b sel =
        ((s.drawReply.2.setCtrl b sel (written s.cfg b sel (transform s.cfg s.record.wbuf))).logged
          (.write b sel (transform s.cfg s.record.wbuf))).proceed (p.afterWrite s.record)) ∨
    (∃ low, s.reply = .fail low ∧
      s.writeStep p b sel =
        ((s.drawReply.2.setCtrl b sel CtrlWord.unknown).logged
          (.writeFailed b sel (transform s.cfg s.record.wbuf) (negativeStatus low))).raiseTransport b sel
            (negativeStatus low)) := by
  cases h : s.reply with
  | ok draw => exact .inl ⟨draw, rfl, by simp [State.writeStep, State.memWrite_ok h]⟩
  | fail low => exact .inr ⟨low, rfl, by simp [State.writeStep, State.memWrite_fail h]⟩

/-- What one transaction of a command can do. -/
theorem State.transact_cases {s t : State} {p : Plan} (h : s.transact p = .next t) :
    ∃ b sel, p.target s.record = some (b, sel) ∧
      (s.record.place = .read ∧ t = s.readStep p b sel ∨ s.record.place = .write ∧ t = s.writeStep p b sel) := by
  unfold State.transact at h
  split at h
  · rename_i b sel h1 h2
    exact ⟨b, sel, h1, .inl ⟨h2, by cases h; rfl⟩⟩
  · rename_i b sel h1 h2
    exact ⟨b, sel, h1, .inr ⟨h2, by cases h; rfl⟩⟩
  · cases h

/-- The record a command enters its first transaction, or its wait, with. -/
def State.entered (s : State) (p : Plan) (place : Place) : InFlight :=
  { p.enter { s.record with phase := .busy } with place := place }

/-- What one step of a command can do: reject it, let it wait for a lock, or make a transaction of it. -/
theorem State.serve_cases {s t : State} {plan : Config → Except Status Plan} (h : s.serve plan = .next t) :
    (∃ e, s.record.place = .start ∧ plan s.cfg = .error e ∧ t = s.raise e) ∨
    (∃ p, (s.record.place = .start ∨ s.record.place = .lock) ∧ plan s.cfg = .ok p ∧
      (s.takeLocks p.locks).2 = false ∧ t = (s.takeLocks p.locks).1.setRecord (s.entered p .lock)) ∨
    (∃ p, (s.record.place = .start ∨ s.record.place = .lock) ∧ plan s.cfg = .ok p ∧
      (s.takeLocks p.locks).2 = true ∧
      ((s.takeLocks p.locks).1.setRecord (s.entered p p.first)).transact p = .next t) ∨
    (∃ p, (s.record.place = .read ∨ s.record.place = .write) ∧ plan s.cfg = .ok p ∧ s.transact p = .next t) := by
  have hbegin : ∀ p, s.begin p = .next t →
      ((s.takeLocks p.locks).2 = false ∧ t = (s.takeLocks p.locks).1.setRecord (s.entered p .lock)) ∨
      ((s.takeLocks p.locks).2 = true ∧
        ((s.takeLocks p.locks).1.setRecord (s.entered p p.first)).transact p = .next t) := fun p hp => by
    unfold State.begin at hp
    split at hp
    · rename_i s1 hl
      exact .inr ⟨by rw [hl], by rw [hl]; exact hp⟩
    · rename_i s1 hl
      exact .inl ⟨by rw [hl], by rw [hl]; cases hp; rfl⟩
  unfold State.serve at h
  split at h
  · rename_i e h1 h2
    exact .inl ⟨e, h1, h2, by cases h; rfl⟩
  · rename_i p h1 h2
    rcases hbegin p h with h' | h'
    · exact .inr (.inl ⟨p, .inl h1, h2, h'⟩)
    · exact .inr (.inr (.inl ⟨p, .inl h1, h2, h'⟩))
  · rename_i p h1 h2
    rcases hbegin p h with h' | h'
    · exact .inr (.inl ⟨p, .inr h1, h2, h'⟩)
    · exact .inr (.inr (.inl ⟨p, .inr h1, h2, h'⟩))
  · rename_i p h1 h2
    exact .inr (.inr (.inr ⟨p, .inl h1, h2, h⟩))
  · rename_i p h1 h2
    exact .inr (.inr (.inr ⟨p, .inr h1, h2, h⟩))
  · cases h

/-- A command whose check fails ends with that check's code (60_exceptions.md R236). -/
theorem State.serve_rejected {s : State} {plan : Config → Except Status Plan} {e : Status}
    (hp : s.record.place = .start) (h : plan s.cfg = .error e) : s.serve plan = .next (s.raise e) := by
  simp [State.serve, hp, h]

/-- A command whose checks pass and whose locks are free makes its first transaction. -/
theorem State.serve_started {s : State} {plan : Config → Except Status Plan} {p : Plan}
    (hp : s.record.place = .start ∨ s.record.place = .lock) (h : plan s.cfg = .ok p) (hl : s.locksFree p.locks) :
    s.serve plan = ((s.takeLocks p.locks).1.setRecord (s.entered p p.first)).transact p := by
  have hb : s.begin p = ((s.takeLocks p.locks).1.setRecord (s.entered p p.first)).transact p := by
    unfold State.begin
    have := State.takeLocks_free hl
    split
    · rename_i s1 h'; rw [h']; rfl
    · rename_i s1 h'; rw [h'] at this; cases this
  rcases hp with hp | hp <;> simp [State.serve, hp, h, hb]

/-- A command under way makes its next transaction. -/
theorem State.serve_running {s : State} {plan : Config → Except Status Plan} {p : Plan}
    (hp : s.record.place = .read ∨ s.record.place = .write) (h : plan s.cfg = .ok p) :
    s.serve plan = s.transact p := by
  rcases hp with hp | hp <;> simp [State.serve, hp, h]

/-- A read transaction takes place. -/
theorem State.transact_read {s : State} {p : Plan} {b : BankId} {sel : Selector} (hp : s.record.place = .read)
    (ht : p.target s.record = some (b, sel)) : s.transact p = .next (s.readStep p b sel) := by
  simp [State.transact, hp, ht]

/-- A write transaction takes place. -/
theorem State.transact_write {s : State} {p : Plan} {b : BankId} {sel : Selector} (hp : s.record.place = .write)
    (ht : p.target s.record = some (b, sel)) : s.transact p = .next (s.writeStep p b sel) := by
  simp [State.transact, hp, ht]

end Sys2Proof.Machine
end

