-- ==== Sys2Proof/Laws/Plans.lean ====
section
/-! SUPPORT. Which plan each command has once its checks pass, and what every such plan keeps: a caller's words, its
BUSY phase, and transactions on banks whose locks it takes. -/

namespace Sys2Proof.Machine

/-! ### Checks -/

theorem checkBank_ok {cfg : Config} {bank : BitVec 2} {b : BankId} : checkBank cfg bank = .ok b ↔ bankOf cfg bank = some b := by
  unfold checkBank; cases bankOf cfg bank <;> simp

theorem checkFeature_ok {feat : BitVec 4} {f : Feature} : checkFeature feat = .ok f ↔ featureOf feat = some f := by
  unfold checkFeature; cases featureOf feat <;> simp

theorem checkPort_ok {cfg : Config} {b : BankId} {port : BitVec 8} {p : Nat} :
    checkPort cfg b port = .ok p ↔ port.toNat < cfg.ports b ∧ p = port.toNat := by
  unfold checkPort; split_ifs with h <;> simp [h, eq_comm]

theorem checkRoute_ok {cfg : Config} {gport : BitVec 8} {bp : BankId × Nat} :
    checkRoute cfg gport = .ok bp ↔ route cfg gport.toNat = some bp := by
  unfold checkRoute; cases route cfg gport.toNat <;> simp

theorem checkWritable_ok {cfg : Config} {f : Feature} {u : Unit} :
    checkWritable cfg f = .ok u ↔ (cfg.info f).writable = true := by
  unfold checkWritable; split_ifs with h <;> simp [h]

theorem checkBank_some {cfg : Config} {bank : BitVec 2} {b : BankId} (h : bankOf cfg bank = some b) :
    checkBank cfg bank = .ok b := checkBank_ok.2 h

theorem checkFeature_some {feat : BitVec 4} {f : Feature} (h : featureOf feat = some f) :
    checkFeature feat = .ok f := checkFeature_ok.2 h

theorem checkPort_lt {cfg : Config} {b : BankId} {port : BitVec 8} (h : port.toNat < cfg.ports b) :
    checkPort cfg b port = .ok port.toNat := checkPort_ok.2 ⟨h, rfl⟩

theorem checkRoute_some {cfg : Config} {gport : BitVec 8} {bp : BankId × Nat} (h : route cfg gport.toNat = some bp) :
    checkRoute cfg gport = .ok bp := checkRoute_ok.2 h

theorem checkWritable_true {cfg : Config} {f : Feature} (h : (cfg.info f).writable = true) :
    checkWritable cfg f = .ok () := checkWritable_ok.2 h

/-- A sequence of checks passes exactly when each does. -/
theorem bind_eq_ok {α β : Type} {x : Except Status α} {k : α → Except Status β} {y : β} :
    (x >>= k) = .ok y ↔ ∃ a, x = .ok a ∧ k a = .ok y := by
  cases x <;> simp [bind, Except.bind]

/-! ### The plan of a command -/

theorem ReadsMask.plan {cfg : Config} {f : Feature} {visit : List BankId} {shift : BankId → Nat} {i : Instr}
    (h : ReadsMask cfg f visit shift i) : planOf i cfg = .ok (readMask cfg f visit shift) := by
  cases i <;> simp only [ReadsMask] at h
  · obtain ⟨b, h1, h2, rfl, rfl⟩ := h
    simp [planOf, planGetm, checkBank_some h1, checkFeature_some h2, bind, Except.bind, pure, Except.pure]
  · obtain ⟨h1, rfl, rfl⟩ := h
    simp [planOf, planMgetm, checkFeature_some h1, bind, Except.bind, pure, Except.pure]

theorem WritesMask.plan {cfg : Config} {f : Feature} {visit : List BankId} {shift : BankId → Nat} {mask : Word32}
    {i : Instr} (h : WritesMask cfg f visit shift mask i) :
    planOf i cfg = .ok (writeMask cfg f visit shift mask) := by
  cases i <;> simp only [WritesMask] at h
  · obtain ⟨b, h1, h2, h3, rfl, rfl, rfl⟩ := h
    simp [planOf, planSetm, checkBank_some h1, checkFeature_some h2, checkWritable_true h3, bind, Except.bind, pure,
      Except.pure]
  · obtain ⟨h1, h3, rfl, rfl, rfl⟩ := h
    simp [planOf, planMsetm, checkFeature_some h1, checkWritable_true h3, bind, Except.bind, pure, Except.pure]

theorem ReadsPort.plan {cfg : Config} {f : Feature} {b : BankId} {p : Nat} {i : Instr}
    (h : ReadsPort cfg f b p i) : planOf i cfg = .ok (readPort cfg f b p) := by
  cases i <;> simp only [ReadsPort] at h
  · obtain ⟨h1, h2, h3, rfl⟩ := h
    simp [planOf, planGetp, checkBank_some h1, checkFeature_some h2, checkPort_lt h3, bind, Except.bind, pure,
      Except.pure]
  · obtain ⟨h1, h2⟩ := h
    simp [planOf, planMgetp, checkFeature_some h1, checkRoute_some h2, bind, Except.bind, pure, Except.pure]

theorem WritesPort.plan {cfg : Config} {f : Feature} {b : BankId} {p : Nat} {v : Bool} {i : Instr}
    (h : WritesPort cfg f b p v i) : planOf i cfg = .ok (writePort cfg f b p v) := by
  cases i <;> simp only [WritesPort] at h
  · obtain ⟨h1, h2, h3, h4, rfl, rfl⟩ := h
    simp [planOf, planSetp, checkBank_some h1, checkFeature_some h2, checkPort_lt h3, checkWritable_true h4, bind,
      Except.bind, pure, Except.pure]
  · obtain ⟨h1, h2, h3, rfl⟩ := h
    simp [planOf, planMsetp, checkFeature_some h1, checkRoute_some h2, checkWritable_true h3, bind, Except.bind, pure,
      Except.pure]

/-- The visit list of a mask command: one bank of the instance, or all of them. -/
def VisitOk (cfg : Config) (visit : List BankId) : Prop := (∃ b ∈ cfg.banks, visit = [b]) ∨ visit = cfg.banks

theorem ReadsMask.visit {cfg : Config} {f : Feature} {visit : List BankId} {shift : BankId → Nat} {i : Instr}
    (h : ReadsMask cfg f visit shift i) : VisitOk cfg visit := by
  cases i <;> simp only [ReadsMask] at h
  · obtain ⟨b, h1, -, rfl, -⟩ := h
    exact .inl ⟨b, (bankOf_eq_some h1).1, rfl⟩
  · exact .inr h.2.1

theorem WritesMask.visit {cfg : Config} {f : Feature} {visit : List BankId} {shift : BankId → Nat} {mask : Word32}
    {i : Instr} (h : WritesMask cfg f visit shift mask i) : VisitOk cfg visit := by
  cases i <;> simp only [WritesMask] at h
  · obtain ⟨b, h1, -, -, -, rfl, -⟩ := h
    exact .inl ⟨b, (bankOf_eq_some h1).1, rfl⟩
  · exact .inr h.2.2.2.1

theorem ReadsPort.bank {cfg : Config} {f : Feature} {b : BankId} {p : Nat} {i : Instr} (h : ReadsPort cfg f b p i) :
    b ∈ cfg.banks ∧ p < cfg.ports b := by
  cases i <;> simp only [ReadsPort] at h
  · obtain ⟨h1, -, h3, rfl⟩ := h
    exact ⟨(bankOf_eq_some h1).1, h3⟩
  · obtain ⟨h1, h2, h3, rfl⟩ := route_eq_some h.2
    exact ⟨h1, by omega⟩

theorem WritesPort.bank {cfg : Config} {f : Feature} {b : BankId} {p : Nat} {v : Bool} {i : Instr}
    (h : WritesPort cfg f b p v i) : b ∈ cfg.banks ∧ p < cfg.ports b ∧ (cfg.info f).writable = true := by
  cases i <;> simp only [WritesPort] at h
  · obtain ⟨h1, -, h3, h4, rfl, -⟩ := h
    exact ⟨(bankOf_eq_some h1).1, h3, h4⟩
  · obtain ⟨h1, h2, h3, rfl⟩ := route_eq_some h.2.1
    exact ⟨h1, by omega, h.2.2.1⟩

theorem WritesMask.writable {cfg : Config} {f : Feature} {visit : List BankId} {shift : BankId → Nat} {mask : Word32}
    {i : Instr} (h : WritesMask cfg f visit shift mask i) : (cfg.info f).writable = true := by
  cases i <;> simp only [WritesMask] at h
  · obtain ⟨b, -, -, h3, -⟩ := h
    exact h3
  · exact h.2.1

/-- The six shapes of a plan. -/
inductive PlanShape (cfg : Config) : Instr → Plan → Prop
  | readWord {bank sel b} (h : bankOf cfg bank = some b) : PlanShape cfg (.rdw bank sel) (readWord b sel)
  | writeWord {bank sel word b} (h : bankOf cfg bank = some b) :
      PlanShape cfg (.wrw bank sel word) (writeWord b sel word)
  | readMask {i f visit shift} (h : ReadsMask cfg f visit shift i) : PlanShape cfg i (readMask cfg f visit shift)
  | writeMask {i f visit shift mask} (h : WritesMask cfg f visit shift mask i) :
      PlanShape cfg i (writeMask cfg f visit shift mask)
  | readPort {i f b p} (h : ReadsPort cfg f b p i) : PlanShape cfg i (readPort cfg f b p)
  | writePort {i f b p v} (h : WritesPort cfg f b p v i) : PlanShape cfg i (writePort cfg f b p v)

/-- A command whose checks pass has one of the six plans. -/
theorem planShape {cfg : Config} {i : Instr} {p : Plan} (h : planOf i cfg = .ok p) : PlanShape cfg i p := by
  cases i <;>
    simp only [planOf, planRdw, planWrw, planGetm, planSetm, planGetp, planSetp, planMgetm, planMsetm, planMgetp,
      planMsetp, bind_eq_ok, checkBank_ok, checkFeature_ok, checkPort_ok, checkRoute_ok, checkWritable_ok, pure,
      Except.pure, Except.ok.injEq] at h
  · obtain ⟨b, hb, rfl⟩ := h
    exact .readWord hb
  · obtain ⟨b, hb, rfl⟩ := h
    exact .writeWord hb
  · obtain ⟨b, hb, f, hf, rfl⟩ := h
    exact .readMask ⟨b, hb, hf, rfl, rfl⟩
  · obtain ⟨b, hb, f, hf, -, hw, rfl⟩ := h
    exact .writeMask ⟨b, hb, hf, hw, rfl, rfl, rfl⟩
  · obtain ⟨b, hb, f, hf, p, ⟨hp, rfl⟩, rfl⟩ := h
    exact .readPort ⟨hb, hf, hp, rfl⟩
  · obtain ⟨b, hb, f, hf, p, ⟨hp, rfl⟩, -, hw, rfl⟩ := h
    exact .writePort ⟨hb, hf, hp, hw, rfl, rfl⟩
  · obtain ⟨f, hf, rfl⟩ := h
    exact .readMask ⟨hf, rfl, rfl⟩
  · obtain ⟨f, hf, -, hw, rfl⟩ := h
    exact .writeMask ⟨hf, hw, rfl, rfl, rfl⟩
  · obtain ⟨f, hf, bp, hbp, rfl⟩ := h
    exact .readPort ⟨hf, hbp⟩
  · obtain ⟨f, hf, bp, hbp, -, hw, rfl⟩ := h
    exact .writePort ⟨hf, hbp, hw, rfl⟩

theorem bind_eq_error {α β : Type} {x : Except Status α} {k : α → Except Status β} {e : Status}
    (h : (x >>= k) = .error e) : x = .error e ∨ ∃ a, k a = .error e := by
  cases x with
  | error e' => exact .inl (by simpa [bind, Except.bind] using h)
  | ok a => exact .inr ⟨a, h⟩

/-- A check fails with INVALID_SELECTOR or UNSUPPORTED_OPERATION (60_exceptions.md R236). -/
theorem planOf_error {i : Instr} {cfg : Config} {e : Status} (h : planOf i cfg = .error e) :
    e = .invalidSelector ∨ e = .unsupportedOperation := by
  have hb : ∀ {bank e}, checkBank cfg bank = .error e → e = .invalidSelector := by
    intro bank e h; unfold checkBank at h; split at h <;> cases h; rfl
  have hf : ∀ {feat e}, checkFeature feat = .error e → e = .invalidSelector := by
    intro bank e h; unfold checkFeature at h; split at h <;> cases h; rfl
  have hp : ∀ {b port e}, checkPort cfg b port = .error e → e = .invalidSelector := by
    intro b port e h; unfold checkPort at h; split_ifs at h; cases h; rfl
  have hr : ∀ {g e}, checkRoute cfg g = .error e → e = .invalidSelector := by
    intro g e h; unfold checkRoute at h; split at h <;> cases h; rfl
  have hw : ∀ {f e}, checkWritable cfg f = .error e → e = .unsupportedOperation := by
    intro f e h; unfold checkWritable at h; split_ifs at h; cases h; rfl
  cases i <;> simp only [planOf, planRdw, planWrw, planGetm, planSetm, planGetp, planSetp, planMgetm, planMsetm,
    planMgetp, planMsetp] at h
  all_goals
    repeat' (rcases bind_eq_error h with h | ⟨_, h⟩)
    all_goals first
      | exact .inl (hb h) | exact .inl (hf h) | exact .inl (hp h) | exact .inl (hr h) | exact .inr (hw h) | cases h

/-! ### What every plan keeps -/

/-- A record of the same command, still BUSY. -/
def SameCommand (r r' : InFlight) : Prop := r'.phase = r.phase ∧ r'.cmd = r.cmd ∧ r'.data = r.data

theorem SameCommand.trans {r r' r'' : InFlight} (h : SameCommand r r') (h' : SameCommand r' r'') : SameCommand r r'' :=
  ⟨h'.1.trans h.1, h'.2.1.trans h.2.1, h'.2.2.trans h.2.2⟩

/-- The place of a record that makes transactions. -/
def Place.active (p : Place) : Prop := p = .read ∨ p = .write

/-- The banks after the first in a list are in the list. -/
theorem nextBank_mem {visit : List BankId} {b b' : BankId} (h : nextBank visit b = some b') : b' ∈ visit := by
  induction visit with
  | nil => simp [nextBank] at h
  | cons x t ih =>
    cases t with
    | nil => simp [nextBank] at h
    | cons y t =>
      simp only [nextBank] at h
      split_ifs at h with hx
      · obtain rfl : y = b' := by simpa using h
        simp
      · exact List.mem_cons_of_mem _ (ih h)

theorem PlanShape.enter {cfg : Config} {i : Instr} {p : Plan} (h : PlanShape cfg i p) (r : InFlight) :
    SameCommand r (p.enter r) := by
  cases h <;> exact ⟨rfl, rfl, rfl⟩

theorem PlanShape.first {cfg : Config} {i : Instr} {p : Plan} (h : PlanShape cfg i p) : p.first.active := by
  cases h <;> simp [Place.active, Machine.readWord, Machine.writeWord, Machine.readMask, Machine.writeMask,
    Machine.readPort, Machine.writePort]

/-- A transaction reaches a bank whose lock the command takes. -/
theorem PlanShape.target_mem {cfg : Config} {i : Instr} {p : Plan} (h : PlanShape cfg i p) {r : InFlight} {b : BankId}
    {sel : Selector} (ht : p.target r = some (b, sel)) : b ∈ p.locks := by
  cases h with
  | readWord h | writeWord h =>
    simp only [Machine.readWord, Machine.writeWord] at ht ⊢
    split_ifs at ht
    simp_all
  | readMask h =>
    simp only [Machine.readMask, currentRegister] at ht ⊢
    split_ifs at ht
    obtain ⟨e, -, he⟩ := Option.map_eq_some_iff.1 ht
    simp only [Prod.mk.injEq] at he
    exact he.1 ▸ ‹_›
  | writeMask h =>
    simp only [Machine.writeMask, currentRegister] at ht ⊢
    split_ifs at ht
    obtain ⟨e, -, he⟩ := Option.map_eq_some_iff.1 ht
    simp only [Prod.mk.injEq] at he
    exact he.1 ▸ ‹_›
  | readPort h =>
    simp only [Machine.readPort, portRegister] at ht ⊢
    split_ifs at ht
    obtain ⟨ks, -, ht⟩ := Option.bind_eq_some_iff.1 ht
    obtain ⟨e, -, he⟩ := Option.map_eq_some_iff.1 ht
    simp_all
  | writePort h =>
    simp only [Machine.writePort, portRegister] at ht ⊢
    obtain ⟨ks, -, ht⟩ := Option.bind_eq_some_iff.1 ht
    obtain ⟨e, -, he⟩ := Option.map_eq_some_iff.1 ht
    simp_all

theorem currentRegister_mem {cfg : Config} {visit : List BankId} {r : InFlight} {b : BankId} {sel : Selector}
    (h : currentRegister cfg visit r = some (b, sel)) :
    b = r.b ∧ b ∈ visit ∧ ∃ e, cfg.entry? b r.k = some e ∧ e.sel = sel := by
  unfold currentRegister at h
  split_ifs at h with hb
  obtain ⟨e, he, hx⟩ := Option.map_eq_some_iff.1 h
  obtain ⟨rfl, rfl⟩ := Prod.mk.inj hx
  exact ⟨rfl, hb, e, he, rfl⟩

theorem portRegister_mem {cfg : Config} {b b' : BankId} {p : Nat} {sel : Selector}
    (h : portRegister cfg b p = some (b', sel)) :
    b' = b ∧ ∃ k slot e, locate cfg b p = some (k, slot) ∧ cfg.entry? b k = some e ∧ e.sel = sel := by
  obtain ⟨⟨k, slot⟩, hl, h⟩ := Option.bind_eq_some_iff.1 h
  obtain ⟨e, he, hx⟩ := Option.map_eq_some_iff.1 h
  obtain ⟨rfl, rfl⟩ := Prod.mk.inj hx
  exact ⟨rfl, k, slot, e, hl, he, rfl⟩

/-- The bank of a transaction is a bank of the instance. -/
theorem PlanShape.locks_banks {cfg : Config} {i : Instr} {p : Plan} (h : PlanShape cfg i p) {b : BankId}
    (hb : b ∈ p.locks) : b ∈ cfg.banks := by
  cases h with
  | readWord h | writeWord h =>
    simp only [Machine.readWord, Machine.writeWord, List.mem_singleton] at hb
    exact hb ▸ (bankOf_eq_some h).1
  | readMask h =>
    rcases h.visit with ⟨b', hb', rfl⟩ | rfl
    · simp only [Machine.readMask, List.mem_singleton] at hb
      exact hb ▸ hb'
    · exact hb
  | writeMask h =>
    rcases h.visit with ⟨b', hb', rfl⟩ | rfl
    · simp only [Machine.writeMask, List.mem_singleton] at hb
      exact hb ▸ hb'
    · exact hb
  | readPort h =>
    simp only [Machine.readPort, List.mem_singleton] at hb
    exact hb ▸ h.bank.1
  | writePort h =>
    simp only [Machine.writePort, List.mem_singleton] at hb
    exact hb ▸ h.bank.1

theorem VisitOk.banks {cfg : Config} {visit : List BankId} (h : VisitOk cfg visit) {b : BankId} (hb : b ∈ visit) :
    b ∈ cfg.banks := by
  rcases h with ⟨b', hb', rfl⟩ | rfl
  · rw [List.mem_singleton] at hb; exact hb ▸ hb'
  · exact hb

theorem VisitOk.ne_nil {cfg : Config} {visit : List BankId} (h : VisitOk cfg visit) : visit ≠ [] := by
  rcases h with ⟨b', -, rfl⟩ | rfl
  · simp
  · unfold Config.banks; split <;> simp

theorem VisitOk.nodup {cfg : Config} {visit : List BankId} (h : VisitOk cfg visit) : visit.Nodup := by
  rcases h with ⟨b', -, rfl⟩ | rfl
  · simp
  · unfold Config.banks; split <;> simp

theorem VisitOk.head {cfg : Config} {visit : List BankId} (h : VisitOk cfg visit) : visit.headD .one ∈ visit := by
  have := h.ne_nil
  cases visit with
  | nil => exact absurd rfl this
  | cons a t => simp

/-- Every bank of a well-formed instance has a first register. -/
theorem currentRegister_isSome {cfg : Config} {visit : List BankId} {r : InFlight} (hb : r.b ∈ visit)
    (hk : r.k < cfg.nreg r.b) : (currentRegister cfg visit r).isSome := by
  obtain ⟨e, he⟩ := Config.entry?_of_lt hk
  simp [currentRegister, hb, he]

theorem Config.nreg_pos {cfg : Config} (h : cfg.wf = true) {b : BankId} (hb : b ∈ cfg.banks) : 0 < cfg.nreg b := by
  have := (Config.wf_descriptor h hb).1
  exact List.length_pos_iff.2 this

theorem portRegister_isSome {cfg : Config} (h : cfg.wf = true) {b : BankId} (hb : b ∈ cfg.banks) {p : Nat}
    (hp : p < cfg.ports b) : (portRegister cfg b p).isSome := by
  obtain ⟨k, e, hl, he, -⟩ := Config.locate_some h hb hp
  simp [portRegister, hl, he]

theorem portRegister_eq {cfg : Config} {b : BankId} {p k slot : Nat} {e : Entry} (hl : locate cfg b p = some (k, slot))
    (he : cfg.entry? b k = some e) : portRegister cfg b p = some (b, e.sel) := by
  simp [portRegister, hl, he]

theorem portBit_eq {cfg : Config} {f : Feature} {b : BankId} {p k slot : Nat} (hl : locate cfg b p = some (k, slot)) :
    portBit cfg f b p = 4 * slot + (cfg.info f).off.toNat := by
  simp [portBit, hl, bitPos]

/-- The first transaction of a command of a well-formed instance reaches a register. -/
theorem PlanShape.enter_target {cfg : Config} {i : Instr} {p : Plan} (h : PlanShape cfg i p) (hw : cfg.wf = true)
    (r : InFlight) : (p.target { p.enter r with place := p.first }).isSome := by
  cases h with
  | readWord h | writeWord h => simp [Machine.readWord, Machine.writeWord]
  | readMask h =>
    exact currentRegister_isSome (r := { (Machine.readMask _ _ _ _).enter r with place := .read }) h.visit.head
      (Config.nreg_pos hw (h.visit.banks h.visit.head))
  | writeMask h =>
    exact currentRegister_isSome (r := { (Machine.writeMask _ _ _ _ _).enter r with place := .read }) h.visit.head
      (Config.nreg_pos hw (h.visit.banks h.visit.head))
  | readPort h => exact portRegister_isSome hw h.bank.1 h.bank.2
  | writePort h => exact portRegister_isSome hw h.bank.1 h.bank.2.1

/-- What a record a command goes on with keeps: the command's words, its phase, and, where the configuration
is well formed, a next transaction. -/
structure GoesOn (cfg : Config) (p : Plan) (r r' : InFlight) : Prop where
  same   : SameCommand r r'
  active : r'.place.active
  target : cfg.wf = true → (p.target r').isSome

/-- A command that goes on after a read. -/
theorem PlanShape.afterRead {cfg : Config} {i : Instr} {p : Plan} (h : PlanShape cfg i p)
    {r r' : InFlight} {w : RegWord} (ht : (p.target r).isSome) (hp : r.place = .read)
    (hr : p.afterRead r w = .go r') : GoesOn cfg p r r' := by
  cases h with
  | readWord h => cases hr
  | writeWord h => simp [Machine.writeWord, hp] at ht
  | @readMask _ _ visit _ h =>
    simp only [Machine.readMask, hp, if_true, currentRegister] at ht hr
    by_cases hb : r.b ∈ visit
    · split_ifs at hr with hk
      · cases hr
        exact ⟨⟨rfl, rfl, rfl⟩, .inl rfl, fun _ => currentRegister_isSome hb hk⟩
      · split at hr
        · rename_i b hn
          cases hr
          exact ⟨⟨rfl, rfl, rfl⟩, .inl rfl, fun hw => currentRegister_isSome (nextBank_mem hn)
            (Config.nreg_pos hw (h.visit.banks (nextBank_mem hn)))⟩
        · cases hr
    · rw [if_neg hb] at ht
      cases ht
  | writeMask h =>
    cases hr
    exact ⟨⟨rfl, rfl, rfl⟩, .inr rfl, fun _ => ht⟩
  | readPort h => cases hr
  | writePort h =>
    cases hr
    exact ⟨⟨rfl, rfl, rfl⟩, .inr rfl, fun _ => ht⟩

/-- A command that goes on after a write. -/
theorem PlanShape.afterWrite {cfg : Config} {i : Instr} {p : Plan} (h : PlanShape cfg i p)
    {r r' : InFlight} (ht : (p.target r).isSome) (hr : p.afterWrite r = .go r') : GoesOn cfg p r r' := by
  cases h with
  | readWord h => cases hr
  | writeWord h => cases hr
  | readMask h => cases hr
  | @writeMask _ _ visit _ _ h =>
    simp only [Machine.writeMask, currentRegister] at ht hr
    by_cases hb : r.b ∈ visit
    · split_ifs at hr with hk
      · cases hr
        exact ⟨⟨rfl, rfl, rfl⟩, .inl rfl, fun _ => currentRegister_isSome hb hk⟩
      · split at hr
        · rename_i b hn
          cases hr
          exact ⟨⟨rfl, rfl, rfl⟩, .inl rfl, fun hw => currentRegister_isSome (nextBank_mem hn)
            (Config.nreg_pos hw (h.visit.banks (nextBank_mem hn)))⟩
        · cases hr
    · rw [if_neg hb] at ht
      cases ht
  | readPort h => cases hr
  | writePort h => cases hr

/-! ### The plans, place by place -/

theorem currentRegister_eq {cfg : Config} {visit : List BankId} {r : InFlight} {e : Entry} (hb : r.b ∈ visit)
    (he : cfg.entry? r.b r.k = some e) : currentRegister cfg visit r = some (r.b, e.sel) := by
  simp [currentRegister, hb, he]

theorem readMask_target {cfg : Config} {f : Feature} {visit : List BankId} {shift : BankId → Nat} {r : InFlight}
    {e : Entry} (hp : r.place = .read) (hb : r.b ∈ visit) (he : cfg.entry? r.b r.k = some e) :
    (readMask cfg f visit shift).target r = some (r.b, e.sel) := by
  rw [← currentRegister_eq hb he]
  simp [readMask, hp]

theorem writeMask_target {cfg : Config} {f : Feature} {visit : List BankId} {shift : BankId → Nat} {mask : Word32}
    {r : InFlight} {e : Entry} (hb : r.b ∈ visit) (he : cfg.entry? r.b r.k = some e) :
    (writeMask cfg f visit shift mask).target r = some (r.b, e.sel) :=
  currentRegister_eq hb he

theorem readPort_target {cfg : Config} {f : Feature} {b : BankId} {p k slot : Nat} {r : InFlight} {e : Entry}
    (hp : r.place = .read) (hl : locate cfg b p = some (k, slot)) (he : cfg.entry? b k = some e) :
    (readPort cfg f b p).target r = some (b, e.sel) := by
  simp [readPort, hp, portRegister_eq hl he]

theorem writePort_target {cfg : Config} {f : Feature} {b : BankId} {p k slot : Nat} {v : Bool} (r : InFlight) {e : Entry}
    (hl : locate cfg b p = some (k, slot)) (he : cfg.entry? b k = some e) :
    (writePort cfg f b p v).target r = some (b, e.sel) :=
  portRegister_eq hl he

/-- After a read of `readMask` at an entry that is not the last of its bank. -/
theorem readMask_more {cfg : Config} {f : Feature} {visit : List BankId} {shift : BankId → Nat} {r : InFlight}
    {e : Entry} (he : cfg.entry? r.b r.k = some e) (hk : r.k + 1 < cfg.nreg r.b) (w : RegWord) :
    (readMask cfg f visit shift).afterRead r w =
      .go { r with k := r.k + 1, acc := gather (cfg.info f).off e.start w e.count r.acc, wbuf := w } := by
  simp [readMask, hk, Config.entry_of_entry? he]

/-- After the read of a bank's last entry, another bank to come. -/
theorem readMask_next {cfg : Config} {f : Feature} {visit : List BankId} {shift : BankId → Nat} {r : InFlight}
    {e : Entry} {b : BankId} (he : cfg.entry? r.b r.k = some e) (hk : cfg.nreg r.b ≤ r.k + 1)
    (hn : nextBank visit r.b = some b) (w : RegWord) :
    (readMask cfg f visit shift).afterRead r w =
      .go { r with
        b := b, k := 0, acc := 0, wbuf := w,
        g := r.g ||| present (cfg.info f).pol (gather (cfg.info f).off e.start w e.count r.acc) (cfg.ports r.b)
          <<< shift r.b } := by
  simp [readMask, Nat.not_lt.2 hk, Config.entry_of_entry? he, hn]

/-- After the last read. -/
theorem readMask_done {cfg : Config} {f : Feature} {visit : List BankId} {shift : BankId → Nat} {r : InFlight}
    {e : Entry} (he : cfg.entry? r.b r.k = some e) (hk : cfg.nreg r.b ≤ r.k + 1)
    (hn : nextBank visit r.b = none) (w : RegWord) :
    (readMask cfg f visit shift).afterRead r w =
      .done (r.g ||| present (cfg.info f).pol (gather (cfg.info f).off e.start w e.count r.acc) (cfg.ports r.b)
        <<< shift r.b) := by
  simp [readMask, Nat.not_lt.2 hk, Config.entry_of_entry? he, hn]

/-- After a read of `writeMask`: the write of the same register. -/
theorem writeMask_afterRead {cfg : Config} {f : Feature} {visit : List BankId} {shift : BankId → Nat} {mask : Word32}
    {r : InFlight} {e : Entry} (he : cfg.entry? r.b r.k = some e) (w : RegWord) :
    (writeMask cfg f visit shift mask).afterRead r w =
      .go { r with wbuf := scatter (cfg.info f).off e.start r.acc e.count w, place := .write } := by
  simp [writeMask, Config.entry_of_entry? he]

/-- After a write of `writeMask` at an entry that is not the last of its bank. -/
theorem writeMask_more {cfg : Config} {f : Feature} {visit : List BankId} {shift : BankId → Nat} {mask : Word32}
    {r : InFlight} (hk : r.k + 1 < cfg.nreg r.b) :
    (writeMask cfg f visit shift mask).afterWrite r = .go { r with k := r.k + 1, place := .read } := by
  simp [writeMask, hk]

/-- After the write of a bank's last entry, another bank to come. -/
theorem writeMask_next {cfg : Config} {f : Feature} {visit : List BankId} {shift : BankId → Nat} {mask : Word32}
    {r : InFlight} {b : BankId} (hk : cfg.nreg r.b ≤ r.k + 1) (hn : nextBank visit r.b = some b) :
    (writeMask cfg f visit shift mask).afterWrite r =
      .go { r with b := b, k := 0, acc := hardwareMask cfg f mask shift b, place := .read } := by
  simp [writeMask, Nat.not_lt.2 hk, hn]

/-- After the last write. -/
theorem writeMask_done {cfg : Config} {f : Feature} {visit : List BankId} {shift : BankId → Nat} {mask : Word32}
    {r : InFlight} (hk : cfg.nreg r.b ≤ r.k + 1) (hn : nextBank visit r.b = none) :
    (writeMask cfg f visit shift mask).afterWrite r = .done 0 := by
  simp [writeMask, Nat.not_lt.2 hk, hn]

end Sys2Proof.Machine
end

