-- ==== Sys2Proof/Laws/Command.lean ====
section
/-! SUPPORT. One step of a command in the words of Safety: the state in which its transaction is made (`Entering`), the
state right after the transaction (`After`), and what going on or ending then gives. -/

namespace Sys2Proof.Machine

theorem SameOutside.refl (s : State) : SameOutside s s := ⟨rfl, rfl, rfl, rfl, rfl, fun _ _ => rfl⟩

theorem SameOutside.trans {s t u : State} (h : SameOutside s t) (h' : SameOutside t u) : SameOutside s u where
  cfg := h'.cfg.trans h.cfg
  attached1 := h'.attached1.trans h.attached1
  attached2 := h'.attached2.trans h.attached2
  cur := h'.cur.trans h.cur
  inputs := h'.inputs.trans h.inputs
  callers c hc := (h'.callers c (by rw [h.cur]; exact hc)).trans (h.callers c hc)

/-- The last response stays with a caller that goes on. -/
theorem State.response_setRecord (s : State) {r : InFlight} (h : r.phase = .busy) :
    (s.setRecord r).response = s.response :=
  s.response_setRecord_ne (InFlight.ne_idle_of_busy h)

/-- How the locks may differ between two moments of one command of the served caller: it may have taken FREE ones of
its plan. -/
def LocksTaken (s t : State) (p : Plan) : Prop :=
  ∀ b, t.lock b = s.lock b ∨ s.cfg.serialize = true ∧ s.lock b = none ∧ b ∈ p.locks ∧ t.lock b = some s.cur

theorem LocksTaken.refl (s : State) (p : Plan) : LocksTaken s s p := fun _ => .inl rfl

theorem LocksTaken.others {s t : State} {p : Plan} (h : LocksTaken s t p) (b : BankId) {c : CallerId}
    (hc : c ≠ s.cur) : t.lock b = some c ↔ s.lock b = some c := by
  rcases h b with h | ⟨-, h1, -, h2⟩
  · rw [h]
  · simp [h1, h2, Ne.symm hc]

theorem LocksTaken.released {s t : State} {p : Plan} (h : LocksTaken s t p) (b : BankId) :
    released s.cur (t.lock b) = if s.lock b = some s.cur then none else s.lock b := by
  unfold Machine.released
  rcases h b with h | ⟨-, h1, -, h2⟩
  · rw [h]
  · simp [h1, h2]

/-- Who holds a lock afterwards held it before, or is the served caller, whose plan takes it. -/
theorem LocksTaken.holder {s t : State} {p : Plan} (h : LocksTaken s t p) {b : BankId} {c : CallerId}
    (hc : t.lock b = some c) : s.lock b = some c ∨ s.cfg.serialize = true ∧ b ∈ p.locks ∧ c = s.cur := by
  rcases h b with h | ⟨h0, -, h1, h2⟩
  · exact .inl (by rw [← h]; exact hc)
  · exact .inr ⟨h0, h1, by rw [h2] at hc; exact (Option.some.inj hc).symm⟩

/-- The callers' table stays canonical. -/
def CallersKept (s t : State) : Prop := tableWf Caller.fresh s.callers → tableWf Caller.fresh t.callers

theorem CallersKept.refl (s : State) : CallersKept s s := id

theorem CallersKept.setCaller {s t : State} (h : CallersKept s t) (c : CallerId) (x : Caller) :
    CallersKept s (t.setCaller c x) := fun hw => tableSet_wf _ _ (h hw)

theorem CallersKept.setRecord {s t : State} (h : CallersKept s t) (r : InFlight) : CallersKept s (t.setRecord r) :=
  h.setCaller _ _

theorem CallersKept.respond {s t : State} (h : CallersKept s t) (r : Response) : CallersKept s (t.respond r) :=
  h.setCaller _ _

theorem CallersKept.proceed {s t : State} (h : CallersKept s t) (q : Progress) : CallersKept s (t.proceed q) := by
  cases q with
  | go r => exact h.setRecord r
  | done x => exact h.respond _

/-- The state in which the served caller of `s` makes its due transaction. -/
structure Entering (s s1 : State) (p : Plan) : Prop where
  outside  : SameOutside s s1
  peer     : ∀ b, s1.peer b = s.peer b
  bus      : s1.bus = s.bus
  drawn    : s1.drawn = s.drawn
  log      : s1.log = s.log
  record   : s1.record = s.dueRecord p
  response : s1.response = s.response
  lock     : LocksTaken s s1 p
  kept     : CallersKept s s1
  held     : s.cfg.serialize = true → s.record.place = .start ∨ s.record.place = .lock → ∀ b ∈ p.locks,
    s1.lock b = some s.cur

theorem Entering.ctrl {s s1 : State} {p : Plan} (h : Entering s s1 p) (b : BankId) (sel : Selector) :
    s1.ctrl b sel = s.ctrl b sel := by
  simp [State.ctrl, h.peer]

theorem Entering.reply {s s1 : State} {p : Plan} (h : Entering s s1 p) : s1.reply = s.reply := by
  simp only [State.reply, State.drawReply, h.bus, h.drawn]
  cases s.bus <;> rfl

theorem wireWord_congr {s s1 : State} (hc : s1.cfg = s.cfg) {b : BankId} {sel : Selector}
    (h : s1.ctrl b sel = s.ctrl b sel) (draw : RegWord) : s1.wireWord b sel draw = s.wireWord b sel draw := by
  simp only [State.wireWord, State.knownBits, hc, h]

theorem Entering.wireWord {s s1 : State} {p : Plan} (h : Entering s s1 p) (b : BankId) (sel : Selector)
    (draw : RegWord) : s1.wireWord b sel draw = s.wireWord b sel draw :=
  wireWord_congr h.outside.cfg (h.ctrl b sel) draw

theorem logicalWord_congr {s s1 : State} (hc : s1.cfg = s.cfg) {b : BankId} {sel : Selector}
    (h : s1.ctrl b sel = s.ctrl b sel) (draw : RegWord) : s1.logicalWord b sel draw = s.logicalWord b sel draw := by
  rw [State.logicalWord, wireWord_congr hc h, hc]; rfl

theorem Entering.logicalWord {s s1 : State} {p : Plan} (h : Entering s s1 p) (b : BankId) (sel : Selector)
    (draw : RegWord) : s1.logicalWord b sel draw = s.logicalWord b sel draw :=
  logicalWord_congr h.outside.cfg (h.ctrl b sel) draw

/-- The state that entering a command gives, once it has its locks. -/
theorem entering_begin {s : State} {i : Instr} {p : Plan} (hs : PlanShape s.cfg i p)
    (hp : s.record.place = .start ∨ s.record.place = .lock) (hl : (s.takeLocks p.locks).2 = true) :
    Entering s ((s.takeLocks p.locks).1.setRecord (s.entered p p.first)) p := by
  obtain ⟨l1, l2, ht⟩ := s.takeLocks_eq p.locks
  have hphase : (s.entered p p.first).phase = .busy := (hs.enter _).1
  have hlock : LocksTaken s ((s.takeLocks p.locks).1.setRecord (s.entered p p.first)) p := fun b => by
    rw [State.lock_setRecord]
    exact s.takeLocks_lock p.locks b
  have hheld : s.cfg.serialize = true → ∀ b ∈ p.locks,
      ((s.takeLocks p.locks).1.setRecord (s.entered p p.first)).lock b = some s.cur := fun h b hb => by
    rw [State.lock_setRecord]
    exact State.takeLocks_all h hl hb
  generalize (s.takeLocks p.locks).1 = s1 at ht hlock hheld ⊢
  subst ht
  have hcur : ({ s with lock1 := l1, lock2 := l2 } : State).cur = s.cur := rfl
  refine ⟨⟨rfl, rfl, rfl, rfl, rfl, fun c hc => ?_⟩, fun b => ?_, rfl, rfl, rfl, ?_, ?_, hlock,
    fun hw => tableSet_wf _ _ hw, fun h _ => hheld h⟩
  · rw [State.caller_setRecord_of_ne _ _ (by rw [hcur]; exact hc)]; rfl
  · rw [State.peer_setRecord]; cases b <;> rfl
  · rw [State.record_setRecord _ hphase]
    rcases hp with hp | hp <;> simp [State.dueRecord, hp, State.entered]
  · rw [State.response_setRecord _ hphase]; rfl

/-- A command due to make a transaction makes it. -/
theorem Due.exec_eq {s : State} {i : Instr} {p : Plan} (h : Due s i p) :
    ∃ s1, Entering s s1 p ∧ exec i s = s1.transact p := by
  have hs := planShape h.checks
  rw [exec_eq_serve]
  rcases hp : s.record.place with _ | _ | _ | _
  · exact ⟨_, entering_begin hs (.inl hp) (State.takeLocks_free (h.free (.inl hp))),
      State.serve_started (.inl hp) h.checks (h.free (.inl hp))⟩
  · exact ⟨_, entering_begin hs (.inr hp) (State.takeLocks_free (h.free (.inr hp))),
      State.serve_started (.inr hp) h.checks (h.free (.inr hp))⟩
  · exact ⟨s, ⟨SameOutside.refl s, fun _ => rfl, rfl, rfl, rfl, by simp [State.dueRecord, hp], rfl,
      LocksTaken.refl _ _, CallersKept.refl s, fun _ h' => by simp [hp] at h'⟩, State.serve_running (.inl hp) h.checks⟩
  · exact ⟨s, ⟨SameOutside.refl s, fun _ => rfl, rfl, rfl, rfl, by simp [State.dueRecord, hp], rfl,
      LocksTaken.refl _ _, CallersKept.refl s, fun _ h' => by simp [hp] at h'⟩, State.serve_running (.inr hp) h.checks⟩

/-- A command that starts or waits for its locks, with its locks free, is due. -/
theorem Due.start {s : State} {i : Instr} {p : Plan} (hc : planOf i s.cfg = .ok p)
    (hp : s.record.place = .start ∨ s.record.place = .lock) (hl : s.locksFree p.locks) : Due s i p :=
  ⟨hc, fun _ => hl, fun h => by rcases hp with hp | hp <;> simp [hp] at h⟩

theorem Due.running {s : State} {i : Instr} {p : Plan} (hc : planOf i s.cfg = .ok p) (hp : s.record.place.active)
    (hb : s.record.phase = .busy) : Due s i p :=
  ⟨hc, fun h => by rcases hp with hp | hp <;> simp [hp] at h, fun _ => hb⟩

theorem State.dueRecord_start {s : State} (p : Plan) (hp : s.record.place = .start ∨ s.record.place = .lock) :
    s.dueRecord p = { p.enter { s.record with phase := .busy } with place := p.first } := by
  rcases hp with hp | hp <;> simp [State.dueRecord, hp]

theorem State.dueRecord_running {s : State} (p : Plan) (hp : s.record.place.active) : s.dueRecord p = s.record := by
  rcases hp with hp | hp <;> simp [State.dueRecord, hp]

/-- The record of a due transaction is BUSY. -/
theorem Due.phase {s : State} {i : Instr} {p : Plan} (h : Due s i p) : (s.dueRecord p).phase = .busy := by
  have hs := planShape h.checks
  unfold State.dueRecord
  split
  · exact h.busy (.inl ‹_›)
  · exact h.busy (.inr ‹_›)
  · exact (hs.enter _).1
  · exact (hs.enter _).1

/-- The state right after one transaction of the served caller. -/
structure After (s s2 : State) (p : Plan) (x : Transaction) : Prop where
  outside  : SameOutside s s2
  log      : s2.log = x :: s.log
  response : s2.response = s.response
  lock     : LocksTaken s s2 p
  bus      : s2.bus = s.bus.tail
  kept     : CallersKept s s2

/-- The locks of its plan are held by the served caller after a transaction that entered the command. -/
def HeldAfter (s s2 : State) (p : Plan) : Prop :=
  s.cfg.serialize = true → s.record.place = .start ∨ s.record.place = .lock → ∀ b ∈ p.locks, s2.lock b = some s.cur

/-- Going on after a transaction. -/
theorem After.goes {s s2 : State} {p : Plan} {x : Transaction} (h : After s s2 p x) {r : InFlight} (hr : r.phase = .busy) :
    Goes s (s2.setRecord r) r ∧ SameOutside s (s2.setRecord r) ∧ (s2.setRecord r).log = x :: s.log := by
  refine ⟨⟨State.record_setRecord _ hr, ?_, fun b c hc => ?_⟩, ⟨?_, ?_, ?_, ?_, ?_, fun c hc => ?_⟩, ?_⟩
  · rw [State.response_setRecord _ hr, h.response]
  · rw [State.lock_setRecord]
    exact h.lock.others b hc
  · exact h.outside.cfg
  · exact h.outside.attached1
  · exact h.outside.attached2
  · exact h.outside.cur
  · exact h.outside.inputs
  · rw [State.caller_setRecord_of_ne _ _ (by rw [h.outside.cur]; exact hc)]
    exact h.outside.callers c hc
  · exact h.log

/-- Ending after a transaction. -/
theorem After.ended {s s2 : State} {p : Plan} {x : Transaction} (h : After s s2 p x) (r : Response) :
    Ended s (s2.respond r) r ∧ SameOutside s (s2.respond r) ∧ (s2.respond r).log = x :: s.log := by
  refine ⟨⟨by simp, by simp, fun b => ?_⟩, ⟨?_, ?_, ?_, ?_, ?_, fun c hc => ?_⟩, ?_⟩
  · rw [State.lock_respond, h.outside.cur]
    exact h.lock.released b
  · exact h.outside.cfg
  · exact h.outside.attached1
  · exact h.outside.attached2
  · exact h.outside.cur
  · exact h.outside.inputs
  · rw [State.caller_respond_of_ne _ _ (by rw [h.outside.cur]; exact hc)]
    exact h.outside.callers c hc
  · exact h.log

/-- The state right after a transaction that left the outside and the served caller alone. -/
theorem Entering.after {s s1 s2 : State} {p : Plan} {x : Transaction} (h : Entering s s1 p)
    (hcfg : s2.cfg = s1.cfg) (ha1 : s2.attached1 = s1.attached1) (ha2 : s2.attached2 = s1.attached2)
    (hcur : s2.cur = s1.cur) (hin : s2.inputs = s1.inputs) (hcallers : s2.callers = s1.callers)
    (hlock : ∀ b, s2.lock b = s1.lock b) (hlog : s2.log = x :: s1.log) (hbus : s2.bus = s1.bus.tail) : After s s2 p x where
  outside := h.outside.trans ⟨hcfg, ha1, ha2, hcur, hin, fun c _ => by simp [State.caller, hcallers]⟩
  log := by rw [hlog, h.log]
  response := by rw [← h.response]; simp [State.response, State.caller, hcallers, hcur]
  lock b := by rw [hlock]; exact h.lock b
  bus := by rw [hbus, h.bus]
  kept hw := by rw [hcallers]; exact h.kept hw

theorem Entering.heldAfter {s s1 s2 : State} {p : Plan} (h : Entering s s1 p) (hlock : ∀ b, s2.lock b = s1.lock b) :
    HeldAfter s s2 p := fun h1 h2 b hb => by rw [hlock]; exact h.held h1 h2 b hb

theorem State.drawReply_bus (s : State) : s.drawReply.2.bus = s.bus.tail := by
  unfold State.drawReply
  split
  · rename_i h; simp [h]
  · rename_i h; simp [h]

/-- One register file has another control word at one selector; nothing else of the peers changed. -/
structure Wrote (s s2 : State) (b : BankId) (sel : Selector) (c : CtrlWord) : Prop where
  self  : s2.peer b = (s.peer b).set sel c
  other : ∀ b', b' ≠ b → s2.peer b' = s.peer b'

theorem Wrote.here {s s2 : State} {b : BankId} {sel : Selector} {c : CtrlWord} (h : Wrote s s2 b sel c)
    (hw : ∀ b, (s.peer b).wf) : s2.ctrl b sel = c := by
  rw [State.ctrl, h.self, Memory.get_set_self (hw b)]

theorem Wrote.others {s s2 : State} {b : BankId} {sel : Selector} {c : CtrlWord} (h : Wrote s s2 b sel c) :
    SamePeersBut b sel s s2 := by
  intro b' sel' hne
  by_cases hb : b' = b
  · subst hb
    rw [State.ctrl, h.self, Memory.get_set_of_ne _ _ fun h' => hne (by rw [h'])]
    rfl
  · rw [State.ctrl, h.other b' hb]
    rfl

/-- A write keeps the register files canonical. -/
theorem Wrote.wf {s s2 : State} {b : BankId} {sel : Selector} {c : CtrlWord} (h : Wrote s s2 b sel c)
    (hc : c.value &&& ~~~ c.known = 0) (hw : ∀ b, (s.peer b).wf) (b' : BankId) : (s2.peer b').wf := by
  by_cases hb : b' = b
  · subst hb
    rw [h.self]
    exact Memory.set_wf (hw b') sel hc
  · rw [h.other b' hb]
    exact hw b'

theorem wrote_setCtrl {s s1 : State} (h : ∀ b', s1.peer b' = s.peer b') (b : BankId) (sel : Selector) (c : CtrlWord) :
    Wrote s (s1.setCtrl b sel c) b sel c where
  self := by simp [State.setCtrl, h]
  other b' hb := by simp [State.setCtrl, State.peer_setPeer_of_ne _ _ hb, h]

theorem Wrote.logged {s s2 : State} {b : BankId} {sel : Selector} {c : CtrlWord} (h : Wrote s s2 b sel c)
    (x : Transaction) : Wrote s (s2.logged x) b sel c where
  self := by simpa using h.self
  other b' hb := by simpa using h.other b' hb

/-- What the due read gives: it succeeds and its word is used, or it fails and the command ends. -/
theorem Entering.readStep_cases {s s1 : State} {p : Plan} (he : Entering s s1 p) (b : BankId) (sel : Selector) :
    (∃ draw s2, s.reply = .ok draw ∧ After s s2 p (.read b sel (s.wireWord b sel draw)) ∧ HeldAfter s s2 p ∧
      (∀ b', s2.peer b' = s.peer b') ∧
      s1.readStep p b sel = s2.proceed (p.afterRead (s.dueRecord p) (s.logicalWord b sel draw))) ∨
    (∃ low s2, s.reply = .fail low ∧ After s s2 p (.readFailed b sel (negativeStatus low)) ∧ HeldAfter s s2 p ∧
      (∀ b', s2.peer b' = s.peer b') ∧
      s1.readStep p b sel = s2.respond (Response.transport s.cfg b sel (negativeStatus low))) := by
  rcases s1.readStep_cases p b sel with ⟨draw, hr, hs⟩ | ⟨low, hr, hs⟩
  · rw [he.reply] at hr
    refine .inl ⟨draw, s1.drawReply.2.logged (.read b sel (s.wireWord b sel draw)), hr,
      he.after (by simp) (by simp) (by simp) (by simp) (by simp) (by simp) (by simp) (by simp)
        (by simp [State.drawReply_bus]), he.heldAfter (by simp), fun b' => by simpa using he.peer b', ?_⟩
    rw [hs, he.record, he.wireWord, he.logicalWord]
  · rw [he.reply] at hr
    refine .inr ⟨low, s1.drawReply.2.logged (.readFailed b sel (negativeStatus low)), hr,
      he.after (by simp) (by simp) (by simp) (by simp) (by simp) (by simp) (by simp) (by simp)
        (by simp [State.drawReply_bus]), he.heldAfter (by simp), fun b' => by simpa using he.peer b', ?_⟩
    rw [hs, State.raiseTransport]
    simp [he.outside.cfg]

/-- What the due write gives: it succeeds and the command goes on, or it fails and the command ends. -/
theorem Entering.writeStep_cases {s s1 : State} {p : Plan} (he : Entering s s1 p) (b : BankId) (sel : Selector) :
    (∃ draw s2, s.reply = .ok draw ∧ After s s2 p (.write b sel (transform s.cfg (s.dueRecord p).wbuf)) ∧
      HeldAfter s s2 p ∧
      Wrote s s2 b sel ⟨s.cfg.ctrlMask b sel, (s.dueRecord p).wbuf &&& s.cfg.ctrlMask b sel⟩ ∧
      s1.writeStep p b sel = s2.proceed (p.afterWrite (s.dueRecord p))) ∨
    (∃ low s2, s.reply = .fail low ∧
      After s s2 p (.writeFailed b sel (transform s.cfg (s.dueRecord p).wbuf) (negativeStatus low)) ∧
      HeldAfter s s2 p ∧ Wrote s s2 b sel CtrlWord.unknown ∧
      s1.writeStep p b sel = s2.respond (Response.transport s.cfg b sel (negativeStatus low))) := by
  rcases s1.writeStep_cases p b sel with ⟨draw, hr, hs⟩ | ⟨low, hr, hs⟩
  · rw [he.reply] at hr
    have hc : written s.cfg b sel (transform s.cfg (s.dueRecord p).wbuf) =
        ⟨s.cfg.ctrlMask b sel, (s.dueRecord p).wbuf &&& s.cfg.ctrlMask b sel⟩ := by simp [written]
    rw [he.record, he.outside.cfg, hc] at hs
    refine .inl ⟨draw, _, hr, he.after (by simp) (by simp) (by simp) (by simp) (by simp) (by simp) (by simp) (by simp)
      (by simp [State.drawReply_bus]), he.heldAfter (by simp), (wrote_setCtrl (by simpa using he.peer) _ _ _).logged _, hs⟩
  · rw [he.reply] at hr
    rw [he.record, he.outside.cfg, State.raiseTransport] at hs
    refine .inr ⟨low, (s1.drawReply.2.setCtrl b sel CtrlWord.unknown).logged
      (.writeFailed b sel (transform s.cfg (s.dueRecord p).wbuf) (negativeStatus low)), hr,
      he.after (by simp) (by simp) (by simp) (by simp) (by simp) (by simp) (by simp) (by simp)
      (by simp [State.drawReply_bus]), he.heldAfter (by simp), (wrote_setCtrl (by simpa using he.peer) _ _ _).logged _, ?_⟩
    rw [hs]
    simp [he.outside.cfg]

/-- A due read that succeeds. -/
theorem Due.read_ok {s : State} {i : Instr} {p : Plan} {b : BankId} {sel : Selector} {draw : RegWord} (h : Due s i p)
    (ht : p.target (s.dueRecord p) = some (b, sel)) (hp : (s.dueRecord p).place = .read) (hr : s.reply = .ok draw) :
    ∃ s2, After s s2 p (.read b sel (s.wireWord b sel draw)) ∧ SamePeers s s2 ∧
      exec i s = .next (s2.proceed (p.afterRead (s.dueRecord p) (s.logicalWord b sel draw))) := by
  obtain ⟨s1, he, hx⟩ := h.exec_eq
  rw [State.transact_read (by rw [he.record]; exact hp) (by rw [he.record]; exact ht)] at hx
  rcases he.readStep_cases b sel with ⟨draw', s2, hr', ha, -, hpe, hs⟩ | ⟨low, s2, hr', -⟩
  · obtain rfl : draw' = draw := by rw [hr] at hr'; cases hr'; rfl
    exact ⟨s2, ha, fun b' sel' => by simp [State.ctrl, hpe], by rw [hx, hs]⟩
  · rw [hr] at hr'
    cases hr'

/-- A due read that fails. -/
theorem Due.read_fail {s : State} {i : Instr} {p : Plan} {b : BankId} {sel : Selector} {low : BitVec 31} (h : Due s i p)
    (ht : p.target (s.dueRecord p) = some (b, sel)) (hp : (s.dueRecord p).place = .read) (hr : s.reply = .fail low) :
    ∃ s2, After s s2 p (.readFailed b sel (negativeStatus low)) ∧ SamePeers s s2 ∧
      exec i s = .next (s2.respond (Response.transport s.cfg b sel (negativeStatus low))) := by
  obtain ⟨s1, he, hx⟩ := h.exec_eq
  rw [State.transact_read (by rw [he.record]; exact hp) (by rw [he.record]; exact ht)] at hx
  rcases he.readStep_cases b sel with ⟨draw', s2, hr', -⟩ | ⟨low', s2, hr', ha, -, hpe, hs⟩
  · rw [hr] at hr'
    cases hr'
  · obtain rfl : low' = low := by rw [hr] at hr'; cases hr'; rfl
    exact ⟨s2, ha, fun b' sel' => by simp [State.ctrl, hpe], by rw [hx, hs]⟩

/-- A due write that succeeds. -/
theorem Due.write_ok {s : State} {i : Instr} {p : Plan} {b : BankId} {sel : Selector} {draw : RegWord} (h : Due s i p)
    (ht : p.target (s.dueRecord p) = some (b, sel)) (hp : (s.dueRecord p).place = .write) (hr : s.reply = .ok draw) :
    ∃ s2, After s s2 p (.write b sel (transform s.cfg (s.dueRecord p).wbuf)) ∧
      Wrote s s2 b sel ⟨s.cfg.ctrlMask b sel, (s.dueRecord p).wbuf &&& s.cfg.ctrlMask b sel⟩ ∧
      exec i s = .next (s2.proceed (p.afterWrite (s.dueRecord p))) := by
  obtain ⟨s1, he, hx⟩ := h.exec_eq
  rw [State.transact_write (by rw [he.record]; exact hp) (by rw [he.record]; exact ht)] at hx
  rcases he.writeStep_cases b sel with ⟨draw', s2, -, ha, -, hw, hs⟩ | ⟨low, s2, hr', -⟩
  · exact ⟨s2, ha, hw, by rw [hx, hs]⟩
  · rw [hr] at hr'
    cases hr'

/-- A due write that fails. -/
theorem Due.write_fail {s : State} {i : Instr} {p : Plan} {b : BankId} {sel : Selector} {low : BitVec 31} (h : Due s i p)
    (ht : p.target (s.dueRecord p) = some (b, sel)) (hp : (s.dueRecord p).place = .write) (hr : s.reply = .fail low) :
    ∃ s2, After s s2 p (.writeFailed b sel (transform s.cfg (s.dueRecord p).wbuf) (negativeStatus low)) ∧
      Wrote s s2 b sel CtrlWord.unknown ∧
      exec i s = .next (s2.respond (Response.transport s.cfg b sel (negativeStatus low))) := by
  obtain ⟨s1, he, hx⟩ := h.exec_eq
  rw [State.transact_write (by rw [he.record]; exact hp) (by rw [he.record]; exact ht)] at hx
  rcases he.writeStep_cases b sel with ⟨draw', s2, hr', -⟩ | ⟨low', s2, hr', ha, -, hw, hs⟩
  · rw [hr] at hr'
    cases hr'
  · obtain rfl : low' = low := by rw [hr] at hr'; cases hr'; rfl
    exact ⟨s2, ha, hw, by rw [hx, hs]⟩

/-- A step of a command is a rejection, a wait for a lock, or its due transaction. -/
theorem exec_cases {i : Instr} {s t : State} (h : exec i s = .next t) :
    (∃ e, s.record.place = .start ∧ planOf i s.cfg = .error e ∧ t = s.raise e) ∨
    (∃ p, (s.record.place = .start ∨ s.record.place = .lock) ∧ planOf i s.cfg = .ok p ∧
      (s.takeLocks p.locks).2 = false ∧ t = (s.takeLocks p.locks).1.setRecord (s.entered p .lock)) ∨
    (∃ p s1 b sel, planOf i s.cfg = .ok p ∧ Entering s s1 p ∧ p.target (s.dueRecord p) = some (b, sel) ∧
      ((s.dueRecord p).place = .read ∧ t = s1.readStep p b sel ∨
        (s.dueRecord p).place = .write ∧ t = s1.writeStep p b sel)) := by
  rw [exec_eq_serve] at h
  rcases State.serve_cases h with h | h | ⟨p, hp, hc, hl, h⟩ | ⟨p, hp, hc, h⟩
  · exact .inl h
  · exact .inr (.inl h)
  · have he := entering_begin (planShape hc) hp hl
    obtain ⟨b, sel, ht, h⟩ := State.transact_cases h
    rw [he.record] at ht h
    exact .inr (.inr ⟨p, _, b, sel, hc, he, ht, h⟩)
  · obtain ⟨b, sel, ht, h⟩ := State.transact_cases h
    have hr : s.dueRecord p = s.record := State.dueRecord_running p hp
    refine .inr (.inr ⟨p, s, b, sel, hc, ⟨SameOutside.refl s, fun _ => rfl, rfl, rfl, rfl, hr.symm, rfl,
      LocksTaken.refl _ _, CallersKept.refl s, fun _ h' => ?_⟩, by rw [hr]; exact ht, by rw [hr]; exact h⟩)
    rcases hp with hp | hp <;> simp [hp] at h'

theorem SameOutside.respond {s s2 : State} (h : SameOutside s s2) (r : Response) : SameOutside s (s2.respond r) :=
  ⟨h.cfg, h.attached1, h.attached2, h.cur, h.inputs, fun c hc => by
    rw [State.caller_respond_of_ne _ _ (by rw [h.cur]; exact hc)]; exact h.callers c hc⟩

theorem SameOutside.setRecord {s s2 : State} (h : SameOutside s s2) (r : InFlight) : SameOutside s (s2.setRecord r) :=
  ⟨h.cfg, h.attached1, h.attached2, h.cur, h.inputs, fun c hc => by
    rw [State.caller_setRecord_of_ne _ _ (by rw [h.cur]; exact hc)]; exact h.callers c hc⟩

theorem SameOutside.proceed {s s2 : State} (h : SameOutside s s2) (q : Progress) : SameOutside s (s2.proceed q) := by
  cases q with
  | go r => exact h.setRecord r
  | done x => exact h.respond _

/-- Ending a command touches no lock of another caller. -/
theorem LocksTaken.others_respond {s s2 : State} {p : Plan} (h : LocksTaken s s2 p) (hc : s2.cur = s.cur) (r : Response)
    (b : BankId) {c : CallerId} (hne : c ≠ s.cur) : (s2.respond r).lock b = some c ↔ s.lock b = some c := by
  rw [State.lock_respond, hc, h.released b]
  split_ifs with h1
  · simp [h1, Ne.symm hne]
  · rfl

theorem LocksTaken.others_proceed {s s2 : State} {p : Plan} (h : LocksTaken s s2 p) (hc : s2.cur = s.cur) (q : Progress)
    (b : BankId) {c : CallerId} (hne : c ≠ s.cur) : (s2.proceed q).lock b = some c ↔ s.lock b = some c := by
  cases q with
  | go r => rw [State.proceed, State.lock_setRecord]; exact h.others b hne
  | done x => exact h.others_respond hc _ b hne

@[simp] theorem State.log_proceed (s : State) (q : Progress) : (s.proceed q).log = s.log := by cases q <;> rfl

@[simp] theorem State.peer_proceed (s : State) (q : Progress) (b : BankId) : (s.proceed q).peer b = s.peer b := by
  cases q <;> simp [State.proceed]

@[simp] theorem State.cfg_proceed (s : State) (q : Progress) : (s.proceed q).cfg = s.cfg := by cases q <;> rfl

@[simp] theorem State.bus_proceed (s : State) (q : Progress) : (s.proceed q).bus = s.bus := by cases q <;> rfl

/-- What waiting for a lock leaves as it was. -/
structure Waits (s t : State) (p : Plan) (r : InFlight) : Prop where
  outside : SameOutside s t
  lock    : LocksTaken s t p
  kept    : CallersKept s t
  peer    : ∀ b, t.peer b = s.peer b
  log     : t.log = s.log
  bus     : t.bus = s.bus
  drawn   : t.drawn = s.drawn
  record  : t.record = r
  response : t.response = s.response

theorem waits {s : State} {p : Plan} {i : Instr} (hs : PlanShape s.cfg i p) :
    Waits s ((s.takeLocks p.locks).1.setRecord (s.entered p .lock)) p (s.entered p .lock) := by
  obtain ⟨l1, l2, ht⟩ := s.takeLocks_eq p.locks
  have hphase : (s.entered p .lock).phase = .busy := (hs.enter _).1
  have hlock : LocksTaken s (s.takeLocks p.locks).1 p := s.takeLocks_lock p.locks
  generalize (s.takeLocks p.locks).1 = s1 at ht hlock
  subst ht
  have hout : SameOutside s { s with lock1 := l1, lock2 := l2 } := ⟨rfl, rfl, rfl, rfl, rfl, fun _ _ => rfl⟩
  refine ⟨hout.setRecord _, fun b => ?_, fun hw => tableSet_wf _ _ hw, fun b => ?_, rfl, rfl, rfl,
    State.record_setRecord _ hphase, ?_⟩
  · rw [State.lock_setRecord]; exact hlock b
  · rw [State.peer_setRecord]; cases b <;> rfl
  · rw [State.response_setRecord _ hphase]; rfl

/-- What one step of a command can do, from the state before to the state after. -/
inductive ExecStep (i : Instr) (s t : State) : Prop
  | rejected (e : Status) (hp : s.record.place = .start) (hc : planOf i s.cfg = .error e) (ht : t = s.raise e)
  | waiting (p : Plan) (hp : s.record.place = .start ∨ s.record.place = .lock) (hc : planOf i s.cfg = .ok p)
      (hl : (s.takeLocks p.locks).2 = false) (ht : t = (s.takeLocks p.locks).1.setRecord (s.entered p .lock))
  | readOk (p : Plan) (b : BankId) (sel : Selector) (draw : RegWord) (s2 : State) (hc : planOf i s.cfg = .ok p)
      (htarget : p.target (s.dueRecord p) = some (b, sel)) (hp : (s.dueRecord p).place = .read)
      (hr : s.reply = .ok draw) (ha : After s s2 p (.read b sel (s.wireWord b sel draw))) (hh : HeldAfter s s2 p)
      (hpeer : ∀ b', s2.peer b' = s.peer b')
      (ht : t = s2.proceed (p.afterRead (s.dueRecord p) (s.logicalWord b sel draw)))
  | readFail (p : Plan) (b : BankId) (sel : Selector) (low : BitVec 31) (s2 : State) (hc : planOf i s.cfg = .ok p)
      (htarget : p.target (s.dueRecord p) = some (b, sel)) (hp : (s.dueRecord p).place = .read)
      (hr : s.reply = .fail low) (ha : After s s2 p (.readFailed b sel (negativeStatus low))) (hh : HeldAfter s s2 p)
      (hpeer : ∀ b', s2.peer b' = s.peer b')
      (ht : t = s2.respond (Response.transport s.cfg b sel (negativeStatus low)))
  | writeOk (p : Plan) (b : BankId) (sel : Selector) (draw : RegWord) (s2 : State) (hc : planOf i s.cfg = .ok p)
      (htarget : p.target (s.dueRecord p) = some (b, sel)) (hp : (s.dueRecord p).place = .write)
      (hr : s.reply = .ok draw) (ha : After s s2 p (.write b sel (transform s.cfg (s.dueRecord p).wbuf)))
      (hh : HeldAfter s s2 p)
      (hw : Wrote s s2 b sel ⟨s.cfg.ctrlMask b sel, (s.dueRecord p).wbuf &&& s.cfg.ctrlMask b sel⟩)
      (ht : t = s2.proceed (p.afterWrite (s.dueRecord p)))
  | writeFail (p : Plan) (b : BankId) (sel : Selector) (low : BitVec 31) (s2 : State) (hc : planOf i s.cfg = .ok p)
      (htarget : p.target (s.dueRecord p) = some (b, sel)) (hp : (s.dueRecord p).place = .write)
      (hr : s.reply = .fail low)
      (ha : After s s2 p (.writeFailed b sel (transform s.cfg (s.dueRecord p).wbuf) (negativeStatus low)))
      (hh : HeldAfter s s2 p) (hw : Wrote s s2 b sel CtrlWord.unknown)
      (ht : t = s2.respond (Response.transport s.cfg b sel (negativeStatus low)))

/-- Every step of a command is one of those. -/
theorem execStep {i : Instr} {s t : State} (h : exec i s = .next t) : ExecStep i s t := by
  rcases exec_cases h with ⟨e, hp, hc, ht⟩ | ⟨p, hp, hc, hl, ht⟩ | ⟨p, s1, b, sel, hc, he, htg, ⟨hp, ht⟩ | ⟨hp, ht⟩⟩
  · exact .rejected e hp hc ht
  · exact .waiting p hp hc hl ht
  · rcases he.readStep_cases b sel with ⟨draw, s2, hr, ha, hh, hpe, hs⟩ | ⟨low, s2, hr, ha, hh, hpe, hs⟩
    · exact .readOk p b sel draw s2 hc htg hp hr ha hh hpe (ht.trans hs)
    · exact .readFail p b sel low s2 hc htg hp hr ha hh hpe (ht.trans hs)
  · rcases he.writeStep_cases b sel with ⟨draw, s2, hr, ha, hh, hw, hs⟩ | ⟨low, s2, hr, ha, hh, hw, hs⟩
    · exact .writeOk p b sel draw s2 hc htg hp hr ha hh hw (ht.trans hs)
    · exact .writeFail p b sel low s2 hc htg hp hr ha hh hw (ht.trans hs)

@[simp] theorem State.ctrl_proceed (s : State) (q : Progress) (b : BankId) (sel : Selector) :
    (s.proceed q).ctrl b sel = s.ctrl b sel := by
  cases q <;> simp [State.proceed]

theorem SamePeers.proceed {s s2 : State} (h : SamePeers s s2) (q : Progress) : SamePeers s (s2.proceed q) :=
  fun b sel => by rw [State.ctrl_proceed]; exact h b sel

theorem SamePeersBut.proceed {s s2 : State} {b : BankId} {sel : Selector} (h : SamePeersBut b sel s s2) (q : Progress) :
    SamePeersBut b sel s (s2.proceed q) :=
  fun b' sel' hne => by rw [State.ctrl_proceed]; exact h b' sel' hne

theorem SamePeers.respond {s s2 : State} (h : SamePeers s s2) (r : Response) : SamePeers s (s2.respond r) :=
  fun b sel => by rw [State.ctrl_respond]; exact h b sel

theorem SamePeersBut.respond {s s2 : State} {b : BankId} {sel : Selector} (h : SamePeersBut b sel s s2)
    (r : Response) : SamePeersBut b sel s (s2.respond r) :=
  fun b' sel' hne => by rw [State.ctrl_respond]; exact h b' sel' hne

end Sys2Proof.Machine
end

