-- ==== Sys2Proof/Laws/Run.lean ====
section
/-! SUPPORT. Commands run alone: what a run keeps until its end, the order in which mask commands visit registers, and how
far a `SET_MASK` has got (`SetProgress`). -/

namespace Sys2Proof.Machine

/-! ### Runs -/

theorem runAlone_end {i : Instr} {n : Nat} {s t : State} (h : exec i s = .next t) (ht : t.record.phase = .idle) :
    runAlone i (n + 1) s = .next t := by
  simp [runAlone, h, ht]

theorem runAlone_go {i : Instr} {n : Nat} {s t : State} (h : exec i s = .next t) (ht : t.record.phase = .busy) :
    runAlone i (n + 1) s = runAlone i n t := by
  simp [runAlone, h, ht]

/-- What every step keeps until the command ends holds of the state it ends in. -/
theorem runAlone_induction {i : Instr} {P Q : State → Prop}
    (hstep : ∀ u t, P u → exec i u = .next t → Q t ∧ t.record.phase = .idle ∨ P t ∧ t.record.phase = .busy) {n : Nat}
    {s t : State} (hs : P s) (hn : 0 < n) (h : runAlone i n s = .next t) (ht : t.record.phase = .idle) : Q t := by
  induction n generalizing s with
  | zero => omega
  | succ n ih =>
    simp only [runAlone] at h
    split at h
    · rename_i u hu
      rcases hstep s u hs hu with ⟨hq, hi⟩ | ⟨hp, hb⟩
      · rw [if_pos hi] at h
        cases h
        exact hq
      · rw [if_neg (by rw [hb]; decide)] at h
        cases n with
        | zero =>
          simp only [runAlone] at h
          cases h
          rw [hb] at ht
          cases ht
        | succ n => exact ih hp (by omega) h
    · cases h
    · cases h

/-! ### The order of registers -/

/-- The banks of a list before `b`. -/
def passed : List BankId → BankId → List BankId
  | [], _ => []
  | x :: t, b => if x = b then [] else x :: passed t b

/-- The lists a mask command visits: one bank, or both in order. -/
theorem VisitOk.cases {cfg : Config} {visit : List BankId} (h : VisitOk cfg visit) :
    (∃ b, visit = [b]) ∨ visit = [.one, .two] := by
  rcases h with ⟨b, -, rfl⟩ | rfl
  · exact .inl ⟨b, rfl⟩
  · unfold Config.banks
    split
    · exact .inr rfl
    · exact .inl ⟨_, rfl⟩

theorem passed_head {cfg : Config} {visit : List BankId}
    (h : VisitOk cfg visit) : passed visit (visit.headD .one) = [] := by
  rcases h.cases with ⟨b, rfl⟩ | rfl <;> simp [passed]

/-- The bank after `b` has passed what `b` has, and `b`. -/
theorem passed_next {cfg : Config} {visit : List BankId} (h : VisitOk cfg visit) {b b' : BankId}
    (hb : nextBank visit b = some b') (x : BankId) : x ∈ passed visit b' ↔ x ∈ passed visit b ∨ x = b := by
  rcases h.cases with ⟨a, rfl⟩ | rfl
  · simp [nextBank] at hb
  · cases b <;> simp [nextBank] at hb
    subst hb
    cases x <;> simp [passed]

/-- Nothing is left after the last bank. -/
theorem passed_last {cfg : Config} {visit : List BankId} (h : VisitOk cfg visit) {b : BankId} (hm : b ∈ visit)
    (hb : nextBank visit b = none) {x : BankId} (hx : x ∈ visit) : x ∈ passed visit b ∨ x = b := by
  rcases h.cases with ⟨a, rfl⟩ | rfl
  · simp_all
  · cases b <;> simp [nextBank] at hb
    cases x <;> simp [passed]

theorem passed_ne {visit : List BankId} {b x : BankId} (h : x ∈ passed visit b) : x ≠ b := by
  induction visit with
  | nil => cases h
  | cons a t ih =>
    simp only [passed] at h
    split_ifs at h with ha
    · cases h
    · rcases List.mem_cons.1 h with rfl | h
      · exact ha
      · exact ih h

/-- Register `k'` of bank `b'` comes before the register a record stands at. -/
def Before (visit : List BankId) (r : InFlight) (b' : BankId) (k' : Nat) : Prop :=
  b' ∈ passed visit r.b ∨ b' = r.b ∧ k' < r.k

theorem before_more {visit : List BankId} {r r' : InFlight} (hb : r'.b = r.b) (hk : r'.k = r.k + 1) (b' : BankId)
    (k' : Nat) : Before visit r' b' k' ↔ Before visit r b' k' ∨ b' = r.b ∧ k' = r.k := by
  simp only [Before, hb, hk]
  constructor
  · rintro (h | ⟨h1, h2⟩)
    · exact .inl (.inl h)
    · rcases Nat.lt_succ_iff_lt_or_eq.1 h2 with h | h
      · exact .inl (.inr ⟨h1, h⟩)
      · exact .inr ⟨h1, h⟩
  · rintro ((h | ⟨h1, h2⟩) | ⟨h1, h2⟩)
    · exact .inl h
    · exact .inr ⟨h1, by omega⟩
    · exact .inr ⟨h1, by omega⟩

theorem before_next {cfg : Config} {visit : List BankId} (hv : VisitOk cfg visit) {r r' : InFlight}
    (hn : nextBank visit r.b = some r'.b) (hk0 : r'.k = 0) (hk : cfg.nreg r.b ≤ r.k + 1) {b' : BankId} {k' : Nat}
    (hk' : k' < cfg.nreg b') : Before visit r' b' k' ↔ Before visit r b' k' ∨ b' = r.b ∧ k' = r.k := by
  simp only [Before, passed_next hv hn, hk0]
  constructor
  · rintro ((h | rfl) | ⟨-, h⟩)
    · exact .inl (.inl h)
    · by_cases h : k' < r.k
      · exact .inl (.inr ⟨rfl, h⟩)
      · exact .inr ⟨rfl, by omega⟩
    · omega
  · rintro ((h | ⟨h, -⟩) | ⟨h, -⟩)
    · exact .inl (.inl h)
    · exact .inl (.inr h)
    · exact .inl (.inr h)

theorem before_last {cfg : Config} {visit : List BankId} (hv : VisitOk cfg visit) {r : InFlight} (hm : r.b ∈ visit)
    (hn : nextBank visit r.b = none) (hk : cfg.nreg r.b ≤ r.k + 1) {b' : BankId} {k' : Nat} (hb' : b' ∈ visit)
    (hk' : k' < cfg.nreg b') : Before visit r b' k' ∨ b' = r.b ∧ k' = r.k := by
  rcases passed_last hv hm hn hb' with h | rfl
  · exact .inl (.inl h)
  · by_cases h : k' < r.k
    · exact .inl (.inr ⟨rfl, h⟩)
    · exact .inr ⟨rfl, by omega⟩

theorem before_start {cfg : Config} {visit : List BankId} (hv : VisitOk cfg visit) {r : InFlight}
    (hb : r.b = visit.headD .one) (hk : r.k = 0) (b' : BankId) (k' : Nat) : ¬ Before visit r b' k' := by
  rintro (h | ⟨-, h⟩)
  · rw [hb, passed_head hv] at h
    cases h
  · omega

theorem not_before_self {visit : List BankId} (r : InFlight) : ¬ Before visit r r.b r.k := by
  rintro (h | ⟨-, h⟩)
  · exact passed_ne h rfl
  · omega

/-! ### Control bits of a feature -/

/-- The bits of a writable feature in the slots in use are control bits (10_state.md R45). -/
theorem ctrlMask_slot {cfg : Config} (hw : cfg.wf = true) {b : BankId} (hb : b ∈ cfg.banks) {k : Nat} {e : Entry}
    (he : cfg.entry? b k = some e) {g : Feature} (hg : (cfg.info g).writable = true) {slot : Nat}
      (hs : slot < e.count) :
    (cfg.ctrlMask b e.sel).getLsbD (bitPos (cfg.info g).off slot) = true := by
  have h4 := Config.entry_bounds hw hb he
  rw [Config.ctrlMask, Config.registerAt_sel hw hb he]
  exact (Config.getLsbD_controlBits cfg _ _).2
    ⟨g, hg, (getLsbD_slotBits _ _ _).2 ⟨bitPos_lt (by omega), slot, hs, rfl⟩⟩

/-- A read returns every known control bit (10_state.md R46). -/
theorem getLsbD_logicalWord_known {s : State} (hm : MemoryOk s) {b : BankId} {sel : Selector} {j : Nat}
    (hj : (s.ctrl b sel).known.getLsbD j = true) (draw : RegWord) :
    (s.logicalWord b sel draw).getLsbD j = (s.ctrl b sel).value.getLsbD j := by
  have hlt : j < 16 := BitVec.lt_of_getLsbD hj
  have hc : (s.cfg.ctrlMask b sel).getLsbD j = true := by
    have := congrArg (fun w => BitVec.getLsbD w j) (hm.control b sel)
    simpa [hlt, hj] using this
  simp only [State.logicalWord, State.wireWord, State.knownBits, transform_transform, BitVec.getLsbD_or,
    BitVec.getLsbD_and, BitVec.getLsbD_not, hj, hc, hlt]
  simp

/-! ### How far a SET_MASK has got -/

/-- The word that a read-modify-write of the register of entry `e` puts together: the feature's bits of `h`, every
other bit that was known as it was. -/
structure Merged (s : State) (f : Feature) (h : Word32) (b : BankId) (e : Entry) (w : RegWord) : Prop where
  slots  : ∀ slot, slot < e.count → w.getLsbD (bitPos (s.cfg.info f).off slot) = h.getLsbD (e.start + slot)
  others : ∀ j, (∀ slot, slot < e.count → j ≠ bitPos (s.cfg.info f).off slot) →
    (s.ctrl b e.sel).known.getLsbD j = true → w.getLsbD j = (s.ctrl b e.sel).value.getLsbD j

/-- The register of entry `e` holds the control bits of such a word. -/
def Updated (s u : State) (f : Feature) (h : Word32) (b : BankId) (e : Entry) : Prop :=
  ∃ w, Merged s f h b e w ∧ u.ctrl b e.sel = ⟨s.cfg.ctrlMask b e.sel, w &&& s.cfg.ctrlMask b e.sel⟩

/-- The registers before the one a record stands at are updated; every other register is as it was. -/
structure UpdatedBefore (s u : State) (f : Feature) (visit : List BankId) (h : BankId → Word32)
    (before : BankId → Nat → Prop) : Prop where
  done  : ∀ b k e, b ∈ visit → s.cfg.entry? b k = some e → before b k → Updated s u f (h b) b e
  ahead : ∀ b k e, b ∈ visit → s.cfg.entry? b k = some e → ¬ before b k → u.ctrl b e.sel = s.ctrl b e.sel
  rest  : ∀ b sel, (b, sel) ∉ registersOf s.cfg visit → u.ctrl b sel = s.ctrl b sel

theorem mem_registersOf {cfg : Config} {visit : List BankId} {b : BankId} {sel : Selector} :
    (b, sel) ∈ registersOf cfg visit ↔ b ∈ visit ∧ ∃ k e, cfg.entry? b k = some e ∧ e.sel = sel := by
  simp only [registersOf, List.mem_flatMap, List.mem_map, Prod.mk.injEq]
  constructor
  · rintro ⟨a, ha, e, he, rfl, rfl⟩
    obtain ⟨k, hk⟩ := List.getElem?_of_mem he
    exact ⟨ha, k, e, hk, rfl⟩
  · rintro ⟨hb, k, e, hk, rfl⟩
    exact ⟨b, hb, e, Config.entry?_mem hk, rfl, rfl⟩

/-- One more register updated. -/
theorem UpdatedBefore.write {s u u' : State} {f : Feature} {visit : List BankId} {h : BankId → Word32}
    {before before' : BankId → Nat → Prop} (hub : UpdatedBefore s u f visit h before) (hw : s.cfg.wf = true)
    (hv : VisitOk s.cfg visit) {b : BankId} {k : Nat} {e : Entry} (hb : b ∈ visit) (he : s.cfg.entry? b k = some e)
    {w : RegWord} (hm : Merged s f (h b) b e w)
    (hc : u'.ctrl b e.sel = ⟨s.cfg.ctrlMask b e.sel, w &&& s.cfg.ctrlMask b e.sel⟩) (ho : SamePeersBut b e.sel u u')
    (hbefore : ∀ b' k', b' ∈ visit → k' < s.cfg.nreg b' → (before' b' k' ↔ before b' k' ∨ b' = b ∧ k' = k)) :
    UpdatedBefore s u' f visit h before' where
  done b' k' e' hb' he' hbf := by
    by_cases hx : (b', e'.sel) = (b, e.sel)
    · obtain ⟨rfl, hsel⟩ := Prod.mk.inj hx
      obtain rfl := Config.entry_sel_inj hw (hv.banks hb) he' he hsel
      rw [he] at he'
      cases he'
      exact ⟨w, hm, hc⟩
    · rcases (hbefore b' k' hb' (Config.entry?_lt he')).1 hbf with h1 | ⟨rfl, rfl⟩
      · obtain ⟨w', hm', hc'⟩ := hub.done b' k' e' hb' he' h1
        exact ⟨w', hm', by rw [ho _ _ hx]; exact hc'⟩
      · rw [he] at he'
        cases he'
        exact absurd rfl hx
  ahead b' k' e' hb' he' hbf := by
    have hn : ¬ (before b' k' ∨ b' = b ∧ k' = k) := fun hh => hbf ((hbefore b' k' hb' (Config.entry?_lt he')).2 hh)
    rw [ho b' e'.sel ?_]
    · exact hub.ahead b' k' e' hb' he' fun hh => hn (.inl hh)
    · intro hx
      obtain ⟨rfl, hsel⟩ := Prod.mk.inj hx
      exact hn (.inr ⟨rfl, Config.entry_sel_inj hw (hv.banks hb) he' he hsel⟩)
  rest b' sel' hr := by
    rw [ho b' sel' ?_]
    · exact hub.rest b' sel' hr
    · intro hx
      obtain ⟨rfl, rfl⟩ := Prod.mk.inj hx
      exact hr (mem_registersOf.2 ⟨hb, k, e, he, rfl⟩)

/-- Where a `SET_MASK` or `MUX_SET_MASK` that began in `s` stands in `u`. -/
inductive SetProgress (s u : State) (f : Feature) (visit : List BankId) (shift : BankId → Nat) (mask : Word32) : Prop
  | waiting (hcfg : u.cfg = s.cfg) (hmem : MemoryOk u) (hp : u.record.place = .start ∨ u.record.place = .lock)
      (hsame : SamePeers s u)
  | running (hcfg : u.cfg = s.cfg) (hmem : MemoryOk u) (e : Entry) (hphase : u.record.phase = .busy)
      (hplace : u.record.place.active) (hb : u.record.b ∈ visit) (he : s.cfg.entry? u.record.b u.record.k = some e)
      (hacc : u.record.acc = hardwareMask s.cfg f mask shift u.record.b)
      (hub : UpdatedBefore s u f visit (hardwareMask s.cfg f mask shift) (Before visit u.record))
      (hwbuf : u.record.place = .write →
        Merged s f (hardwareMask s.cfg f mask shift u.record.b) u.record.b e u.record.wbuf)

/-- How such a command ends: all registers updated, or the ones before the one a transaction on which failed. -/
inductive SetEnd (s t : State) (f : Feature) (visit : List BankId) (shift : BankId → Nat) (mask : Word32) : Prop
  | done (hr : t.response = some (Response.done 0))
      (hub : UpdatedBefore s t f visit (hardwareMask s.cfg f mask shift) fun _ _ => True)
  | failed (r : InFlight) (e : Entry) (low : BitVec 31) (hb : r.b ∈ visit) (he : s.cfg.entry? r.b r.k = some e)
      (hr : t.response = some (Response.transport s.cfg r.b e.sel (negativeStatus low)))
      (hdone : ∀ b k e, b ∈ visit → s.cfg.entry? b k = some e → Before visit r b k →
        Updated s t f (hardwareMask s.cfg f mask shift b) b e)
      (hahead : ∀ b k e, b ∈ visit → s.cfg.entry? b k = some e → ¬ Before visit r b k → (b, k) ≠ (r.b, r.k) →
        t.ctrl b e.sel = s.ctrl b e.sel)
      (hhere : t.ctrl r.b e.sel = s.ctrl r.b e.sel ∨ t.ctrl r.b e.sel = CtrlWord.unknown)
      (hrest : ∀ b sel, (b, sel) ∉ registersOf s.cfg visit → t.ctrl b sel = s.ctrl b sel)

theorem memoryOk_same {s t : State} (h : MemoryOk s) (hc : t.cfg = s.cfg)
    (hp : ∀ b, t.peer b = s.peer b) : MemoryOk t :=
  ⟨fun b => by rw [hp]; exact h.canonical b, fun b sel => by rw [State.ctrl, hp, hc]; exact h.control b sel⟩

theorem memoryOk_wrote {s t : State} {b : BankId} {sel : Selector} {c : CtrlWord} (h : MemoryOk s) (hc : t.cfg = s.cfg)
    (hw : Wrote s t b sel c) (h1 : c.value &&& ~~~ c.known = 0) (h2 : c.known &&& ~~~ s.cfg.ctrlMask b sel = 0) :
    MemoryOk t where
  canonical := hw.wf h1 h.canonical
  control b' sel' := by
    rw [hc]
    by_cases hx : (b', sel') = (b, sel)
    · cases hx
      rw [hw.here h.canonical]
      exact h2
    · rw [hw.others _ _ hx]
      exact h.control b' sel'

/-- `a` has no bit outside `m`. -/
theorem and_not_eq_zero {a m : RegWord} : a &&& ~~~ m = 0 ↔ ∀ j, a.getLsbD j = true → m.getLsbD j = true := by
  constructor
  · intro h j hj
    have hlt : j < 16 := BitVec.lt_of_getLsbD hj
    have := congrArg (fun w => BitVec.getLsbD w j) h
    simpa [hlt, hj] using this
  · intro h
    apply BitVec.eq_of_getLsbD_eq
    intro j hj
    have := h j
    simp [hj]
    exact this

/-- The state a successful write leaves keeps the register files in order. -/
theorem memoryOk_written {s t : State} {b : BankId} {sel : Selector} {w : RegWord} (h : MemoryOk s) (hc : t.cfg = s.cfg)
    (hw : Wrote s t b sel ⟨s.cfg.ctrlMask b sel, w &&& s.cfg.ctrlMask b sel⟩) : MemoryOk t :=
  memoryOk_wrote h hc hw (and_not_eq_zero.2 fun j hj => by simp at hj; exact hj.2) (and_not_eq_zero.2 fun _ hj => hj)

/-- A step of a command keeps the register files in order. -/
theorem memoryOk_exec {i : Instr} {s t : State} (hm : MemoryOk s) (h : exec i s = .next t) : MemoryOk t := by
  cases execStep h with
  | rejected e hp hc ht =>
    subst ht
    exact memoryOk_same hm rfl fun b => by simp [State.raise]
  | waiting p hp hc hl ht =>
    subst ht
    exact memoryOk_same hm (waits (planShape hc)).outside.cfg (waits (planShape hc)).peer
  | readOk p b sel draw s2 hc htg hp hr ha hh hpe ht =>
    subst ht
    exact memoryOk_same hm (by simpa using ha.outside.cfg) (by simpa using hpe)
  | readFail p b sel draw s2 hc htg hp hr ha hh hpe ht =>
    subst ht
    exact memoryOk_same hm (by simpa using ha.outside.cfg) (by simpa using hpe)
  | writeOk p b sel draw s2 hc htg hp hr ha hh hw ht =>
    have := memoryOk_written hm ha.outside.cfg hw
    subst ht
    exact ⟨by simpa using this.canonical, by simpa using this.control⟩
  | writeFail p b sel draw s2 hc htg hp hr ha hh hw ht =>
    have := memoryOk_wrote hm ha.outside.cfg hw (by simp [CtrlWord.unknown]) (by simp [CtrlWord.unknown])
    subst ht
    exact ⟨by simpa using this.canonical, by simpa using this.control⟩

/-- One step of a `SET_MASK` or `MUX_SET_MASK`. -/
theorem setProgress_step {i : Instr} {s u t : State} {f : Feature} {visit : List BankId} {shift : BankId → Nat}
    {mask : Word32} (hw : s.cfg.wf = true) (hi : WritesMask s.cfg f visit shift mask i)
    (hp : SetProgress s u f visit shift mask) (h : exec i u = .next t) :
    SetEnd s t f visit shift mask ∧ t.record.phase = .idle ∨ SetProgress s t f visit shift mask
      ∧ t.record.phase = .busy := by
  have hv := hi.visit
  have hcfg : u.cfg = s.cfg := by cases hp <;> assumption
  have hmem : MemoryOk u := by cases hp <;> assumption
  have hplan : planOf i u.cfg = .ok (writeMask s.cfg f visit shift mask) := by rw [hcfg]; exact hi.plan
  -- what the due record stands at
  have hdue : ∀ r, r = u.dueRecord (writeMask s.cfg f visit shift mask) → r.place.active →
      ∃ e, r.phase = .busy ∧ r.b ∈ visit ∧ s.cfg.entry? r.b r.k = some e ∧ r.acc = hardwareMask s.cfg f mask shift r.b ∧
        UpdatedBefore s u f visit (hardwareMask s.cfg f mask shift) (Before visit r) ∧
        (r.place = .write → Merged s f (hardwareMask s.cfg f mask shift r.b) r.b e r.wbuf) := by
    intro r hr ha
    cases hp with
    | waiting _ _ hpl hsame =>
      have hr' : r = { (writeMask s.cfg f visit shift mask).enter { u.record with phase := .busy } with place :=
        .read } := by
        rw [hr]; rcases hpl with hpl | hpl <;> simp only [State.dueRecord, hpl] <;> rfl
      have hrb : r.b = visit.headD .one := by rw [hr']; rfl
      have hrk : r.k = 0 := by rw [hr']; rfl
      obtain ⟨e, he⟩ := Config.entry?_of_lt (cfg := s.cfg) (b := r.b) (k := r.k)
        (by rw [hrk, hrb]; exact Config.nreg_pos hw (hv.banks hv.head))
      refine ⟨e, by rw [hr']; rfl, by rw [hrb]; exact hv.head, he, by rw [hr']; rfl, ⟨?_, ?_, ?_⟩, fun h => ?_⟩
      · intro b k e _ _ hb; exact absurd hb (before_start hv hrb hrk b k)
      · intro b k e _ _ _; exact hsame _ _
      · intro b sel _; exact hsame _ _
      · rw [hr'] at h; cases h
    | running _ _ e hphase hplace hb he hacc hub hwbuf =>
      have hr' : r = u.record := by rw [hr]; exact State.dueRecord_running _ hplace
      subst hr'
      exact ⟨e, hphase, hb, he, hacc, hub, hwbuf⟩
  cases execStep h with
  | rejected e hpl hc ht => rw [hplan] at hc; cases hc
  | waiting p hpl hc hl ht =>
    have w := waits (planShape hc)
    rw [← ht] at w
    rw [hplan] at hc
    cases hc
    refine .inr ⟨.waiting (w.outside.cfg.trans hcfg) (memoryOk_same hmem w.outside.cfg w.peer) (.inr ?_) ?_, ?_⟩
    · rw [w.record]; rfl
    · cases hp with
      | waiting _ _ _ hsame => intro b sel; rw [State.ctrl, w.peer]; exact hsame b sel
      | running _ _ _ _ hplace =>
        rcases hplace with h' | h' <;> rcases hpl with h'' | h'' <;> rw [h'] at h'' <;> cases h''
    · rw [w.record]; rfl
  | readOk p b sel draw s2 hc htg hpl hr ha hh hpe ht =>
    rw [hplan] at hc
    cases hc
    obtain ⟨e, hbusy, hb, he, hacc, hub, -⟩ := hdue _ rfl (.inl hpl)
    generalize u.dueRecord (writeMask s.cfg f visit shift mask) = r at *
    obtain ⟨rfl, -, e', he', rfl⟩ := currentRegister_mem htg
    rw [he] at he'
    cases he'
    rw [writeMask_afterRead he] at ht
    subst ht
    have h4 := Config.entry_bounds hw (hv.banks hb) he
    have hg := (ha.goes (r := { r with
      wbuf := scatter (s.cfg.info f).off e.start r.acc e.count (u.logicalWord r.b e.sel draw), place :=
        .write }) hbusy).1
    have hrec := hg.record
    have hub' : UpdatedBefore s (s2.proceed (.go { r with
        wbuf := scatter (s.cfg.info f).off e.start r.acc e.count (u.logicalWord r.b e.sel draw), place :=
          .write })) f visit
        (hardwareMask s.cfg f mask shift) (Before visit r) := by
      have hsame : ∀ b sel, (s2.proceed (.go { r with
        wbuf := scatter (s.cfg.info f).off e.start r.acc e.count (u.logicalWord r.b e.sel draw), place :=
          .write })).ctrl b sel = u.ctrl b sel := by
        intro b sel; rw [State.ctrl_proceed, State.ctrl, hpe]; rfl
      exact ⟨fun b k e h1 h2 h3 => by
        obtain ⟨w, hm, hc⟩ := hub.done b k e h1 h2 h3
        exact ⟨w, hm, by rw [hsame]; exact hc⟩,
        fun b k e h1 h2 h3 => by rw [hsame]; exact hub.ahead b k e h1 h2 h3,
        fun b sel h1 => by rw [hsame]; exact hub.rest b sel h1⟩
    have hmg : Merged s f (hardwareMask s.cfg f mask shift r.b) r.b e
        (scatter (s.cfg.info f).off e.start r.acc e.count (u.logicalWord r.b e.sel draw)) := by
      refine ⟨fun slot hs => ?_, fun j hj hkn => ?_⟩
      · rw [getLsbD_scatter_slot _ _ _ _ hs (by omega), hacc]
      · rw [getLsbD_scatter_other _ _ _ _ _ _ hj]
        have hc := hub.ahead r.b r.k e hb he (not_before_self r)
        rw [getLsbD_logicalWord_known hmem (by rw [hc]; exact hkn), hc]
    rw [show (s2.proceed (.go { r with
        wbuf := scatter (s.cfg.info f).off e.start r.acc e.count (u.logicalWord r.b e.sel draw), place := .write })) =
      s2.setRecord { r with
        wbuf := scatter (s.cfg.info f).off e.start r.acc e.count (u.logicalWord r.b e.sel draw), place :=
          .write } from rfl]
      at hub' ⊢
    refine .inr ⟨.running (ha.outside.cfg.trans hcfg)
      (memoryOk_same hmem ha.outside.cfg (by simpa using hpe)) e ?_ ?_ ?_ ?_ ?_ ?_ ?_,
      ?_⟩ <;> rw [hrec]
    · exact hbusy
    · exact .inr rfl
    · exact hb
    · exact he
    · exact hacc
    · exact hub'
    · exact fun _ => hmg
    · exact hbusy
  | readFail p b sel low s2 hc htg hpl hr ha hh hpe ht =>
    rw [hplan] at hc
    cases hc
    obtain ⟨e, hbusy, hb, he, hacc, hub, -⟩ := hdue _ rfl (.inl hpl)
    generalize u.dueRecord (writeMask s.cfg f visit shift mask) = r at *
    obtain ⟨rfl, -, e', he', rfl⟩ := currentRegister_mem htg
    rw [he] at he'
    cases he'
    have hsame : ∀ b sel, t.ctrl b sel = u.ctrl b sel := by
      intro b sel; rw [ht, State.ctrl_respond, State.ctrl, hpe]; rfl
    refine .inl ⟨.failed r e low hb he (by rw [ht, State.response_respond, hcfg]) ?_ ?_ ?_ ?_,
      by rw [ht, State.record_respond]; rfl⟩
    · intro b k e h1 h2 h3
      obtain ⟨w, hm, hc⟩ := hub.done b k e h1 h2 h3
      exact ⟨w, hm, by rw [hsame]; exact hc⟩
    · intro b k e h1 h2 h3 _; rw [hsame]; exact hub.ahead b k e h1 h2 h3
    · rw [hsame]; exact .inl (hub.ahead r.b r.k e hb he (not_before_self r))
    · intro b sel h1; rw [hsame]; exact hub.rest b sel h1
  | writeOk p b sel draw s2 hc htg hpl hr ha hh hwr ht =>
    rw [hplan] at hc
    cases hc
    obtain ⟨e, hbusy, hb, he, hacc, hub, hmg⟩ := hdue _ rfl (.inr hpl)
    replace hmg := hmg hpl
    generalize u.dueRecord (writeMask s.cfg f visit shift mask) = r at *
    obtain ⟨rfl, -, e', he', rfl⟩ := currentRegister_mem htg
    rw [he] at he'
    cases he'
    have hctrl : ∀ q, (s2.proceed q).ctrl r.b e.sel = ⟨s.cfg.ctrlMask r.b e.sel,
      r.wbuf &&& s.cfg.ctrlMask r.b e.sel⟩ := by
      intro q; rw [State.ctrl_proceed, hwr.here hmem.canonical, hcfg]
    have hoth : ∀ q, SamePeersBut r.b e.sel u (s2.proceed q) := hwr.others.proceed
    have hmem2 : MemoryOk s2 := memoryOk_written hmem ha.outside.cfg hwr
    by_cases hk : r.k + 1 < s.cfg.nreg r.b
    · rw [writeMask_more hk] at ht
      have hub' := hub.write (before' := Before visit { r with k := r.k + 1, place := .read }) hw hv hb he hmg
        (hctrl (.go { r with k := r.k + 1, place := .read })) (hoth _) (fun b' k' _ _ =>
          before_more (r := r) (r' := { r with k := r.k + 1, place := .read }) rfl rfl b' k')
      obtain ⟨e', he'⟩ := Config.entry?_of_lt hk
      have hrec := (ha.goes (r := { r with k := r.k + 1, place := .read }) hbusy).1.record
      subst ht
      change UpdatedBefore s (s2.setRecord { r with k := r.k + 1, place := .read }) _ _ _ _ at hub'
      change _ ∨ SetProgress s (s2.setRecord { r with k := r.k + 1, place := .read }) _ _ _ _ ∧
        (s2.setRecord { r with k := r.k + 1, place := .read }).record.phase = _
      refine .inr ⟨.running (ha.outside.cfg.trans hcfg) (memoryOk_same hmem2 rfl (by simp)) e' ?_ ?_ ?_ ?_ ?_ ?_ ?_,
        ?_⟩ <;> rw [hrec]
      · exact hbusy
      · exact .inl rfl
      · exact hb
      · exact he'
      · exact hacc
      · exact hub'
      · exact fun h => by cases h
      · exact hbusy
    · replace hk := Nat.not_lt.1 hk
      rcases hn : nextBank visit r.b with _ | b
      · rw [writeMask_done hk hn] at ht
        have hub' := hub.write (before' := fun _ _ => True) hw hv hb he hmg (hctrl (.done 0)) (hoth _)
          (fun b' k' h1 h2 => ⟨fun _ => before_last hv hb hn hk h1 h2, fun _ => trivial⟩)
        subst ht
        exact .inl ⟨.done (State.response_respond _ _) hub', by rw [State.proceed, State.record_respond]; rfl⟩
      · rw [writeMask_next hk hn] at ht
        have hub' := hub.write
          (before' := Before visit { r with b := b, k := 0, acc := hardwareMask s.cfg f mask shift b, place := .read })
          hw hv hb he hmg
          (hctrl (.go { r with b := b, k := 0, acc := hardwareMask s.cfg f mask shift b, place := .read })) (hoth _)
          (fun b' k' _ h2 => before_next hv hn rfl hk h2)
        have hbv := nextBank_mem hn
        obtain ⟨e', he'⟩ := Config.entry?_of_lt (Config.nreg_pos hw (hv.banks hbv))
        have hrec := (ha.goes (r := { r with b := b, k := 0, acc := hardwareMask s.cfg f mask shift b, place := .read })
          hbusy).1.record
        subst ht
        change UpdatedBefore s
          (s2.setRecord { r with b := b, k := 0, acc := hardwareMask s.cfg f mask shift b, place :=
            .read }) _ _ _ _ at hub'
        change _ ∨ SetProgress s
          (s2.setRecord { r with b := b, k := 0, acc := hardwareMask s.cfg f mask shift b, place := .read }) _ _ _ _ ∧
          (s2.setRecord { r with b := b, k := 0, acc := hardwareMask s.cfg f mask shift b, place :=
            .read }).record.phase = _
        refine .inr ⟨.running (ha.outside.cfg.trans hcfg) (memoryOk_same hmem2 rfl (by simp)) e' ?_ ?_ ?_ ?_ ?_ ?_ ?_,
          ?_⟩ <;> rw [hrec]
        · exact hbusy
        · exact .inl rfl
        · exact hbv
        · exact he'
        · exact hub'
        · exact fun h => by cases h
        · exact hbusy
  | writeFail p b sel low s2 hc htg hpl hr ha hh hwr ht =>
    rw [hplan] at hc
    cases hc
    obtain ⟨e, hbusy, hb, he, hacc, hub, -⟩ := hdue _ rfl (.inr hpl)
    generalize u.dueRecord (writeMask s.cfg f visit shift mask) = r at *
    obtain ⟨rfl, -, e', he', rfl⟩ := currentRegister_mem htg
    rw [he] at he'
    cases he'
    have hoth : SamePeersBut r.b e.sel u t := by rw [ht]; exact hwr.others.respond _
    have hne : ∀ b k e', b ∈ visit → s.cfg.entry? b k = some e' → (b, k) ≠ (r.b, r.k) → (b, e'.sel) ≠ (r.b, e.sel) := by
      intro b k e' h1 h2 h3 hx
      obtain ⟨rfl, hsel⟩ := Prod.mk.inj hx
      exact h3 (by rw [Config.entry_sel_inj hw (hv.banks hb) h2 he hsel])
    refine .inl ⟨.failed r e low hb he (by rw [ht, State.response_respond, hcfg]) ?_ ?_ ?_ ?_,
      by rw [ht, State.record_respond]; rfl⟩
    · intro b k e' h1 h2 h3
      obtain ⟨w, hm, hc⟩ := hub.done b k e' h1 h2 h3
      refine ⟨w, hm, ?_⟩
      rw [hoth _ _ (hne b k e' h1 h2 fun hx => ?_)]
      · exact hc
      · obtain ⟨rfl, rfl⟩ := Prod.mk.inj hx
        exact not_before_self r h3
    · intro b k e' h1 h2 h3 h4
      rw [hoth _ _ (hne b k e' h1 h2 h4)]
      exact hub.ahead b k e' h1 h2 h3
    · rw [ht, State.ctrl_respond, hwr.here hmem.canonical]; exact .inr rfl
    · intro b sel h1
      rw [hoth _ _ fun hx => ?_]
      · exact hub.rest b sel h1
      · obtain ⟨rfl, rfl⟩ := Prod.mk.inj hx
        exact h1 (mem_registersOf.2 ⟨hb, r.k, e, he, rfl⟩)

/-! ### What the end of a SET_MASK says -/

/-- Each port's bit of the hardware mask is the hardware value of its presented bit. -/
theorem WritesMask.getLsbD_hardwareMask {cfg : Config} {f : Feature} {visit : List BankId} {shift : BankId → Nat}
    {mask : Word32} {i : Instr} (hi : WritesMask cfg f visit shift mask i) (hw : cfg.wf = true) {b : BankId}
      (hb : b ∈ visit)
    {p : Nat} (hp : p < cfg.ports b) :
    (hardwareMask cfg f mask shift b).getLsbD p = presentBit (cfg.info f).pol (mask.getLsbD (shift b + p)) := by
  have h16 := (Config.wf_descriptor hw (hi.visit.banks hb)).2.2.2
  rw [hardwareMask, getLsbD_present _ _ (by omega) hp]
  congr 1
  simp
  intro h
  omega

/-- How a `SET_MASK` or `MUX_SET_MASK` run alone ends. -/
theorem setMask_end {i : Instr} {s t : State} {f : Feature} {visit : List BankId} {shift : BankId → Nat} {mask : Word32}
    {n : Nat} (hw : s.cfg.wf = true) (hm : MemoryOk s) (hi : WritesMask s.cfg f visit shift mask i)
    (hp : s.record.place = .start) (hn : 0 < n) (h : runAlone i n s = .next t) (ht : t.record = InFlight.idle) :
    SetEnd s t f visit shift mask :=
  runAlone_induction (P := fun u => SetProgress s u f visit shift mask) (Q := fun t => SetEnd s t f visit shift mask)
    (fun _ _ hu he => setProgress_step hw hi hu he) (.waiting rfl hm (.inl hp) fun _ _ => rfl) hn h (by rw [ht]; rfl)

/-- An updated register, bit by bit. -/
theorem Updated.bits {s t : State} {i : Instr} {f : Feature} {visit : List BankId}
    {shift : BankId → Nat} {mask : Word32}
    {b : BankId} {k : Nat} {e : Entry} (hu : Updated s t f (hardwareMask s.cfg f mask shift b) b e)
    (hi : WritesMask s.cfg f visit shift mask i) (hw : s.cfg.wf = true) (hm : MemoryOk s) (hb : b ∈ visit)
    (he : s.cfg.entry? b k = some e) :
    (t.ctrl b e.sel).known = s.cfg.ctrlMask b e.sel
      ∧ (∀ slot, slot < e.count → (t.ctrl b e.sel).value.getLsbD (4 * slot + (s.cfg.info f).off.toNat) =
        presentBit (s.cfg.info f).pol (mask.getLsbD (shift b + (e.start + slot))))
      ∧ ∀ j, (∀ slot, slot < e.count → j ≠ 4 * slot + (s.cfg.info f).off.toNat) →
        (s.ctrl b e.sel).known.getLsbD j = true →
        (t.ctrl b e.sel).value.getLsbD j = (s.ctrl b e.sel).value.getLsbD j := by
  obtain ⟨w, hmg, hc⟩ := hu
  rw [hc]
  have hbnd := Config.entry_bounds hw (hi.visit.banks hb) he
  refine ⟨rfl, fun slot hs => ?_, fun j hj hk => ?_⟩
  · have h1 := hmg.slots slot hs
    have h2 := ctrlMask_slot hw (hi.visit.banks hb) he hi.writable hs
    simp only [bitPos] at h1 h2
    rw [BitVec.getLsbD_and, h1, h2, Bool.and_true]
    exact hi.getLsbD_hardwareMask hw hb (by omega)
  · have hcm : (s.cfg.ctrlMask b e.sel).getLsbD j = true := and_not_eq_zero.1 (hm.control b e.sel) j hk
    rw [BitVec.getLsbD_and, hcm, Bool.and_true]
    exact hmg.others j hj hk

/-- The order of registers in numbers: by bank, then by ordinal. -/
theorem before_iff {cfg : Config} {visit : List BankId} (hv : VisitOk cfg visit) {r : InFlight}
    (hr : r.b ∈ visit) {b' : BankId} {k' : Nat} (hb : b' ∈ visit) :
    Before visit r b' k' ↔ b'.number.toNat < r.b.number.toNat ∨ b' = r.b ∧ k' < r.k := by
  simp only [Before]
  rcases hv.cases with ⟨a, rfl⟩ | rfl
  · rw [List.mem_singleton] at hb hr
    rw [hb, hr]; simp [passed]
  · generalize r.b = rb at *
    cases rb <;> cases b' <;> simp [passed, BankId.number]

/-- A command run changes no configuration. -/
theorem runAlone_cfg {i : Instr} {n : Nat} {s t : State} (h : runAlone i n s = .next t) : t.cfg = s.cfg := by
  induction n generalizing s with
  | zero => simp [runAlone] at h; rw [h]
  | succ n ih =>
    simp only [runAlone] at h
    split at h
    · rename_i u hu
      have hc : u.cfg = s.cfg := by
        cases execStep hu with
        | rejected e hp hc ht => subst ht; rfl
        | waiting p hp hc _ ht => subst ht; exact (waits (planShape hc)).outside.cfg
        | readOk p b' sel draw s2 hc htg hp hr ha hh hpe ht => subst ht; exact (ha.outside.proceed _).cfg
        | readFail p b' sel draw s2 hc htg hp hr ha hh hpe ht => subst ht; exact (ha.outside.respond _).cfg
        | writeOk p b' sel draw s2 hc htg hp hr ha hh hpe ht => subst ht; exact (ha.outside.proceed _).cfg
        | writeFail p b' sel draw s2 hc htg hp hr ha hh hpe ht => subst ht; exact (ha.outside.respond _).cfg
      split_ifs at h
      · cases h; exact hc
      · rw [ih h, hc]
    · cases h
    · cases h

/-- `CTRL` of a feature at a port, read from the register of its entry. -/
theorem ctrlBit_at {s : State} {b : BankId} {f : Feature} {p k : Nat} {e : Entry} (hw : s.cfg.wf = true)
    (hb : b ∈ s.cfg.banks) (he : s.cfg.entry? b k = some e) (h1 : e.start ≤ p) (h2 : p < e.start + e.count) :
    s.ctrlBit b f p = if (s.ctrl b e.sel).known.getLsbD (bitPos (s.cfg.info f).off (p - e.start)) then
      some ((s.ctrl b e.sel).value.getLsbD (bitPos (s.cfg.info f).off (p - e.start)))
    else none := by
  have hl := Config.locate_of_entry hw hb he h1 h2
  by_cases hk : (s.ctrl b e.sel).known.getLsbD (4 * (p - e.start) + (s.cfg.info f).off.toNat) = true <;>
    simp [State.ctrlBit, portRegister_eq hl he, portBit_eq hl, bitPos, hk]

end Sys2Proof.Machine
end

