-- ==== Sys2Proof/Laws/Gather.lean ====
section
/-! SUPPORT. The read path over several registers (41_transcode.md R161, 42_bank_mux.md R205): what the accumulator and
the global mask hold after each read, bit by bit, and the position of a register in the order of a mask command. -/

namespace Sys2Proof.Machine

/-- Where the banks' masks go: within 32 bits, one bank's ports clear of another's. -/
structure ShiftOk (cfg : Config) (visit : List BankId) (shift : BankId → Nat) : Prop where
  fits  : ∀ b ∈ visit, shift b + cfg.ports b ≤ 32
  clear : ∀ b ∈ visit, ∀ b' ∈ visit, b ≠ b' → shift b + cfg.ports b ≤ shift b' ∨ shift b' + cfg.ports b' ≤ shift b

theorem ReadsMask.shiftOk {cfg : Config} {f : Feature} {visit : List BankId} {shift : BankId → Nat} {i : Instr}
    (h : ReadsMask cfg f visit shift i) (hw : cfg.wf = true) : ShiftOk cfg visit shift := by
  have h16 : ∀ b ∈ visit, cfg.ports b ≤ 16 := fun b hb => (Config.wf_descriptor hw (h.visit.banks hb)).2.2.2
  cases i <;> simp only [ReadsMask] at h
  · obtain ⟨b, -, -, rfl, rfl⟩ := h
    refine ⟨fun b' hb' => ?_, fun b1 h1 b2 h2 hne => ?_⟩
    · have := h16 b' hb'; omega
    · rw [List.mem_singleton] at h1 h2
      exact absurd (h1.trans h2.symm) hne
  · obtain ⟨-, -, rfl⟩ := h
    refine ⟨fun b' hb' => ?_, fun b1 h1 b2 h2 hne => ?_⟩
    · have := h16 b' hb'
      cases b' <;> simp only [BankId.base] <;> omega
    · have := h16 b1 h1
      have := h16 b2 h2
      cases b1 <;> cases b2 <;> simp only [BankId.base] <;> first | exact absurd rfl hne | omega

/-- What the accumulator `ACC` and the mask `G` hold when a record stands at a register, `W b k` being the logical word
read from entry `k` of bank `b`. -/
structure Gathered (cfg : Config) (f : Feature) (visit : List BankId) (shift : BankId → Nat)
    (W : BankId → Nat → RegWord) (r : InFlight) : Prop where
  acc  : ∀ k e slot, k < r.k → cfg.entry? r.b k = some e → slot < e.count →
    r.acc.getLsbD (e.start + slot) = (W r.b k).getLsbD (bitPos (cfg.info f).off slot)
  high : ∀ e j, cfg.entry? r.b r.k = some e → e.start ≤ j → r.acc.getLsbD j = false
  out  : ∀ b k e slot, b ∈ passed visit r.b → cfg.entry? b k = some e → slot < e.count →
    r.g.getLsbD (shift b + (e.start + slot)) =
      presentBit (cfg.info f).pol ((W b k).getLsbD (bitPos (cfg.info f).off slot))
  rest : ∀ j, (∀ b ∈ passed visit r.b, j < shift b ∨ shift b + cfg.ports b ≤ j) → r.g.getLsbD j = false

theorem passed_subset {visit : List BankId} {b x : BankId} (h : x ∈ passed visit b) : x ∈ visit := by
  induction visit with
  | nil => cases h
  | cons a t ih =>
    simp only [passed] at h
    split_ifs at h
    · cases h
    · rcases List.mem_cons.1 h with rfl | h
      · simp
      · exact List.mem_cons_of_mem _ (ih h)

/-- At the start nothing is gathered. -/
theorem gathered_start {cfg : Config} {f : Feature} {visit : List BankId} {shift : BankId → Nat}
    (W : BankId → Nat → RegWord) {r : InFlight} (hv : VisitOk cfg visit) (hb : r.b = visit.headD .one) (hk : r.k = 0)
    (ha : r.acc = 0) (hg : r.g = 0) : Gathered cfg f visit shift W r where
  acc k e slot h := by omega
  high e j _ _ := by rw [ha]; exact BitVec.getLsbD_zero
  out b k e slot h := by rw [hb, passed_head hv] at h; cases h
  rest j _ := by rw [hg]; exact BitVec.getLsbD_zero

/-- The accumulator after a read: the bits of the register read are in, the bits above its ports are 0. -/
theorem Gathered.acc_read {cfg : Config} {f : Feature} {visit : List BankId} {shift : BankId → Nat}
    {W : BankId → Nat → RegWord} {r : InFlight} (h : Gathered cfg f visit shift W r) (hw : cfg.wf = true)
    (hb : r.b ∈ cfg.banks) {e : Entry} (he : cfg.entry? r.b r.k = some e) :
    (∀ k e' slot, k ≤ r.k → cfg.entry? r.b k = some e' → slot < e'.count →
      (gather (cfg.info f).off e.start (W r.b r.k) e.count r.acc).getLsbD (e'.start + slot) =
        (W r.b k).getLsbD (bitPos (cfg.info f).off slot)) ∧
    ∀ j, e.start + e.count ≤ j → (gather (cfg.info f).off e.start (W r.b r.k) e.count r.acc).getLsbD j = false := by
  have hbd := Config.entry_bounds hw hb he
  obtain ⟨-, hc, -, -⟩ := Config.wf_descriptor hw hb
  refine ⟨fun k e' slot hk he' hs => ?_, fun j hj => ?_⟩
  · rw [getLsbD_gather]
    rcases Nat.lt_or_eq_of_le hk with hk | rfl
    · have := contiguousFrom_lt hc he' he hk
      rw [if_neg (by omega)]
      exact h.acc k e' slot hk he' hs
    · rw [he] at he'
      cases he'
      rw [if_pos (by omega), Nat.add_sub_cancel_left]
  · rw [getLsbD_gather, if_neg (by omega)]
    exact h.high e j he (by omega)

/-- Going on to the next register of the same bank. -/
theorem Gathered.more {cfg : Config} {f : Feature} {visit : List BankId} {shift : BankId → Nat}
    {W : BankId → Nat → RegWord} {r r' : InFlight} (h : Gathered cfg f visit shift W r) (hw : cfg.wf = true)
    (hb : r.b ∈ cfg.banks) {e : Entry} (he : cfg.entry? r.b r.k = some e) (hrb : r'.b = r.b) (hrk : r'.k = r.k + 1)
    (hrg : r'.g = r.g) (hra : r'.acc = gather (cfg.info f).off e.start (W r.b r.k) e.count r.acc) :
    Gathered cfg f visit shift W r' := by
  obtain ⟨h1, h2⟩ := h.acc_read hw hb he
  obtain ⟨-, hc, -, -⟩ := Config.wf_descriptor hw hb
  refine ⟨fun k e' slot hk he' hs => ?_, fun e' j he' hj => ?_, fun b k e' slot hbp => ?_, fun j hj => ?_⟩
  · rw [hrb] at he' ⊢
    rw [hra]
    exact h1 k e' slot (by omega) he' hs
  · rw [hrb, hrk] at he'
    have := contiguousFrom_lt hc he he' (by omega)
    rw [hra]
    exact h2 j (by omega)
  · rw [hrb] at hbp
    rw [hrg]
    exact h.out b k e' slot hbp
  · rw [hrb] at hj
    rw [hrg]
    exact h.rest j hj

/-- The mask `G` after a bank's last register. -/
theorem Gathered.bank {cfg : Config} {f : Feature} {visit : List BankId} {shift : BankId → Nat}
    {W : BankId → Nat → RegWord} {r : InFlight} (h : Gathered cfg f visit shift W r) (hw : cfg.wf = true)
    (hv : VisitOk cfg visit) (hsh : ShiftOk cfg visit shift) (hb : r.b ∈ visit) {e : Entry}
    (he : cfg.entry? r.b r.k = some e) (hk : cfg.nreg r.b ≤ r.k + 1) {g : Word32}
    (hg : g = r.g ||| present (cfg.info f).pol (gather (cfg.info f).off e.start (W r.b r.k) e.count r.acc)
      (cfg.ports r.b) <<< shift r.b) :
    (∀ b k e slot, (b ∈ passed visit r.b ∨ b = r.b) → cfg.entry? b k = some e → slot < e.count →
      g.getLsbD (shift b + (e.start + slot)) =
        presentBit (cfg.info f).pol ((W b k).getLsbD (bitPos (cfg.info f).off slot))) ∧
    ∀ j, (∀ b, (b ∈ passed visit r.b ∨ b = r.b) → j < shift b ∨ shift b + cfg.ports b ≤ j) → g.getLsbD j = false := by
  have hbk := hv.banks hb
  have hbd := Config.entry_bounds hw hbk he
  obtain ⟨-, hc, -, -⟩ := Config.wf_descriptor hw hbk
  obtain ⟨h1, h2⟩ := h.acc_read hw hbk he
  have hfit := hsh.fits _ hb
  -- the accumulator has no bit at or above the bank's ports
  have hhigh : ∀ j, cfg.ports r.b ≤ j →
      (gather (cfg.info f).off e.start (W r.b r.k) e.count r.acc).getLsbD j = false := fun j hj => h2 j (by omega)
  subst hg
  refine ⟨fun b k e' slot hbp he' hs => ?_, fun j hj => ?_⟩
  · have hbd' : e'.start + e'.count ≤ cfg.ports b := by
      rcases hbp with hbp | rfl
      · exact (Config.entry_bounds hw (hv.banks (passed_subset hbp)) he').1
      · exact (Config.entry_bounds hw hbk he').1
    rw [BitVec.getLsbD_or, BitVec.getLsbD_shiftLeft]
    rcases hbp with hbp | rfl
    · rw [h.out b k e' slot hbp he' hs]
      have hne := passed_ne hbp
      have hf := hsh.fits b (passed_subset hbp)
      rcases hsh.clear b (passed_subset hbp) r.b hb hne with hcl | hcl
      · simp [show shift b + (e'.start + slot) < shift r.b by omega]
      · rw [getLsbD_present_ge _ _ (by omega) (hhigh _ (by omega))]
        simp
    · have hk' : k ≤ r.k := by have := Config.entry?_lt he'; omega
      have hrest : r.g.getLsbD (shift r.b + (e'.start + slot)) = false := h.rest _ fun b hbp => by
        have hne := passed_ne hbp
        have hf := hsh.fits b (passed_subset hbp)
        rcases hsh.clear b (passed_subset hbp) r.b hb hne with hcl | hcl <;> omega
      rw [hrest, Bool.false_or, show shift r.b + (e'.start + slot) - shift r.b = e'.start + slot by omega,
        getLsbD_present _ _ (by omega) (by omega), h1 k e' slot hk' he' hs]
      simp [show shift r.b + (e'.start + slot) < 32 by omega]
  · rw [BitVec.getLsbD_or, BitVec.getLsbD_shiftLeft, h.rest j fun b hbp => hj b (.inl hbp)]
    rcases hj r.b (.inr rfl) with hlt | hge
    · simp [hlt]
    · rw [getLsbD_present_ge _ _ (by omega) (hhigh _ (by omega))]
      simp

/-- Going on to the next bank. -/
theorem Gathered.next {cfg : Config} {f : Feature} {visit : List BankId} {shift : BankId → Nat}
    {W : BankId → Nat → RegWord} {r r' : InFlight} (h : Gathered cfg f visit shift W r) (hw : cfg.wf = true)
    (hv : VisitOk cfg visit) (hsh : ShiftOk cfg visit shift) (hb : r.b ∈ visit) {e : Entry}
    (he : cfg.entry? r.b r.k = some e) (hk : cfg.nreg r.b ≤ r.k + 1) (hn : nextBank visit r.b = some r'.b)
    (hrk : r'.k = 0) (hra : r'.acc = 0)
    (hrg : r'.g = r.g ||| present (cfg.info f).pol (gather (cfg.info f).off e.start (W r.b r.k) e.count r.acc)
      (cfg.ports r.b) <<< shift r.b) : Gathered cfg f visit shift W r' := by
  obtain ⟨h1, h2⟩ := h.bank hw hv hsh hb he hk hrg
  refine ⟨fun k e' slot hk' => by omega, fun e' j _ _ => by rw [hra]; exact BitVec.getLsbD_zero,
    fun b k e' slot hbp => h1 b k e' slot ((passed_next hv hn b).1 hbp), fun j hj => h2 j fun b hbp => ?_⟩
  exact hj b ((passed_next hv hn b).2 hbp)

/-- `W` matters only at the registers before the one a record stands at. -/
theorem Gathered.congr {cfg : Config} {f : Feature} {visit : List BankId} {shift : BankId → Nat}
    {W W' : BankId → Nat → RegWord} {r : InFlight} (h : Gathered cfg f visit shift W r)
    (hW : ∀ b k, Before visit r b k → W' b k = W b k) : Gathered cfg f visit shift W' r :=
  ⟨fun k e slot hk he hs => by rw [hW _ _ (.inr ⟨rfl, hk⟩)]; exact h.acc k e slot hk he hs, h.high,
    fun b k e slot hb he hs => by rw [hW _ _ (.inl hb)]; exact h.out b k e slot hb he hs, h.rest⟩

/-! ### Positions -/

/-- How many registers come before entry `k` of bank `b` in the order of a mask command. -/
def position (cfg : Config) (visit : List BankId) (b : BankId) (k : Nat) : Nat :=
    ((passed visit b).map cfg.nreg).sum + k

theorem position_start {cfg : Config} {visit : List BankId} (hv : VisitOk cfg visit) :
    position cfg visit (visit.headD .one) 0 = 0 := by
  simp only [position, passed_head hv]
  rfl

theorem registersOf_position {cfg : Config} {visit : List BankId} (hv : VisitOk cfg visit) {b : BankId} (hb : b ∈ visit)
    {k : Nat} {e : Entry} (he : cfg.entry? b k = some e) :
    (registersOf cfg visit)[position cfg visit b k]? = some (b, e.sel) := by
  have hk := Config.entry?_lt he
  have h1 : ((cfg.entries b).map fun e => (b, e.sel))[k]? = some (b, e.sel) := by
    rw [List.getElem?_map]
    rw [show (cfg.entries b)[k]? = some e from he]
    rfl
  rcases hv.cases with ⟨a, rfl⟩ | rfl
  · obtain rfl := List.mem_singleton.1 hb
    simpa [registersOf, position, passed] using h1
  · cases b
    · simp only [registersOf, position, passed, List.flatMap_cons, if_true, List.map_nil, List.sum_nil, Nat.zero_add]
      rw [List.getElem?_append_left (by simpa [Config.nreg] using hk)]
      exact h1
    · simp only [registersOf, position, passed, List.flatMap_cons, List.flatMap_nil, List.append_nil]
      rw [List.getElem?_append_right (by simp [Config.nreg])]
      simpa [Config.nreg] using h1

theorem position_lt {cfg : Config} {visit : List BankId} (hv : VisitOk cfg visit) {b : BankId} (hb : b ∈ visit)
    {k : Nat} (hk : k < cfg.nreg b) : position cfg visit b k < (registersOf cfg visit).length := by
  obtain ⟨e, he⟩ := Config.entry?_of_lt hk
  by_contra h
  have := registersOf_position hv hb he
  rw [List.getElem?_eq_none (by omega)] at this
  cases this

theorem position_next {cfg : Config} {visit : List BankId} (hv : VisitOk cfg visit) {b b' : BankId}
    (hn : nextBank visit b = some b') {k : Nat} (hk : k + 1 = cfg.nreg b) :
    position cfg visit b' 0 = position cfg visit b k + 1 := by
  rcases hv.cases with ⟨a, rfl⟩ | rfl
  · simp [nextBank] at hn
  · cases b <;> simp [nextBank] at hn
    subst hn
    simp [position, passed, ← hk]

theorem position_last {cfg : Config} {visit : List BankId} (hv : VisitOk cfg visit) {b : BankId} (hb : b ∈ visit)
    (hn : nextBank visit b = none) {k : Nat} (hk : k + 1 = cfg.nreg b) :
    position cfg visit b k + 1 = (registersOf cfg visit).length := by
  rcases hv.cases with ⟨a, rfl⟩ | rfl
  · obtain rfl := List.mem_singleton.1 hb
    simp [registersOf, position, passed, hk, Config.nreg]
  · cases b
    · simp [nextBank] at hn
    · simp only [registersOf, position, passed]
      simp [Config.nreg] at hk ⊢
      omega

/-- A register stands at one position. -/
theorem position_inj {cfg : Config} {visit : List BankId} (hv : VisitOk cfg visit) {b b' : BankId} (hb : b ∈ visit)
    (hb' : b' ∈ visit) {k k' : Nat} (hk : k < cfg.nreg b) (hk' : k' < cfg.nreg b')
    (h : position cfg visit b k = position cfg visit b' k') : b = b' ∧ k = k' := by
  rcases hv.cases with ⟨a, rfl⟩ | rfl
  · obtain rfl := List.mem_singleton.1 hb
    obtain rfl := List.mem_singleton.1 hb'
    exact ⟨rfl, by simpa [position] using h⟩
  · cases b <;> cases b' <;> simp [position, passed] at h ⊢ <;> omega

/-- A mask command visits at most 8 registers. -/
theorem registersOf_length_le {cfg : Config} (hw : cfg.wf = true) {visit : List BankId} (hv : VisitOk cfg visit) :
    (registersOf cfg visit).length ≤ 8 := by
  have h4 : ∀ b ∈ visit, (cfg.entries b).length ≤ 4 := fun b hb => Config.wf_nreg_le hw (hv.banks hb)
  rcases hv.cases with ⟨a, rfl⟩ | rfl
  · have := h4 a (by simp)
    simp [registersOf]
    omega
  · have := h4 .one (by simp)
    have := h4 .two (by simp)
    simp [registersOf]
    omega

/-- The registers of a mask command are pairwise different. -/
theorem registersOf_nodup {cfg : Config} (hw : cfg.wf = true) {visit : List BankId} (hv : VisitOk cfg visit) :
    (registersOf cfg visit).Nodup := by
  have h1 : ∀ b ∈ visit, ((cfg.entries b).map fun e => (b, e.sel)).Nodup := fun b hb => by
    obtain ⟨-, -, hn, -⟩ := Config.wf_descriptor hw (hv.banks hb)
    have h2 := hn.map (f := fun x : Selector => (b, x)) fun x y h => (Prod.mk.inj h).2
    rwa [List.map_map] at h2
  rcases hv.cases with ⟨a, rfl⟩ | rfl
  · simpa [registersOf] using h1 a (by simp)
  · simp only [registersOf, List.flatMap_cons, List.flatMap_nil, List.append_nil]
    refine List.nodup_append.2 ⟨h1 _ (by simp), h1 _ (by simp), fun x hx y hy => ?_⟩
    simp only [List.mem_map] at hx hy
    obtain ⟨_, _, rfl⟩ := hx
    obtain ⟨_, _, rfl⟩ := hy
    simp

/-- The word a mask command drew for a register stands at the register's position. -/
theorem draw_at_position {cfg : Config} (hw : cfg.wf = true) {visit : List BankId} (hv : VisitOk cfg visit)
    {α : Type} {draws : List α} {b : BankId} (hb : b ∈ visit) {k : Nat} {e : Entry} (he : cfg.entry? b k = some e)
    {draw : α} (h : ((b, e.sel), draw) ∈ (registersOf cfg visit).zip draws) :
    draws[position cfg visit b k]? = some draw := by
  obtain ⟨j, hj⟩ := List.getElem?_of_mem h
  obtain ⟨h1, h2⟩ := List.getElem?_zip_eq_some.1 hj
  have hp := registersOf_position hv hb he
  have hlt : j < (registersOf cfg visit).length := (List.getElem?_eq_some_iff.1 h1).1
  rwa [(List.getElem?_inj hlt (registersOf_nodup hw hv)).1 (h1.trans hp.symm)] at h2

/-! ### States of one run -/

/-- State `u` stands in a run of the served caller's command from `s`: nothing outside the command has changed but the
locks it took. -/
structure Along (s u : State) (p : Plan) : Prop where
  outside : SameOutside s u
  lock    : LocksTaken s u p

theorem Along.after {s u s2 : State} {p : Plan} {x : Transaction} (h : Along s u p) (ha : After u s2 p x) :
    Along s s2 p := by
  refine ⟨h.outside.trans ha.outside, fun b => ?_⟩
  rcases ha.lock b with h1 | ⟨h0, h1, h2, h3⟩
  · rw [h1]
    exact h.lock b
  · rcases h.lock b with h4 | ⟨-, -, -, h5⟩
    · rw [h.outside.cfg] at h0
      exact .inr ⟨h0, by rw [← h4]; exact h1, h2, by rw [h3, h.outside.cur]⟩
    · rw [h5] at h1
      cases h1

theorem Along.ended {s s2 : State} {p : Plan} (h : Along s s2 p) (r : Response) :
    Ended s (s2.respond r) r ∧ SameOutside s (s2.respond r) :=
  ⟨⟨by simp, by simp, fun b => by rw [State.lock_respond, h.outside.cur]; exact h.lock.released b⟩,
    h.outside.respond r⟩

theorem Along.setRecord {s s2 : State} {p : Plan} (h : Along s s2 p) (r : InFlight) : Along s (s2.setRecord r) p :=
  ⟨h.outside.setRecord r, fun b => by rw [State.lock_setRecord]; exact h.lock b⟩

end Sys2Proof.Machine
end

