-- ==== Sys2Proof/Laws/PerInstr.lean ====
section
/-! SUPPORT. Statements made once per command. -/

namespace Sys2Proof.Laws

open Sys2Proof

theorem opField_cmdWord (op feat : BitVec 4) (bank : BitVec 2) (idx : BitVec 8) (v : Bool) :
    opField (cmdWord op feat bank idx v) = op := by
  apply BitVec.eq_of_getLsbD_eq
  intro j hj
  simp only [opField, cmdWord, BitVec.getLsbD_extractLsb', BitVec.getLsbD_or, BitVec.getLsbD_shiftLeft,
    BitVec.getLsbD_setWidth]
  interval_cases j <;> simp

theorem reservedLow_cmdWord (op feat : BitVec 4) (bank : BitVec 2) (idx : BitVec 8) (v : Bool) :
    reservedLow (cmdWord op feat bank idx v) = 0 := by
  apply BitVec.eq_of_getLsbD_eq
  intro j hj
  simp only [reservedLow, cmdWord, BitVec.getLsbD_extractLsb', BitVec.getLsbD_or, BitVec.getLsbD_shiftLeft,
    BitVec.getLsbD_setWidth]
  interval_cases j <;> simp

theorem reservedHigh_cmdWord (op feat : BitVec 4) (bank : BitVec 2) (idx : BitVec 8) (v : Bool) :
    reservedHigh (cmdWord op feat bank idx v) = 0 := by
  apply BitVec.eq_of_getLsbD_eq
  intro j hj
  simp only [reservedHigh, cmdWord, BitVec.getLsbD_extractLsb', BitVec.getLsbD_or, BitVec.getLsbD_shiftLeft,
    BitVec.getLsbD_setWidth]
  interval_cases j <;> simp

namespace OpAndReserved

/-- The `OP` of a command (30_encoding.md R113). -/
def op : Instr → BitVec 4
  | .rdw _ _ => 0x1
  | .wrw _ _ _ => 0x2
  | .getm _ _ => 0x3
  | .setm _ _ _ => 0x4
  | .getp _ _ _ => 0x5
  | .setp _ _ _ _ => 0x6
  | .mgetm _ => 0x9
  | .msetm _ _ => 0xA
  | .mgetp _ _ => 0xB
  | .msetp _ _ _ => 0xC

/-- The command's first word carries its `OP`, and 0 in the bits that are reserved (30_encoding.md R113, R114). -/
def Statement (i : Instr) : Prop :=
  opField (encode i).1 = op i ∧ reservedLow (encode i).1 = 0 ∧ reservedHigh (encode i).1 = 0

end OpAndReserved

theorem OpAndReserved.rdw (bank : BitVec 2) (sel : BitVec 8) : OpAndReserved.Statement (.rdw bank sel) :=
  ⟨opField_cmdWord _ _ _ _ _, reservedLow_cmdWord _ _ _ _ _, reservedHigh_cmdWord _ _ _ _ _⟩

theorem OpAndReserved.wrw (bank : BitVec 2) (sel : BitVec 8) (word : BitVec 16) : OpAndReserved.Statement (.wrw bank sel word) :=
  ⟨opField_cmdWord _ _ _ _ _, reservedLow_cmdWord _ _ _ _ _, reservedHigh_cmdWord _ _ _ _ _⟩

theorem OpAndReserved.getm (bank : BitVec 2) (feat : BitVec 4) : OpAndReserved.Statement (.getm bank feat) :=
  ⟨opField_cmdWord _ _ _ _ _, reservedLow_cmdWord _ _ _ _ _, reservedHigh_cmdWord _ _ _ _ _⟩

theorem OpAndReserved.setm (bank : BitVec 2) (feat : BitVec 4) (mask : BitVec 32) : OpAndReserved.Statement (.setm bank feat mask) :=
  ⟨opField_cmdWord _ _ _ _ _, reservedLow_cmdWord _ _ _ _ _, reservedHigh_cmdWord _ _ _ _ _⟩

theorem OpAndReserved.getp (bank : BitVec 2) (feat : BitVec 4) (port : BitVec 8) : OpAndReserved.Statement (.getp bank feat port) :=
  ⟨opField_cmdWord _ _ _ _ _, reservedLow_cmdWord _ _ _ _ _, reservedHigh_cmdWord _ _ _ _ _⟩

theorem OpAndReserved.setp (bank : BitVec 2) (feat : BitVec 4) (port : BitVec 8) (v : Bool) : OpAndReserved.Statement (.setp bank feat port v) :=
  ⟨opField_cmdWord _ _ _ _ _, reservedLow_cmdWord _ _ _ _ _, reservedHigh_cmdWord _ _ _ _ _⟩

theorem OpAndReserved.mgetm (feat : BitVec 4) : OpAndReserved.Statement (.mgetm feat) :=
  ⟨opField_cmdWord _ _ _ _ _, reservedLow_cmdWord _ _ _ _ _, reservedHigh_cmdWord _ _ _ _ _⟩

theorem OpAndReserved.msetm (feat : BitVec 4) (mask : BitVec 32) : OpAndReserved.Statement (.msetm feat mask) :=
  ⟨opField_cmdWord _ _ _ _ _, reservedLow_cmdWord _ _ _ _ _, reservedHigh_cmdWord _ _ _ _ _⟩

theorem OpAndReserved.mgetp (feat : BitVec 4) (gport : BitVec 8) : OpAndReserved.Statement (.mgetp feat gport) :=
  ⟨opField_cmdWord _ _ _ _ _, reservedLow_cmdWord _ _ _ _ _, reservedHigh_cmdWord _ _ _ _ _⟩

theorem OpAndReserved.msetp (feat : BitVec 4) (gport : BitVec 8) (v : Bool) : OpAndReserved.Statement (.msetp feat gport v) :=
  ⟨opField_cmdWord _ _ _ _ _, reservedLow_cmdWord _ _ _ _ _, reservedHigh_cmdWord _ _ _ _ _⟩

end Sys2Proof.Laws
end

