-- ==== Sys2Proof/Laws/Progress.lean ====
section
/-! SUPPORT. How far a read over several registers has got when the registers' bits are known, and how many transactions
a command can still make. -/

namespace Sys2Proof.Machine

/-! ### How far a GET_MASK has got -/

/-- A gather sees only the bits of the slots in use. -/
theorem gather_congr {off : BitVec 2} {start count : Nat} {w w' : RegWord} {acc : Word32}
    (h : ∀ slot, slot < count → w.getLsbD (bitPos off slot) = w'.getLsbD (bitPos off slot)) :
    gather off start w count acc = gather off start w' count acc := by
  apply BitVec.eq_of_getLsbD_eq
  intro j hj
  rw [getLsbD_gather, getLsbD_gather]
  split
  · exact h _ (by omega)
  · rfl

/-- Where a `GET_MASK` or `MUX_GET_MASK` that began in `s` stands in `u`; `W b k` has the feature's bits of entry `k` of
bank `b`. -/
inductive GetProgress (s u : State) (f : Feature) (visit : List BankId) (shift : BankId → Nat)
    (W : BankId → Nat → RegWord) : Prop
  | waiting (hp : u.record.place = .start ∨ u.record.place = .lock)
  | running (e : Entry) (hphase : u.record.phase = .busy) (hplace : u.record.place = .read) (hb : u.record.b ∈ visit)
     (he : s.cfg.entry? u.record.b u.record.k = some e) (hg : Gathered s.cfg f visit shift W u.record)

/-- How such a command ends: with the presented mask, or with a transport error. -/
inductive GetEnd (s t : State) (f : Feature) (visit : List BankId) (shift : BankId → Nat)
    (W : BankId → Nat → RegWord) : Prop
  | done (g : Word32) (hr : t.response = some (Response.done g))
     (h1 : ∀ b k e slot, b ∈ visit → s.cfg.entry? b k = some e → slot < e.count →
       g.getLsbD (shift b + (e.start + slot)) = presentBit (s.cfg.info f).pol
       ((W b k).getLsbD (bitPos (s.cfg.info f).off slot)))
     (h2 : ∀ j, (∀ b ∈ visit, j < shift b ∨ shift b + s.cfg.ports b ≤ j) → g.getLsbD j = false)
  | failed (b sel st) (hr : t.response = some (Response.transport s.cfg b sel st))

/-- One step of a `GET_MASK` or `MUX_GET_MASK` over registers whose bits of the feature are known. -/
theorem getProgress_step {i : Instr} {s u t : State} {f : Feature} {visit : List BankId}
    {shift : BankId → Nat} {W : BankId → Nat → RegWord}
    (hw : s.cfg.wf = true) (hi : ReadsMask s.cfg f visit shift i)
    (hW : ∀ b k e slot, b ∈ visit → s.cfg.entry? b k = some e → slot < e.count →
      (s.ctrl b e.sel).known.getLsbD (bitPos (s.cfg.info f).off slot) = true
        ∧ (s.cfg.ctrlMask b e.sel).getLsbD (bitPos (s.cfg.info f).off slot) = true ∧
      (s.ctrl b e.sel).value.getLsbD (bitPos (s.cfg.info f).off slot) = (W b k).getLsbD
        (bitPos (s.cfg.info f).off slot))
    (hp : (u.cfg = s.cfg ∧ SamePeers s u) ∧ GetProgress s u f visit shift W) (h : exec i u = .next t) :
    GetEnd s t f visit shift W ∧ t.record.phase = .idle
      ∨ ((t.cfg = s.cfg ∧ SamePeers s t) ∧ GetProgress s t f visit shift W) ∧ t.record.phase = .busy := by
  obtain ⟨⟨hcfg, hsp⟩, hp⟩ := hp
  have hv := hi.visit
  have hsh := hi.shiftOk hw
  have hplan : planOf i u.cfg = .ok (readMask s.cfg f visit shift) := by rw [hcfg]; exact hi.plan
  have hdue : ∀ r, r = u.dueRecord (readMask s.cfg f visit shift) → r.place.active →
      ∃ e, r.phase = .busy ∧ r.place = .read ∧ r.b ∈ visit ∧ s.cfg.entry? r.b r.k = some e
        ∧ Gathered s.cfg f visit shift W r := by
    intro r hr ha
    cases hp with
    | waiting hpl =>
      have hr' : r = { (readMask s.cfg f visit shift).enter { u.record with phase := .busy } with place := .read } := by
        rw [hr]; rcases hpl with hpl | hpl <;> simp only [State.dueRecord, hpl] <;> rfl
      have hrb : r.b = visit.headD .one := by rw [hr']; rfl
      have hrk : r.k = 0 := by rw [hr']; rfl
      obtain ⟨e, he⟩ := Config.entry?_of_lt (cfg := s.cfg) (b := r.b) (k := r.k)
        (by rw [hrk, hrb]; exact Config.nreg_pos hw (hv.banks hv.head))
      exact ⟨e, by rw [hr']; rfl, by rw [hr'], by rw [hrb]; exact hv.head, he,
        gathered_start _ hv hrb hrk (by rw [hr']; rfl) (by rw [hr']; rfl)⟩
    | running e hphase hplace hb he hg =>
      have hr' : r = u.record := by rw [hr]; exact State.dueRecord_running _ (.inl hplace)
      subst hr'
      exact ⟨e, hphase, hplace, hb, he, hg⟩
  cases execStep h with
  | rejected e hpl hc ht => rw [hplan] at hc; cases hc
  | waiting p hpl hc hl ht =>
    have w := waits (planShape hc)
    rw [← ht] at w
    rw [hplan] at hc
    cases hc
    refine .inr ⟨⟨⟨w.outside.cfg.trans hcfg, fun b sel => ?_⟩, .waiting (.inr ?_)⟩, ?_⟩
    · rw [State.ctrl, w.peer]; exact hsp b sel
    · rw [w.record]; rfl
    · rw [w.record]; rfl
  | readOk p b sel draw s2 hc htg hpl hr ha hh hpe ht =>
    rw [hplan] at hc
    cases hc
    obtain ⟨e, hbusy, hpl', hb, he, hg⟩ := hdue _ rfl (.inl hpl)
    generalize u.dueRecord (readMask s.cfg f visit shift) = r at *
    rw [readMask_target hpl hb he] at htg
    cases htg
    have hgc : gather (s.cfg.info f).off e.start (u.logicalWord r.b e.sel draw) e.count r.acc = gather
      (s.cfg.info f).off e.start (W r.b r.k) e.count r.acc := by
      apply gather_congr
      intro slot hs
      obtain ⟨h1, h2, h3⟩ := hW r.b r.k e slot hb he hs
      rw [← h3, logicalWord_congr hcfg (hsp _ _)]
      have hlt := BitVec.lt_of_getLsbD h1
      simp only [State.logicalWord, State.wireWord, State.knownBits, transform_transform, BitVec.getLsbD_or,
         BitVec.getLsbD_and, BitVec.getLsbD_not, h1, h2, hlt]
      simp
    have hsp2 : ∀ q, SamePeers s (s2.proceed q) :=
      fun q b sel => by rw [State.ctrl_proceed, State.ctrl, hpe]; exact hsp b sel
    have hcf2 : ∀ q, (s2.proceed q).cfg = s.cfg := fun q => (ha.outside.proceed q).cfg.trans hcfg
    by_cases hk : r.k + 1 < s.cfg.nreg r.b
    · rw [readMask_more he hk, hgc] at ht
      have hrec := (ha.goes (r :=
        { r with k := r.k + 1, acc := gather (s.cfg.info f).off e.start (W r.b r.k) e.count r.acc, wbuf :=
        u.logicalWord r.b e.sel draw }) hbusy).1.record
      obtain ⟨e', he'⟩ := Config.entry?_of_lt hk
      change t = s2.setRecord _ at ht
      rw [← ht] at hrec
      refine .inr ⟨⟨⟨ht ▸ hcf2 (.go _), ht ▸ hsp2 (.go _)⟩, .running e' ?_ ?_ ?_ ?_ ?_⟩, ?_⟩ <;> rw [hrec]
      · exact hbusy
      · exact hpl
      · exact hb
      · exact he'
      · exact hg.more hw (hv.banks hb) he rfl rfl rfl rfl
      · exact hbusy
    · replace hk := Nat.not_lt.1 hk
      rcases hn : nextBank visit r.b with _ | b
      · rw [readMask_done he hk hn, hgc] at ht
        obtain ⟨g1, g2⟩ := hg.bank hw hv hsh hb he hk rfl
        refine .inl ⟨.done _ (by rw [ht]; exact State.response_respond _ _)
          (fun b k e slot hb' => g1 b k e slot (passed_last hv hb hn hb')) (fun j hj => g2 j fun b hbp => hj b ?_),
          by rw [ht]; show (s2.respond _).record.phase = _; rw [State.record_respond]; rfl⟩
        rcases hbp with hbp | rfl
        · exact passed_subset hbp
        · exact hb
      · rw [readMask_next he hk hn, hgc] at ht
        have hbv := nextBank_mem hn
        obtain ⟨e', he'⟩ := Config.entry?_of_lt (Config.nreg_pos hw (hv.banks hbv))
        have hrec := (ha.goes (r := { r with
          b := b, k := 0, acc := 0, wbuf := u.logicalWord r.b e.sel draw,
          g := r.g ||| (present (s.cfg.info f).pol (gather (s.cfg.info f).off e.start (W r.b r.k) e.count r.acc)
            (s.cfg.ports r.b)
            <<< shift r.b) }) hbusy).1.record
        change t = s2.setRecord _ at ht
        rw [← ht] at hrec
        refine .inr ⟨⟨⟨ht ▸ hcf2 (.go _), ht ▸ hsp2 (.go _)⟩, .running e' ?_ ?_ ?_ ?_ ?_⟩, ?_⟩ <;> rw [hrec]
        · exact hbusy
        · exact hpl
        · exact hbv
        · exact he'
        · exact hg.next hw hv hsh hb he hk hn rfl rfl rfl
        · exact hbusy
  | readFail p b sel low s2 hc htg hpl hr ha hh hpe ht =>
    refine .inl ⟨.failed b sel (negativeStatus low) (by rw [ht, State.response_respond, hcfg]),
      by rw [ht, State.record_respond]; rfl⟩
  | writeOk p b sel draw s2 hc htg hpl hr ha hh hwr ht =>
    rw [hplan] at hc
    cases hc
    obtain ⟨e, -, hpl', -⟩ := hdue _ rfl (.inr hpl)
    rw [hpl'] at hpl; cases hpl
  | writeFail p b sel low s2 hc htg hpl hr ha hh hwr ht =>
    rw [hplan] at hc
    cases hc
    obtain ⟨e, -, hpl', -⟩ := hdue _ rfl (.inr hpl)
    rw [hpl'] at hpl; cases hpl

/-! ### Transactions to come -/

/-- How many transactions a command can still make. -/
structure CommandMeasure (p : Plan) (μ : InFlight → Nat) : Prop where
  enter : ∀ r, μ { p.enter r with place := p.first } ≤ 16
  pos   : ∀ r, (p.target r).isSome → r.place.active → 0 < μ r
  read  : ∀ r r' w, (p.target r).isSome → r.place = .read → p.afterRead r w = .go r' → μ r' < μ r
  write : ∀ r r', (p.target r).isSome → r.place = .write → p.afterWrite r = .go r' → μ r' < μ r

theorem currentRegister_bounds {cfg : Config} {visit : List BankId} {r : InFlight}
    (h : (currentRegister cfg visit r).isSome) :
    r.b ∈ visit ∧ r.k < cfg.nreg r.b := by
  obtain ⟨x, hx⟩ := Option.isSome_iff_exists.1 h
  obtain ⟨h1, h2, e, he, -⟩ := currentRegister_mem (b := x.1) (sel := x.2) hx
  exact ⟨h1 ▸ h2, h1 ▸ Config.entry?_lt he⟩

/-- Every command whose checks pass makes at most 16 transactions. -/
theorem commandMeasure {cfg : Config} {i : Instr} {p : Plan} (hw : cfg.wf = true)
    (h : PlanShape cfg i p) : ∃ μ, CommandMeasure p μ := by
  cases h with
  | readWord h => exact ⟨fun _ => 1, fun _ => by simp, fun _ _ _ => by simp, fun r r' w _ _ h => (by cases h),
    fun r r' _ _ h => (by cases h)⟩
  | writeWord h => 
    refine ⟨fun _ => 1, fun _ => by simp, fun _ _ _ => by simp, fun r r' w ht hp h => ?_, fun r r' _ _ h => by cases h⟩
    simp [Machine.writeWord, hp] at ht
  | readPort h => exact ⟨fun _ => 1, fun _ => by simp, fun _ _ _ => by simp, fun r r' w _ _ h => (by cases h),
    fun r r' _ _ h => (by cases h)⟩
  | writePort h =>
    refine ⟨fun r => if r.place = .read then 2 else 1, fun r => ?_, fun r _ _ => ?_, fun r r' w ht hp h => ?_,
      fun r r' _ _ h => by cases h⟩
    · split <;> omega
    · split <;> omega
    · cases h; simp [hp]
  | @readMask _ f visit shift h =>
    have hv := h.visit
    refine ⟨fun r => (registersOf cfg visit).length - position cfg visit r.b r.k, fun r => ?_, fun r ht hp => ?_,
      fun r r' w ht hp h => ?_, fun r r' _ _ h => by cases h⟩
    · have := registersOf_length_le hw hv
      omega
    · simp only [Machine.readMask] at ht
      split_ifs at ht
      · obtain ⟨h1, h2⟩ := currentRegister_bounds ht
        have := position_lt hv h1 h2
        omega
      · cases ht
    · simp only [Machine.readMask, hp, if_true] at ht
      obtain ⟨h1, h2⟩ := currentRegister_bounds ht
      have hlt := position_lt hv h1 h2
      simp only [Machine.readMask] at h
      split_ifs at h with hk
      · cases h
        simp only [position] at hlt ⊢; omega
      · split at h
        · rename_i b hn
          cases h
          have := position_next hv hn (k := r.k) (by omega)
          dsimp only; omega
        · cases h
  | @writeMask _ f visit shift mask h =>
    have hv := h.visit
    refine ⟨fun r => 2 * ((registersOf cfg visit).length - position cfg visit r.b r.k) -
      (if r.place = .write then 1 else 0), fun r => ?_, fun r ht hp => ?_, fun r r' w ht hp h => ?_,
      fun r r' ht hp h => ?_⟩
    · have := registersOf_length_le hw hv
      omega
    · obtain ⟨h1, h2⟩ := currentRegister_bounds ht
      have := position_lt hv h1 h2
      split <;> omega
    · obtain ⟨h1, h2⟩ := currentRegister_bounds ht
      have hlt := position_lt hv h1 h2
      cases h
      simp [hp]; omega
    · obtain ⟨h1, h2⟩ := currentRegister_bounds ht
      have hlt := position_lt hv h1 h2
      simp only [Machine.writeMask] at h
      split_ifs at h with hk
      · cases h
        simp only [position, hp] at hlt ⊢; simp; omega
      · split at h
        · rename_i b hn
          cases h
          have := position_next hv hn (k := r.k) (by omega)
          simp [hp]; omega
        · cases h

end Sys2Proof.Machine
end

