-- ==== Sys2Proof/Laws/Step.lean ====
section
/-! SUPPORT. What one step of the machine can do, said once (`step_cases`), and what a delivered command finds. -/

namespace Sys2Proof.Machine

/-! ### A delivered command and a turn -/

/-- The state whose next input has been taken. -/
abbrev State.took (s : State) (rest : List Input) : State := { s with inputs := rest }

/-- The state in which caller `c` is served. -/
abbrev State.serving (s : State) (c : CallerId) : State := { s with cur := c }

@[simp] theorem State.deliver_cfg (s : State) (c : CallerId) (cmd data : Word32) : (s.deliver c cmd data).cfg = s.cfg := rfl

@[simp] theorem State.deliver_cur (s : State) (c : CallerId) (cmd data : Word32) : (s.deliver c cmd data).cur = c := rfl

@[simp] theorem State.deliver_log (s : State) (c : CallerId) (cmd data : Word32) : (s.deliver c cmd data).log = s.log := rfl

@[simp] theorem State.deliver_inputs (s : State) (c : CallerId) (cmd data : Word32) :
    (s.deliver c cmd data).inputs = s.inputs := rfl

@[simp] theorem State.deliver_bus (s : State) (c : CallerId) (cmd data : Word32) : (s.deliver c cmd data).bus = s.bus := rfl

@[simp] theorem State.deliver_drawn (s : State) (c : CallerId) (cmd data : Word32) :
    (s.deliver c cmd data).drawn = s.drawn := rfl

@[simp] theorem State.deliver_lock (s : State) (c : CallerId) (cmd data : Word32) (b : BankId) :
    (s.deliver c cmd data).lock b = s.lock b := by cases b <;> rfl

@[simp] theorem State.deliver_peer (s : State) (c : CallerId) (cmd data : Word32) (b : BankId) :
    (s.deliver c cmd data).peer b = s.peer b := by cases b <;> rfl

@[simp] theorem State.deliver_attached (s : State) (c : CallerId) (cmd data : Word32) (b : BankId) :
    (s.deliver c cmd data).attached b = s.attached b := by cases b <;> rfl

@[simp] theorem State.deliver_ctrl (s : State) (c : CallerId) (cmd data : Word32) (b : BankId) (sel : Selector) :
    (s.deliver c cmd data).ctrl b sel = s.ctrl b sel := by cases b <;> rfl

/-- The served record of a delivered command holds its words. -/
@[simp] theorem State.deliver_record (s : State) (c : CallerId) (cmd data : Word32) :
    (s.deliver c cmd data).record = InFlight.delivered cmd data :=
  State.record_setRecord (s.serving c) rfl

@[simp] theorem State.deliver_caller_of_ne (s : State) {c c' : CallerId} (cmd data : Word32) (h : c' ≠ c) :
    (s.deliver c cmd data).caller c' = s.caller c' :=
  State.caller_setRecord_of_ne (s.serving c) _ h

theorem State.deliver_kept (s : State) (c : CallerId) (cmd data : Word32) : CallersKept s (s.deliver c cmd data) :=
  fun hw => tableSet_wf _ _ hw

@[simp] theorem State.deliver_response (s : State) (c : CallerId) (cmd data : Word32) :
    (s.deliver c cmd data).response = (s.caller c).response :=
  State.response_setRecord (s.serving c) rfl

/-! ### The step -/

/-- What the served command's next step is. -/
inductive Performed (s t : State) : Prop
  | illegal (e : DecodeError) (hd : decode s.record.cmd s.record.data = .error e) (ht : t = s.raise .invalidCommand)
  | legal (i : Instr) (hd : decode s.record.cmd s.record.data = .ok i) (ht : exec i s = .next t)

theorem perform_next {s t : State} (h : s.perform = .next t) : Performed s t := by
  unfold State.perform at h
  split at h
  · exact .legal _ ‹_› h
  · exact .illegal _ ‹_› (by cases h; rfl)

/-- A reconstruction that answers: nothing was in progress, the configuration passes its checks and stays. -/
theorem reconstruct_next {s t : State} (h : s.reconstruct = .next t) :
    s.anyBusy = false ∧ s.cfg.wf = true ∧
      t = { State.constructed s.cfg with inputs := s.inputs, bus := s.bus, drawn := s.drawn, log := s.log } := by
  unfold State.reconstruct State.construct at h
  split_ifs at h with h1 h2
  exact ⟨by simpa using h1, h2, by cases h; rfl⟩

/-- What one step of the machine can do. -/
inductive StepTo (s t : State) : Prop
  | idle (hin : s.inputs = []) (ht : t = s)
  | command (c : CallerId) (cmd data : Word32) (rest : List Input) (hin : s.inputs = .command c cmd data :: rest)
      (hready : s.ready = true) (hidle : s.busy c = false)
      (ht : Performed ((s.took rest).deliver c cmd data) t)
  | turn (c : CallerId) (rest : List Input) (hin : s.inputs = .turn c :: rest) (hbusy : s.busy c = true)
      (ht : Performed ((s.took rest).serving c) t)
  | turnIdle (c : CallerId) (rest : List Input) (hin : s.inputs = .turn c :: rest) (hidle : s.busy c = false)
      (ht : t = (s.took rest).serving c)
  | attach (selector : BitVec 2) (b : BankId) (rest : List Input)
      (hin : s.inputs = .attach selector (s.cfg.addr b) :: rest) (hb : bankOf s.cfg selector = some b)
      (ht : t = (s.took rest).setAttached b)
  | reset (rest : List Input) (hin : s.inputs = .reset :: rest) (hidle : s.anyBusy = false) (hwf : s.cfg.wf = true)
      (ht : t = { State.constructed s.cfg with inputs := rest, bus := s.bus, drawn := s.drawn, log := s.log })
  | outside (b : BankId) (sel : Selector) (wire : RegWord) (ok : Bool) (rest : List Input)
      (hin : s.inputs = .outsideWrite b sel wire ok :: rest) (hb : b ∈ s.cfg.banks)
      (ht : t = (s.took rest).setCtrl b sel (if ok then written s.cfg b sel wire else CtrlWord.unknown))

/-- Every step is one of those. -/
theorem step_cases {s t : State} (h : step s = .next t) : StepTo s t := by
  unfold step State.nextInput at h
  rcases hin : s.inputs with _ | ⟨x, rest⟩ <;> simp only [hin] at h
  · exact .idle hin (by cases h; rfl)
  cases x with
  | command c cmd data =>
    simp only [State.take, State.accept] at h
    split_ifs at h with h1 h2
    replace h1 : ¬ (!s.ready) = true := h1
    replace h2 : ¬ s.busy c = true := h2
    exact .command c cmd data rest hin (by simpa using h1) (by simpa using h2) (perform_next h)
  | turn c =>
    simp only [State.take, State.takeTurn] at h
    split_ifs at h with h1
    · exact .turn c rest hin h1 (perform_next h)
    · replace h1 : ¬ s.busy c = true := h1
      exact .turnIdle c rest hin (by simpa using h1) (by cases h; rfl)
  | attach selector addr =>
    simp only [State.take, State.attachBank] at h
    split at h
    · cases h
    · rename_i b hb
      split_ifs at h with ha
      exact .attach selector b rest (by rw [hin, ha]) hb (by cases h; rfl)
  | reset =>
    obtain ⟨h1, h2, rfl⟩ := reconstruct_next h
    exact .reset rest hin h1 h2 rfl
  | outsideWrite b sel wire ok =>
    simp only [State.take, State.outsideWrite] at h
    split_ifs at h with h1
    · exact .outside b sel wire ok rest hin h1 (by cases h; simp_all)
    · exact .outside b sel wire ok rest hin h1 (by cases h; simp_all)

end Sys2Proof.Machine
end

