-- ==== Sys2Proof/WellFormed.lean ====
section
/-! DEFINITION. The checks on a command that need no configuration: its bank is 1 or 2, its feature 0..3, its local port
below 16, its global port below 32. A command that fails one still runs: the block rejects it with INVALID_SELECTOR
(60_exceptions.md R232), as it rejects some that pass (a bank or port the configuration does not have). -/

namespace Sys2Proof

/-- 30_encoding.md R111: "bank number b; 1 or 2". -/
def namesBank (bank : BitVec 2) : Bool := bank == 1 || bank == 2

/-- 30_encoding.md R116: FEAT must be 0..3. -/
def namesFeature (feat : BitVec 4) : Bool := feat.toNat < 4

/-- A bank has at most 16 ports (10_state.md R38). -/
def namesPort (port : BitVec 8) : Bool := port.toNat < 16

/-- The global space has at most 32 ports (42_bank_mux.md R202). -/
def namesGlobalPort (gport : BitVec 8) : Bool := gport.toNat < 32

/-- A command whose bank, feature and port some configuration has. -/
def Instr.wellFormed : Instr → Bool
  | .rdw bank _ => namesBank bank
  | .wrw bank _ _ => namesBank bank
  | .getm bank feat => namesBank bank && namesFeature feat
  | .setm bank feat _ => namesBank bank && namesFeature feat
  | .getp bank feat port => namesBank bank && namesFeature feat && namesPort port
  | .setp bank feat port _ => namesBank bank && namesFeature feat && namesPort port
  | .mgetm feat => namesFeature feat
  | .msetm feat _ => namesFeature feat
  | .mgetp feat gport => namesFeature feat && namesGlobalPort gport
  | .msetp feat gport _ => namesFeature feat && namesGlobalPort gport

end Sys2Proof
end

