-- ==== Sys2Proof/Tests/Slice0.lean ====
section
/-! SUPPORT. Tests: ill-formed commands, words written out from the encoding, one step of each command on the vectors of
95_test_vectors.md, and a state that meets the hypotheses of each statement. -/

namespace Sys2Proof.Tests

open Sys2Proof Sys2Proof.Machine

/-! ### Well-formed commands -/

theorem test_bank_zero_is_ill_formed : (Instr.rdw 0 0x10).wellFormed = false := by decide

theorem test_feature_four_is_ill_formed : (Instr.getm 1 4).wellFormed = false := by decide

theorem test_port_sixteen_is_ill_formed : (Instr.getp 1 0 16).wellFormed = false := by decide

theorem test_global_port_thirty_two_is_ill_formed : (Instr.mgetp 0 32).wellFormed = false := by decide

theorem test_boundary_commands_are_well_formed :
    (Instr.setp 2 3 15 true).wellFormed = true ∧ (Instr.msetp 3 31 true).wellFormed = true := by decide

/-! ### Words of the encoding (30_encoding.md R111; the CMD column of 95_test_vectors.md) -/

theorem test_decode_rdw : decode 0x00FF0201 0 = .ok (.rdw 2 0xFF) := by decide

/-- V-TP-5: `DATA[31:16]` is ignored. -/
theorem test_decode_wrw : decode 0x00130202 0xFFFF0001 = .ok (.wrw 2 0x13 0x0001) := by decide

theorem test_decode_getm : decode 0x00000133 0 = .ok (.getm 1 3) := by decide

theorem test_decode_setm : decode 0x00000104 0xFFFF8001 = .ok (.setm 1 0 0xFFFF8001) := by decide

theorem test_decode_getp : decode 0x00030115 0 = .ok (.getp 1 1 3) := by decide

theorem test_decode_setp : decode 0x01050136 0 = .ok (.setp 1 3 5 true) := by decide

/-- V-MX-9: `BANK` is ignored. -/
theorem test_decode_mgetm : decode 0x00000309 0 = .ok (.mgetm 0) := by decide

theorem test_decode_msetm : decode 0x0000000A 0x00010001 = .ok (.msetm 0 0x00010001) := by decide

theorem test_decode_mgetp : decode 0x0011001B 0 = .ok (.mgetp 1 17) := by decide

theorem test_decode_msetp : decode 0x011F003C 0 = .ok (.msetp 3 31 true) := by decide

/-- V-TP-10. -/
theorem test_decode_reserved :
    decode 0x00100501 0 = .error .reservedBits ∧ decode 0x80100101 0 = .error .reservedBits
      ∧ decode 0x00000000 0 = .error .reservedOp ∧ decode 0x00000107 0 = .error .reservedOp := by decide

theorem test_table_word : decodeTableWord 32 0x01050136 = some (.setp 1 3 5 true) := by decide

/-! ### Small states -/

/-- A block with its banks attached and replies ready, caller 0 served. -/
def block (cfg : Config) (bus : List BusReply) : State :=
  { State.constructed cfg with attached1 := true, attached2 := true, bus := bus }

/-- The same in the middle of a command. -/
def during (cfg : Config) (bus : List BusReply) (r : InFlight) : State := (block cfg bus).setRecord r

/-- A record of a command in progress. -/
def record (place : Place) (b : BankId) (k : Nat) (acc : Word32) (wbuf : RegWord) (g : Word32) : InFlight :=
  { InFlight.idle with phase := .busy, place := place, b := b, k := k, acc := acc, wbuf := wbuf, g := g }

/-- A field of the next state. -/
def seen {α : Type} (f : State → α) : Host.Outcome State Fault Refusal → Option α
  | .next t => some (f t)
  | .fault _ => none
  | .refused _ => none

/-! ### One step of each command -/

/-- V-TP-2. -/
theorem test_rdw_swaps : seen (fun t => (t.response, t.log)) (exec (.rdw 1 0x10) (block .refA [.ok 0x1234])) =
    some (some (Response.done 0x2143), [.read .one 0x10 0x1234]) := by decide

/-- V-TP-7. -/
theorem test_rdw_fails : seen State.response (exec (.rdw 1 0x11) (block .refA [.fail 0x7FFFFFFB])) =
    some (some ⟨.transportError, none, some 1, some 0x60, some 0x11, some 0xFFFFFFFB⟩) := by decide

/-- V-TP-4. -/
theorem test_wrw_swaps : seen (fun t => (t.response, t.log)) (exec (.wrw 1 0x10 0x2143) (block .refA [.ok 0])) =
    some (some (Response.done 0), [.write .one 0x10 0x1234]) := by decide

/-- V-TP-8. -/
theorem test_wrw_bank_three : seen (fun t => (t.response, t.log)) (exec (.wrw 3 0x10 0) (block .refA [.ok 0])) =
    some (some (Response.rejected .invalidSelector), []) := by decide

/-- V-TR-8, `MODABS`: active-low, register `0x0002`. -/
theorem test_getm_active_low : seen State.response (exec (.getm 1 1) (block .refB [.ok 0x0002])) =
    some (some (Response.done 0xE)) := by decide

/-- V-TR-7, `LPMODE`, the last of four reads (logical `0x0F0F`, wire `0xF0F0`). -/
theorem test_getm_last_register :
    seen State.response (exec (.getm 1 0) (during .refA [.ok 0xF0F0] (record .read .one 3 0xA18 0 0))) =
      some (some (Response.done 0x5A18)) := by decide

/-- V-TR-9, first read: logical `0xEEEE` becomes `0xEFEF`. -/
theorem test_setm_reads : seen (fun t => (t.record.wbuf, t.record.place)) (exec (.setm 1 0 0xA5) (block .refA [.ok 0xEEEE])) =
    some (0xEFEF, .write) := by decide

/-- V-TR-11. -/
theorem test_setm_read_only : seen State.response (exec (.setm 1 1 0) (block .refA [])) =
    some (some (Response.rejected .unsupportedOperation)) := by decide

/-- V-TR-8, `getp modabs, 1`. -/
theorem test_getp_active_low : seen State.response (exec (.getp 1 1 1) (block .refB [.ok 0x0002])) =
    some (some (Response.done 1)) := by decide

/-- V-TR-15. -/
theorem test_getp_port_sixteen : seen State.response (exec (.getp 1 0 16) (block .refA [])) =
    some (some (Response.rejected .invalidSelector)) := by decide

/-- V-TR-16, read. -/
theorem test_setp_reads : seen (fun t => (t.record.wbuf, t.log)) (exec (.setp 1 3 5 true) (block .refA [.ok 0xFFFF])) =
    some (0xFF7F, [.read .one 0x11 0xFFFF]) := by decide

/-- V-TR-16, write. -/
theorem test_setp_writes :
    seen (fun t => (t.response, t.log))
      (exec (.setp 1 3 5 true) (during .refA [.ok 0] (record .write .one 1 0 0xFF7F 0))) =
      some (some (Response.done 0), [.write .one 0x11 0xFFF7]) := by decide

/-- V-MX-1, `LPMODE`, the last of eight reads (logical `0x1000`, wire `0x0100`). -/
theorem test_mgetm_last_register :
    seen State.response (exec (.mgetm 0) (during .refA [.ok 0x0100] (record .read .two 3 0 0 0x00000001))) =
      some (some (Response.done 0x80000001)) := by decide

/-- V-MX-1, `MODABS`: after bank 1's last read, bank 2 is next. -/
theorem test_mgetm_changes_bank :
    seen (fun t => (t.record.b, t.record.k, t.record.g)) (exec (.mgetm 1) (during .refA [.ok 0] (record .read .one 3 0 0 0))) =
      some (.two, 0, 0xFFFF) := by decide

/-- V-MX-2, the last write of bank 1 (logical `0xEEEE`): bank 2 is next, with its part of the mask. -/
theorem test_msetm_changes_bank :
    seen (fun t => (t.record.b, t.record.k, t.record.acc, t.log))
      (exec (.msetm 0 0x00010001) (during .refA [.ok 0] (record .write .one 3 1 0xEEEE 0))) =
      some (.two, 0, 1, [.write .one 0x13 0xEEEE]) := by decide

/-- V-MX-3. -/
theorem test_mgetp_routes : seen (fun t => (t.response, t.log)) (exec (.mgetp 1 17) (block .refA [.ok 0])) =
    some (some (Response.done 1), [.read .two 0x10 0]) := by decide

/-- V-MX-4, read: bit 15 is hardware 0 already. -/
theorem test_msetp_reads : seen (fun t => (t.record.wbuf, t.log)) (exec (.msetp 3 31 true) (block .refA [.ok 0])) =
    some (0, [.read .two 0x13 0]) := by decide

/-- V-EX-6. -/
theorem test_msetp_route_first : seen State.response (exec (.msetp 2 40 true) (block .refA [])) =
    some (some (Response.rejected .invalidSelector)) := by decide

/-- V-EX-1: a reserved `OP`, through `step`. -/
theorem test_step_reserved_op :
    seen (fun t => (t.caller 0).response) (step (State.reset.withFetchWord 32 0x0000000D)) =
      some (some (Response.rejected .invalidCommand)) := by decide

/-! ### The hypotheses of each statement are met -/

/-- A command of every constructor, all of which make a transaction at once on `REFCFG` variant A. -/
def allCommands : List Instr :=
  [.rdw 1 0x10, .wrw 2 0xFF 0x2143, .getm 1 3, .setm 2 0 0xFFFFFFFF, .getp 1 1 15, .setp 2 3 15 true, .mgetm 0,
    .msetm 3 0x80000001, .mgetp 2 31, .msetp 0 16 false]

theorem memoryOk_block (cfg : Config) (bus : List BusReply) : MemoryOk (block cfg bus) where
  canonical b := by cases b <;> exact ⟨⟨.nil, by intro e he; cases he⟩, by intro e he; cases he⟩
  control b sel := by cases b <;> simp [State.ctrl, State.peer, block, State.constructed, Memory.get, CtrlWord.unknown]

theorem memoryOk_during (cfg : Config) (bus : List BusReply) (r : InFlight) : MemoryOk (during cfg bus r) where
  canonical b := by rw [during, State.peer_setRecord]; exact (memoryOk_block cfg bus).canonical b
  control b sel := by rw [during, State.ctrl_setRecord]; exact (memoryOk_block cfg bus).control b sel

/-- Without SERIALIZE every lock is as good as free. -/
theorem locksFree_of_parallel {s : State} (h : s.cfg.serialize = false) (bs : List BankId) : s.locksFree bs :=
  fun h' => by rw [h] at h'; cases h'

/-- With SERIALIZE: one lock free, the other the caller's own. -/
theorem locksFree_serialized (bus : List BusReply) :
    ({ block { Config.refA with serialize := true } bus with lock2 := some 0 }).locksFree [.one, .two] := by
  intro _ b _
  cases b
  · exact .inl rfl
  · exact .inr rfl

theorem runInv_fresh {s : State} (hw : s.cfg.wf = true) (hc : s.callers = []) (hl : ∀ b, s.lock b = none) : RunInv s where
  cfg := hw
  callers := by rw [hc]; exact ⟨.nil, by intro e he; cases he⟩
  records c := .idle (by rw [State.caller, hc]; rfl)
  holders b c h := by rw [hl] at h; cases h
  held _ b c h := by
    rcases h with h | h <;> rw [State.caller, hc] at h <;> cases h

/-- A block with its banks attached, whose next input is given. -/
def given (cfg : Config) (bus : List BusReply) (x : Input) : State := { block cfg bus with inputs := [x] }

theorem witness_IllegalCommandIsRejected :
    (given .refA [] (.command 5 0xD 0)).ready = true ∧ (given .refA [] (.command 5 0xD 0)).busy 5 = false
      ∧ (∀ b, (given .refA [] (.command 5 0xD 0)).lock b ≠ some 5)
      ∧ [0x0, 0x7, 0x8, 0xD, 0xE, 0xF].map (fun cmd => (opField cmd).toNat) = [0x0, 0x7, 0x8, 0xD, 0xE, 0xF]
      ∧ reservedLow 0x00100501 ≠ 0 ∧ reservedHigh 0x80100101 ≠ 0 :=
  ⟨by decide, by decide, fun b => by cases b <;> decide, by decide, by decide, by decide⟩

/-- Two pairs of words for each command. -/
theorem witness_IgnoredFieldsDoNotMatter :
    (decode 0x00100101 0 = .ok (.rdw 1 0x10) ∧ opField 0x011001F1 = opField 0x00100101 ∧ reservedLow 0x011001F1 = 0
      ∧ reservedHigh 0x011001F1 = 0
      ∧ bankField 0x011001F1 = bankField 0x00100101
      ∧ idxField 0x011001F1 = idxField 0x00100101) ∧
    (decode 0x00100102 0x2143 = .ok (.wrw 1 0x10 0x2143) ∧ opField 0x011001F2 = opField 0x00100102 ∧ reservedLow 0x011001F2 = 0
      ∧ reservedHigh 0x011001F2 = 0
      ∧ bankField 0x011001F2 = bankField 0x00100102
      ∧ idxField 0x011001F2 = idxField 0x00100102
      ∧ (0xFFFF2143 : Word32).extractLsb' 0 16 = (0x2143 : Word32).extractLsb' 0 16) ∧
    (decode 0x00000133 0 = .ok (.getm 1 3) ∧ opField 0x01FF0133 = opField 0x00000133 ∧ reservedLow 0x01FF0133 = 0
      ∧ reservedHigh 0x01FF0133 = 0
      ∧ bankField 0x01FF0133 = bankField 0x00000133
      ∧ featField 0x01FF0133 = featField 0x00000133) ∧
    (decode 0x00000134 0xA5 = .ok (.setm 1 3 0xA5) ∧ opField 0x01FF0134 = opField 0x00000134 ∧ reservedLow 0x01FF0134 = 0
      ∧ reservedHigh 0x01FF0134 = 0
      ∧ bankField 0x01FF0134 = bankField 0x00000134
      ∧ featField 0x01FF0134 = featField 0x00000134) ∧
    (decode 0x00030115 0 = .ok (.getp 1 1 3) ∧ opField 0x01030115 = opField 0x00030115 ∧ reservedLow 0x01030115 = 0
      ∧ reservedHigh 0x01030115 = 0
      ∧ bankField 0x01030115 = bankField 0x00030115
      ∧ featField 0x01030115 = featField 0x00030115
      ∧ idxField 0x01030115 = idxField 0x00030115) ∧
    (decode 0x01050136 0 = .ok (.setp 1 3 5 true) ∧ opField 0x01050136 = opField 0x01050136 ∧ reservedLow 0x01050136 = 0
      ∧ reservedHigh 0x01050136 = 0
      ∧ bankField 0x01050136 = bankField 0x01050136
      ∧ featField 0x01050136 = featField 0x01050136
      ∧ idxField 0x01050136 = idxField 0x01050136
      ∧ vField 0x01050136 = vField 0x01050136) ∧
    (decode 0x00000009 0 = .ok (.mgetm 0) ∧ opField 0x01FF0309 = opField 0x00000009 ∧ reservedLow 0x01FF0309 = 0
      ∧ reservedHigh 0x01FF0309 = 0
      ∧ featField 0x01FF0309 = featField 0x00000009) ∧
    (decode 0x0000000A 0xA5 = .ok (.msetm 0 0xA5) ∧ opField 0x01FF030A = opField 0x0000000A ∧ reservedLow 0x01FF030A = 0
      ∧ reservedHigh 0x01FF030A = 0
      ∧ featField 0x01FF030A = featField 0x0000000A) ∧
    (decode 0x0011001B 0 = .ok (.mgetp 1 17) ∧ opField 0x0111031B = opField 0x0011001B ∧ reservedLow 0x0111031B = 0
      ∧ reservedHigh 0x0111031B = 0
      ∧ featField 0x0111031B = featField 0x0011001B
      ∧ idxField 0x0111031B = idxField 0x0011001B) ∧
    (decode 0x011F003C 0 = .ok (.msetp 3 31 true) ∧ opField 0x011F033C = opField 0x011F003C ∧ reservedLow 0x011F033C = 0
      ∧ reservedHigh 0x011F033C = 0
      ∧ featField 0x011F033C = featField 0x011F003C
      ∧ idxField 0x011F033C = idxField 0x011F003C
      ∧ vField 0x011F033C = vField 0x011F003C) := by
  refine ⟨?_, ?_, ?_, ?_, ?_, ?_, ?_, ?_, ?_, ?_⟩ <;> decide

theorem witness_StepRunsTheDecodedCommand :
    ((given .refA [] (.command 5 0x00100101 0)).ready = true
      ∧ (given .refA [] (.command 5 0x00100101 0)).busy 5 = false ∧ decode 0x00100101 0 = .ok (.rdw 1 0x10)) ∧
    (during .refA [] { record .write .one 1 0 0xFF7F 0 with cmd := 0x01050136 }).busy 0 = true
      ∧ decode (during .refA [] { record .write .one 1 0 0xFF7F 0 with cmd := 0x01050136 }).record.cmd 0 =
        .ok (.setp 1 3 5 true) := by decide

theorem witness_PresentationIsItsOwnInverse :
    (32 ≤ 32 ∧ (0xFFFFFFFF : Word32).toNat < 2 ^ 32) ∧ (0 ≤ 32 ∧ (0 : Word32).toNat < 2 ^ 0) := by decide

theorem witness_DescriptorsAreTheVariants :
    Config.refA.wf = true ∧ .two ∈ Config.refA.banks ∧ Config.refA.entry? .two 3 = some ⟨0x13, 12, 4⟩
      ∧ Config.refB.wf = true ∧ .one ∈ Config.refB.banks ∧ Config.refB.entry? .one 0 = some ⟨0x20, 0, 4⟩
      ∧ { Config.refA with bank1 := ⟨0x60, 2⟩ }.wf = true := by decide

/-- 3 entries in a bank of variant A, 2 in variant B, and a `NREG` above the entries there are. -/
theorem test_wf_shape :
    [{ Config.refA with bank2 := ⟨0x62, 3⟩ }, { Config.refB with layout := [⟨0x20, 0, 4⟩, ⟨0x22, 4, 4⟩], bank1 := ⟨0x64, 2⟩ },
      { Config.refA with bank1 := ⟨0x60, 5⟩ }].map Config.wf = [false, false, false] := by decide

theorem witness_LocateFindsTheOnlySlot :
    Config.refA.wf = true ∧ .one ∈ Config.refA.banks ∧ .two ∈ Config.refA.banks
      ∧ 0 < Config.refA.ports .one ∧ 15 < Config.refA.ports .two := by decide

theorem witness_RouteFindsTheHoldingBank :
    Config.refA.wf = true ∧ Config.refA.variant = .A ∧ Config.refA.ports .one = 16 ∧ Config.refA.ports .two = 16
      ∧ route .refA 15 = some (.one, 15) ∧ route .refA 16 = some (.two, 0) ∧ route .refA 32 = none := by decide

theorem witness_ControlBitsAreThoseOfWritableFeatures :
    Config.refA.wf = true ∧ .two ∈ Config.refA.banks ∧ Config.refA.ctrlMask .two 0x13 = 0x9999 := by decide

theorem witness_ReadReturnsKnownControlBits : (block .refA [.ok 0x1234]).reply = .ok 0x1234 := by decide

theorem witness_WriteSetsControlBits : MemoryOk (block .refA [.ok 0]) ∧ (block .refA [.ok 0]).reply = .ok 0 :=
  ⟨memoryOk_block _ _, by decide⟩

theorem witness_FailedWriteForgetsControlBits :
    MemoryOk (block .refA [.fail 0]) ∧ (block .refA [.fail 0]).reply = .fail 0 :=
  ⟨memoryOk_block _ _, by decide⟩

/-- Every command makes a transaction, with success or without. -/
theorem witness_StepOfACommandLeavesTheRestAlone :
    ∀ i ∈ allCommands, ∀ r ∈ [BusReply.ok 0, .fail 0], seen (fun t => t.log.length) (exec i (block .refA [r])) = some 1 := by
  decide

theorem witness_StepOfACommandIsAtMostOneTransaction :
    ∀ i ∈ [Instr.setm 1 0 0, .setp 1 3 3 true, .msetm 0 0, .msetp 3 3 true], ∀ r ∈ [BusReply.ok 0, .fail 0],
      seen State.log (exec i (during .refA [r] (record .write .one 0 0 0x1234 0))) =
        some [if r = .ok 0 then .write .one 0x10 0x2143 else .writeFailed .one 0x10 0x2143 0x80000000] := by decide

theorem witness_CommandsReachOnlyTheirRegisters :
    allCommands.map (fun i => seen State.log (exec i (block .refA [.ok 0]))) =
      [some [.read .one 0x10 0], some [.write .two 0xFF 0x1234], some [.read .one 0x10 0], some [.read .two 0x10 0],
        some [.read .one 0x13 0], some [.read .two 0x13 0], some [.read .one 0x10 0], some [.read .one 0x10 0],
        some [.read .two 0x13 0], some [.read .two 0x10 0]] := by decide

/-- A command of the served caller that waited for its locks, which are now free. -/
def waited (bus : List BusReply) : State := during { Config.refA with serialize := true } bus (record .lock .one 0 0 0 0)

/-- The hypotheses of the statements that begin where a command starts or waits, at the latter place. -/
theorem witness_waited (bus : List BusReply) :
    (waited bus).record.place = .lock ∧ (waited bus).locksFree [.one, .two] ∧ (waited bus).locksFree [.one]
      ∧ MemoryOk (waited bus) ∧ Config.wf { Config.refA with serialize := true } = true :=
  ⟨rfl, fun _ b _ => .inl (by cases b <;> rfl), fun _ b _ => .inl (by cases b <;> rfl), memoryOk_during _ _ _,
    by decide⟩

/-- Every command, and the word of `wrw`, once it has its locks. -/
theorem test_waited : allCommands.map (fun i => seen State.log (exec i (waited [.ok 0]))) =
    allCommands.map fun i => seen State.log (exec i (block .refA [.ok 0])) := by decide

theorem witness_OutOfRangeSelectorsAreRejected :
    (block .refA []).record.place = .start
      ∧ (∀ bank ∈ [0, (3 : BitVec 2)], ¬ (1 ≤ bank.toNat ∧ bank.toNat ≤ Config.refA.banks.length))
      ∧ (∀ feat ∈ [4, (15 : BitVec 4)], 3 < feat.toNat)
      ∧ bankOf .refA 2 = some .two ∧ Config.refA.ports .two ≤ (16 : BitVec 8).toNat
      ∧ ∀ b ∈ Config.refA.banks, ¬ (b.base ≤ (32 : BitVec 8).toNat ∧ (32 : BitVec 8).toNat < b.base + Config.refA.ports b) := by
  decide

theorem witness_ReadOnlyFeaturesAreNotWritten :
    (block .refA []).record.place = .start ∧ bankOf .refA 1 = some .one ∧ featureOf 1 = some .modabs
      ∧ (Config.refA.info .modabs).writable = false ∧ (15 : BitVec 8).toNat < Config.refA.ports .one
      ∧ route .refA (31 : BitVec 8).toNat = some (.two, 15) := by decide

/-- A read that is due and fails, and a write. -/
theorem witness_FailedTransactionEndsTheCommand :
    (Due (block .refA [.fail 0]) (.rdw 1 0x10) (readWord .one 0x10)
      ∧ (readWord .one 0x10).target ((block .refA [.fail 0]).dueRecord (readWord .one 0x10)) = some (.one, 0x10)
      ∧ ((block .refA [.fail 0]).dueRecord (readWord .one 0x10)).place = .read) ∧
    (Due (block .refA [.fail 0]) (.wrw 1 0x10 7) (writeWord .one 0x10 7)
      ∧ (writeWord .one 0x10 7).target ((block .refA [.fail 0]).dueRecord (writeWord .one 0x10 7)) = some (.one, 0x10)
      ∧ ((block .refA [.fail 0]).dueRecord (writeWord .one 0x10 7)).place = .write) ∧
    (block .refA [.fail 0]).reply = .fail 0 :=
  ⟨⟨⟨rfl, fun _ => locksFree_of_parallel rfl _, by decide⟩, by decide, by decide⟩,
    ⟨⟨rfl, fun _ => locksFree_of_parallel rfl _, by decide⟩, by decide, by decide⟩, by decide⟩

/-- Bank 2's lock is held by caller 7: a command over both banks takes bank 1's and waits. -/
theorem witness_CommandWaitsForItsLocks :
    planOf (.mgetm 0) { Config.refA with serialize := true } =
        .ok (readMask { Config.refA with serialize := true } .lpmode [.one, .two] BankId.base)
      ∧ ({ block { Config.refA with serialize := true } [] with lock2 := some 7 }).record.place = .start
      ∧ ¬ ({ block { Config.refA with serialize := true } [] with lock2 := some 7 }).locksFree [.one, .two] :=
  ⟨rfl, by decide, fun h => by
    rcases h rfl .two (by decide) with h | h <;> exact absurd h (by decide)⟩

theorem witness_ReadWordAnswersTheLogicalWord :
    (block .refA [.ok 0x1234]).record.place = .start ∧ bankOf .refA 1 = some .one
      ∧ (block .refA [.ok 0x1234]).locksFree [.one] ∧ (block .refA [.ok 0x1234]).reply = .ok 0x1234 :=
  ⟨by decide, by decide, locksFree_of_parallel rfl _, by decide⟩

theorem witness_WriteWordSetsTheRegister :
    MemoryOk (block .refA [.ok 0]) ∧ (block .refA [.ok 0]).record.place = .start ∧ bankOf .refA 2 = some .two
      ∧ (block .refA [.ok 0]).locksFree [.two] ∧ (block .refA [.ok 0]).reply = .ok 0 :=
  ⟨memoryOk_block _ _, by decide, by decide, locksFree_of_parallel rfl _, by decide⟩

theorem witness_WrittenWordReadsBack :
    MemoryOk (block .refA [.ok 0, .ok 0]) ∧ (block .refA [.ok 0, .ok 0]).record.place = .start ∧
      ∃ t u, exec (.wrw 1 0x10 0xFFFF) (block .refA [.ok 0, .ok 0]) = .next t
        ∧ t.response = some (Response.done 0) ∧ t.record = InFlight.idle
        ∧ exec (.rdw 1 0x10) t = .next u ∧ u.response = some (Response.done 0x9999) ∧ u.record = InFlight.idle :=
  ⟨memoryOk_block _ _, by decide, _, _, rfl, by decide, by decide, rfl, by decide, by decide⟩

theorem witness_GetPortAnswersThePresentedBit :
    ReadsPort .refA .reset .one 15 (.getp 1 3 15) ∧ ReadsPort .refA .reset .two 15 (.mgetp 3 31)
      ∧ (block .refA [.ok 0]).record.place = .start ∧ locate .refA .one 15 = some (3, 3)
      ∧ Config.refA.entry? .one 3 = some ⟨0x13, 12, 4⟩ ∧ locate .refA .two 15 = some (3, 3)
      ∧ Config.refA.entry? .two 3 = some ⟨0x13, 12, 4⟩
      ∧ (block .refA [.ok 0]).locksFree [.one] ∧ (block .refA [.ok 0]).reply = .ok 0 :=
  ⟨⟨by decide, by decide, by decide, by decide⟩, ⟨by decide, by decide⟩, by decide, by decide, by decide, by decide,
    by decide, locksFree_of_parallel rfl _, by decide⟩

theorem witness_SetPortReadsItsRegister :
    WritesPort .refA .reset .one 5 true (.setp 1 3 5 true) ∧ WritesPort .refA .reset .two 15 true (.msetp 3 31 true)
      ∧ (block .refA [.ok 0xFFFF]).record.place = .start ∧ locate .refA .one 5 = some (1, 1)
      ∧ Config.refA.entry? .one 1 = some ⟨0x11, 4, 4⟩ ∧ (block .refA [.ok 0xFFFF]).locksFree [.one]
      ∧ (block .refA [.ok 0xFFFF]).reply = .ok 0xFFFF :=
  ⟨⟨by decide, by decide, by decide, by decide, by decide, by decide⟩, ⟨by decide, by decide, by decide, by decide⟩,
    by decide, by decide, by decide, locksFree_of_parallel rfl _, by decide⟩

theorem witness_SetPortWritesItsRegister :
    MemoryOk (during .refA [.ok 0] (record .write .one 1 0 0xFF7F 0))
      ∧ WritesPort .refA .reset .one 5 true (.setp 1 3 5 true)
      ∧ (during .refA [.ok 0] (record .write .one 1 0 0xFF7F 0)).record.place = .write
      ∧ (during .refA [.ok 0] (record .write .one 1 0 0xFF7F 0)).record.phase = .busy
      ∧ locate .refA .one 5 = some (1, 1) ∧ Config.refA.entry? .one 1 = some ⟨0x11, 4, 4⟩
      ∧ (during .refA [.ok 0] (record .write .one 1 0 0xFF7F 0)).reply = .ok 0 :=
  ⟨memoryOk_during _ _ _, ⟨by decide, by decide, by decide, by decide, by decide, by decide⟩, by decide, by decide,
    by decide, by decide, by decide⟩

/-- A command in progress at a register is due. -/
theorem due_during {i : Instr} {cfg : Config} {p : Plan} {bus : List BusReply} {r : InFlight}
    (h : planOf i cfg = .ok p) (hp : r.place = .read ∨ r.place = .write) (hr : r.phase = .busy) :
    Due (during cfg bus r) i p ∧ (during cfg bus r).dueRecord p = r := by
  have hrec : (during cfg bus r).record = r := State.record_setRecord _ hr
  refine ⟨⟨h, fun h' => ?_, fun _ => by rw [hrec]; exact hr⟩, ?_⟩
  · rw [hrec] at h'
    rcases hp with hp | hp <;> rcases h' with h' | h' <;> rw [hp] at h' <;> cases h'
  · unfold State.dueRecord
    rw [hrec]
    rcases hp with hp | hp <;> rw [hp]

/-- The three clauses: a register to come in the bank, a bank to come, the last register. -/
theorem witness_GetMaskReadsRegisterByRegister :
    (ReadsMask .refA .intr [.one] (fun _ => 0) (.getm 1 2)
      ∧ Due (during .refA [.ok 0] (record .read .one 2 0 0 0)) (.getm 1 2) (readMask .refA .intr [.one] fun _ => 0)
      ∧ Config.refA.entry? .one 2 = some ⟨0x12, 8, 4⟩ ∧ 2 + 1 < Config.refA.nreg .one) ∧
    (ReadsMask .refA .intr [.one, .two] BankId.base (.mgetm 2)
      ∧ Due (during .refA [.ok 0] (record .read .one 3 0 0 0)) (.mgetm 2) (readMask .refA .intr [.one, .two] BankId.base)
      ∧ Config.refA.entry? .one 3 = some ⟨0x13, 12, 4⟩ ∧ Config.refA.nreg .one ≤ 3 + 1
      ∧ nextBank [.one, .two] .one = some .two) ∧
    Due (during .refA [.ok 0] (record .read .two 3 0 0 0)) (.mgetm 2) (readMask .refA .intr [.one, .two] BankId.base)
      ∧ Config.refA.entry? .two 3 = some ⟨0x13, 12, 4⟩ ∧ Config.refA.nreg .two ≤ 3 + 1
      ∧ nextBank [.one, .two] .two = none ∧ (during .refA [.ok 0] (record .read .two 3 0 0 0)).reply = .ok 0 :=
  ⟨⟨⟨.one, rfl, rfl, rfl, rfl⟩, (due_during rfl (.inl rfl) rfl).1, by decide, by decide⟩,
    ⟨⟨rfl, rfl, rfl⟩, (due_during rfl (.inl rfl) rfl).1, by decide, by decide, by decide⟩,
    (due_during rfl (.inl rfl) rfl).1, by decide, by decide, by decide, by decide⟩

theorem witness_SetMaskReadsRegister :
    (WritesMask .refA .lpmode [.one] (fun _ => 0) 0xA5 (.setm 1 0 0xA5)
      ∧ Due (during .refA [.ok 0] (record .read .one 3 0xA5 0 0)) (.setm 1 0 0xA5)
        (writeMask .refA .lpmode [.one] (fun _ => 0) 0xA5)) ∧
    (WritesMask .refA .lpmode [.one, .two] BankId.base 0xA5 (.msetm 0 0xA5)
      ∧ Due (during .refA [.ok 0] (record .read .two 3 0xA5 0 0)) (.msetm 0 0xA5)
        (writeMask .refA .lpmode [.one, .two] BankId.base 0xA5)) ∧
    Config.refA.entry? .one 3 = some ⟨0x13, 12, 4⟩ ∧ Config.refA.entry? .two 3 = some ⟨0x13, 12, 4⟩
      ∧ (during .refA [.ok 0] (record .read .one 3 0xA5 0 0)).reply = .ok 0 :=
  ⟨⟨⟨.one, rfl, rfl, rfl, rfl, rfl, rfl⟩, (due_during rfl (.inl rfl) rfl).1⟩,
    ⟨⟨rfl, rfl, rfl, rfl, rfl⟩, (due_during rfl (.inl rfl) rfl).1⟩, by decide, by decide, by decide⟩

/-- The three clauses of the write, as for the read. -/
theorem witness_SetMaskWritesRegister :
    MemoryOk (during .refA [.ok 0] (record .write .one 2 0xA5 0 0))
      ∧ WritesMask .refA .lpmode [.one] (fun _ => 0) 0xA5 (.setm 1 0 0xA5)
      ∧ WritesMask .refA .lpmode [.one, .two] BankId.base 0xA5 (.msetm 0 0xA5)
      ∧ (during .refA [.ok 0] (record .write .one 2 0xA5 0 0)).record = record .write .one 2 0xA5 0 0
      ∧ Config.refA.entry? .one 2 = some ⟨0x12, 8, 4⟩ ∧ 2 + 1 < Config.refA.nreg .one
      ∧ Config.refA.entry? .one 3 = some ⟨0x13, 12, 4⟩ ∧ Config.refA.nreg .one ≤ 3 + 1
      ∧ nextBank [.one, .two] .one = some .two ∧ nextBank [.one, .two] .two = none
      ∧ (during .refA [.ok 0] (record .write .one 2 0xA5 0 0)).reply = .ok 0 :=
  ⟨memoryOk_during _ _ _, ⟨.one, rfl, rfl, rfl, rfl, rfl, rfl⟩, ⟨rfl, rfl, rfl, rfl, rfl⟩, by decide, by decide,
    by decide, by decide, by decide, by decide, by decide, by decide⟩

theorem witness_GetMaskAnswersThePresentedMask :
    (Config.refB.wf = true ∧ ReadsMask .refB .lpmode [.one] (fun _ => 0) (.getm 1 0)
      ∧ (block .refB [.ok 5]).record.place = .start ∧ (block .refB [.ok 5]).locksFree [.one]
      ∧ (block .refB [.ok 5]).answers [5] ∧ [(5 : RegWord)].length = (registersOf .refB [.one]).length) ∧
    (Config.refA.wf = true ∧ ReadsMask .refA .lpmode [.one, .two] BankId.base (.mgetm 0)
      ∧ (block .refA (List.replicate 8 (.ok 5))).answers (List.replicate 8 5)
      ∧ (List.replicate 8 (5 : RegWord)).length = (registersOf .refA [.one, .two]).length) :=
  ⟨⟨by decide, ⟨.one, rfl, rfl, rfl, rfl⟩, by decide, locksFree_of_parallel rfl _, ⟨[], rfl⟩, by decide⟩,
    by decide, ⟨rfl, rfl, rfl⟩, ⟨[], rfl⟩, by decide⟩

theorem witness_SetMaskWritesThePresentedMask :
    (Config.refB.wf = true ∧ MemoryOk (block .refB [.ok 5, .ok 7])
      ∧ WritesMask .refB .lpmode [.one] (fun _ => 0) 0xF (.setm 1 0 0xF)
      ∧ (block .refB [.ok 5, .ok 7]).record.place = .start ∧ (block .refB [.ok 5, .ok 7]).locksFree [.one]
      ∧ (block .refB [.ok 5, .ok 7]).answers ([(5, 7)].flatMap fun d => [d.1, d.2])
      ∧ [((5, 7) : RegWord × RegWord)].length = (registersOf .refB [.one]).length) ∧
    WritesMask .refB .lpmode [.one] BankId.base 0xF (.msetm 0 0xF) :=
  ⟨⟨by decide, memoryOk_block _ _, ⟨.one, rfl, rfl, rfl, rfl, rfl, rfl⟩, by decide, locksFree_of_parallel rfl _,
    ⟨[], rfl⟩, by decide⟩, rfl, rfl, rfl, rfl, rfl⟩

/-- V-TR-19's two commands. -/
theorem witness_SetMaskThenGetMaskRoundTrips :
    Config.refB.wf = true ∧ MemoryOk (block .refB [.ok 0, .ok 0, .ok 0]) ∧ bankOf .refB 1 = some .one
      ∧ (block .refB [.ok 0, .ok 0, .ok 0]).record.place = .start ∧
      ∃ t u, runAlone (.setm 1 3 0x5) 2 (block .refB [.ok 0, .ok 0, .ok 0]) = .next t ∧ t.record = InFlight.idle
        ∧ t.response = some (Response.done 0) ∧ t.record.place = .start ∧ runAlone (.getm 1 3) 1 t = .next u
        ∧ u.record = InFlight.idle ∧ u.response = some (Response.done 0x5) :=
  ⟨by decide, memoryOk_block _ _, by decide, by decide, _, _, rfl, by decide, by decide, by decide, rfl, by decide,
    by decide⟩

/-- `REFCFG` variant B with every control bit of its register known to be 0. -/
def known : State := { block .refB [.ok 0, .ok 0] with peer1 := [(0x20, ⟨0x9999, 0⟩)] }

theorem memoryOk_known : MemoryOk known where
  canonical b := by cases b <;> decide
  control b sel := by
    cases b
    · by_cases h : sel.toNat = 0x20
      · have : sel = 0x20 := BitVec.eq_of_toNat_eq h
        subst this
        decide
      · have : known.ctrl .one sel = CtrlWord.unknown := by
          simp [State.ctrl, State.peer, known, Memory.get, tableGet]
          omega
        rw [this]
        exact BitVec.zero_and
    · exact BitVec.zero_and

theorem witness_SetPortIsolatesItsBit :
    Config.refB.wf = true ∧ MemoryOk known ∧ WritesPort .refB .lpmode .one 2 true (.setp 1 0 2 true)
      ∧ WritesPort .refB .lpmode .one 2 true (.msetp 0 2 true) ∧ known.record.place = .start
      ∧ seen (fun t => (t.record, t.response)) (runAlone (.setp 1 0 2 true) 2 known) =
        some (InFlight.idle, some (Response.done 0))
      ∧ known.ctrlBit .one .lpmode 3 = some false ∧ known.ctrlBit .one .reset 2 = some false :=
  ⟨by decide, memoryOk_known, ⟨by decide, by decide, by decide, by decide, by decide, by decide⟩,
    ⟨by decide, by decide, by decide, by decide⟩, by decide, by decide, by decide, by decide⟩

theorem witness_SetMaskIsolatesItsFeature :
    Config.refB.wf = true ∧ MemoryOk known ∧ WritesMask .refB .lpmode [.one] (fun _ => 0) 0xF (.setm 1 0 0xF)
      ∧ WritesMask .refB .lpmode [.one] BankId.base 0xF (.msetm 0 0xF) ∧ known.record.place = .start
      ∧ seen (fun t => (t.record, t.response)) (runAlone (.setm 1 0 0xF) 2 known) =
        some (InFlight.idle, some (Response.done 0))
      ∧ known.ctrlBit .one .reset 3 = some false :=
  ⟨by decide, memoryOk_known, ⟨.one, rfl, rfl, rfl, rfl, rfl, rfl⟩, ⟨rfl, rfl, rfl, rfl, rfl⟩, by decide, by decide,
    by decide⟩

/-- The read of the second register fails, after the first is written. -/
theorem witness_FailedSetMaskIsAppliedInPart :
    Config.refA.wf = true ∧ MemoryOk (block .refA [.ok 0, .ok 0, .fail 0])
      ∧ WritesMask .refA .lpmode [.one] (fun _ => 0) 0xFFFF (.setm 1 0 0xFFFF)
      ∧ (block .refA [.ok 0, .ok 0, .fail 0]).record.place = .start
      ∧ seen (fun t => (t.record, t.response)) (runAlone (.setm 1 0 0xFFFF) 3 (block .refA [.ok 0, .ok 0, .fail 0])) =
        some (InFlight.idle, some (Response.transport .refA .one 0x11 0x80000000)) :=
  ⟨by decide, memoryOk_block _ _, ⟨.one, rfl, rfl, rfl, rfl, rfl, rfl⟩, by decide, by decide⟩

theorem witness_EveryCommandAloneEnds :
    Config.refA.wf = true ∧ (block .refA []).record.place = .start
      ∧ (∀ i ∈ allCommands, (planOf i .refA).toOption.isSome = true)
      ∧ ({ block { Config.refA with serialize := true } [] with lock2 := some 0 }).locksFree [.one, .two] :=
  ⟨by decide, by decide, by decide, locksFree_serialized _⟩

theorem witness_VariantBMuxIsBankOne :
    Config.refB.variant = .B ∧ Config.refB.wf = true ∧ (block .refB []).record.place = .start ∧ 4 ≤ (4 : BitVec 8).toNat := by decide

theorem witness_MuxPortIsTheRoutedPort :
    route .refA (15 : BitVec 8).toNat = some (.one, (15 : BitVec 8).toNat)
      ∧ route .refA (16 : BitVec 8).toNat = some (.two, (0 : BitVec 8).toNat) := by decide

theorem witness_ConstructionMeetsTheInvariants : Config.refB.wf = true := by decide

theorem witness_StepKeepsTheInvariant :
    RunInv (given .refA [.ok 0] (.command 5 0x00100101 0))
      ∧ seen (fun t => t.log) (step (given .refA [.ok 0] (.command 5 0x00100101 0))) = some [.read .one 0x10 0] :=
  ⟨runInv_fresh (by decide) rfl fun b => by cases b <;> rfl, by decide⟩

theorem witness_NoFaultFromTheInvariant : RunInv (given .refA [] (.command 5 0x00000103 0)) :=
  runInv_fresh (by decide) rfl fun b => by cases b <;> rfl

theorem witness_StepKeepsMemoryOk :
    MemoryOk (given .refA [.ok 0] (.command 5 0x00100102 0x2143))
      ∧ seen (fun t => t.ctrl .one 0x10) (step (given .refA [.ok 0] (.command 5 0x00100102 0x2143))) =
        some ⟨0x9999, 0x0101⟩ :=
  ⟨⟨(memoryOk_block .refA [.ok 0]).canonical, (memoryOk_block .refA [.ok 0]).control⟩, by decide⟩

theorem witness_StepKeepsResponsesShaped :
    ResponsesOk (given .refA [.fail 0] (.command 5 0x00110101 0))
      ∧ seen (fun t => (t.caller 5).response) (step (given .refA [.fail 0] (.command 5 0x00110101 0))) =
        some (some ⟨.transportError, none, some 1, some 0x60, some 0x11, some 0x80000000⟩) :=
  ⟨fun _ _ h => (by cases h), by decide⟩

theorem witness_SerializedTransactionsExcludeOthers :
    RunInv (given { Config.refA with serialize := true } [.ok 0] (.command 5 0x00100101 0))
      ∧ seen (fun t => (t.log, t.cur))
        (step (given { Config.refA with serialize := true } [.ok 0] (.command 5 0x00100101 0))) =
        some ([.read .one 0x10 0], 5) :=
  ⟨runInv_fresh (by decide) rfl fun b => by cases b <;> rfl, by decide⟩

theorem witness_ReconstructionResetsTheBlock :
    (given .refB [] .reset).anyBusy = false ∧ Config.refB.wf = true
      ∧ seen State.cfg (step (given .refB [] .reset)) = some .refB := by decide

theorem witness_NoStepChangesTheConfiguration :
    seen State.cfg (step (given .refB [.ok 0] (.command 5 0x00200101 0))) = some .refB := by decide

theorem witness_RefusedInputs :
    (during .refA [] (record .read .one 0 0 0 0)).anyBusy = true ∧ (block .refA []).anyBusy = false
      ∧ ({ Config.refA with addrW := 6 }).wf = false ∧ ({ Config.refA with modabs := ⟨0, .activeLow, false⟩ }).wf = false
      ∧ (given { Config.refA with addrW := 6 } [] .reset).anyBusy = false ∧ (∃ b ∈ State.reset.cfg.banks, State.reset.attached b = false)
      ∧ (during .refA [] (record .read .one 0 0 0 0)).ready = true
      ∧ (during .refA [] (record .read .one 0 0 0 0)).busy 0 = true := by decide

theorem witness_AttachMakesNoTransaction :
    .two ∈ Config.refA.banks ∧ Input.attach BankId.two.number (Config.refA.addr .two) = .attach 2 0x62 := by decide

end Sys2Proof.Tests
end

/-! PROOFS. The statements of 10_state.md: which bits of a register are control bits (R45), and that a failed
transaction determines none of them (R48). -/

namespace Sys2Proof.Machine

/-! ### Control bits -/

/-- Only a feature register has control bits: those of its entry's slots in use (10_state.md R45). -/
theorem registerAt_of_ctrlMask {cfg : Config} {b : BankId} {sel : Selector} {j : Nat}
    (hj : (cfg.ctrlMask b sel).getLsbD j = true) :
    ∃ e, cfg.registerAt b sel = .feature e ∧ (cfg.controlBits e.count).getLsbD j = true := by
  unfold Config.ctrlMask at hj
  cases hr : cfg.registerAt b sel with
  | feature e => exact ⟨e, rfl, by simpa [hr] using hj⟩
  | ledMode => simp [hr] at hj
  | undescribed => simp [hr] at hj

/-- The converse of `ctrlMask_slot`, of any configuration: a control bit is the bit of a writable feature in a slot in
use of an entry with that selector. -/
theorem slot_of_ctrlMask {cfg : Config} {b : BankId} {sel : Selector} {j : Nat}
    (hj : (cfg.ctrlMask b sel).getLsbD j = true) :
    ∃ k e slot f, cfg.entry? b k = some e ∧ e.sel = sel ∧ slot < e.count ∧ (cfg.info f).writable = true
      ∧ j = bitPos (cfg.info f).off slot := by
  obtain ⟨e, hreg, hbit⟩ := registerAt_of_ctrlMask hj
  obtain ⟨hmem, hsel⟩ := Config.registerAt_mem hreg
  obtain ⟨k, hk⟩ := List.getElem?_of_mem hmem
  obtain ⟨f, hwritable, hf⟩ := (Config.getLsbD_controlBits cfg e.count j).1 hbit
  obtain ⟨-, slot, hslot, hpos⟩ := (getLsbD_slotBits _ _ _).1 hf
  exact ⟨k, e, slot, f, hk, hsel, hslot, hwritable, hpos⟩

/-- Settles O12: `slot_of_ctrlMask` one way, `ctrlMask_slot` the other. -/
theorem controlBitsAreThoseOfWritableFeatures : Obligations.ControlBitsAreThoseOfWritableFeatures := by
  intro cfg b sel j hwf hb
  constructor
  · exact slot_of_ctrlMask
  · rintro ⟨k, e, slot, f, hk, rfl, hslot, hwritable, rfl⟩
    exact ctrlMask_slot hwf hb hk hwritable hslot

/-! ### Failed transactions -/

/-- A failed write retains nothing at its register (10_state.md R48). -/
theorem ctrl_memWrite_fail_self {s : State} {low : BitVec 31} (h : s.reply = .fail low) {b : BankId}
    (hb : (s.peer b).wf) (sel : Selector) (v : RegWord) : (s.memWrite b sel v).2.ctrl b sel = CtrlWord.unknown := by
  simp only [State.memWrite_fail h, State.ctrl_logged]
  exact State.ctrl_setCtrl_self _ (by simpa using hb) sel _

/-- A failed write leaves every other register as it was (20_memory.md R87). -/
theorem samePeersBut_memWrite_fail {s : State} {low : BitVec 31} (h : s.reply = .fail low) (b : BankId)
    (sel : Selector) (v : RegWord) : SamePeersBut b sel s (s.memWrite b sel v).2 := by
  intro b' sel' hne
  simp only [State.memWrite_fail h, State.ctrl_logged]
  rw [State.ctrl_setCtrl_of_ne _ _ hne, State.ctrl_drawReply]

/-- A failed read changes no `CTRL` (10_state.md R48). -/
theorem samePeers_memRead_fail {s : State} {low : BitVec 31} (h : s.reply = .fail low) (b : BankId)
    (sel : Selector) : SamePeers s (s.memRead b sel).2 := by
  intro b' sel'
  simp only [State.memRead_fail h, State.ctrl_logged, State.ctrl_drawReply]

/-- Settles O16, one lemma per part. -/
theorem failedWriteForgetsControlBits : Obligations.FailedWriteForgetsControlBits := by
  intro s b sel v low hm h
  exact ⟨congrArg Prod.fst (State.memWrite_fail h b sel v), ctrl_memWrite_fail_self h (hm.canonical b) sel v,
    samePeersBut_memWrite_fail h b sel v, congrArg Prod.fst (State.memRead_fail h b sel), samePeers_memRead_fail h b sel⟩

end Sys2Proof.Machine

/-! PROOFS. The statements of 20_memory.md: a step of a command makes at most one transaction, which reaches one
register (R72, R87), and what the nibble swap does to each nibble (R75). -/

namespace Sys2Proof.Machine

/-! ### One transaction, one register -/

/-- Equal register files retain the same at every register. -/
theorem samePeers_of_peer {s t : State} (h : ∀ b, t.peer b = s.peer b) : SamePeers s t :=
  fun b sel => congrArg (Memory.get · sel) (h b)

/-- A rejected command reaches no register (60_exceptions.md R238). -/
theorem samePeers_raise (s : State) (e : Status) : SamePeers s (s.raise e) :=
  SamePeers.respond (fun _ _ => rfl) _

/-- Settles O18, by what one step of a command can do: a rejection and a wait make no transaction; otherwise there is
one, and ending the command or going on with it changes neither the log nor a register. -/
theorem stepOfACommandIsAtMostOneTransaction : Obligations.StepOfACommandIsAtMostOneTransaction := by
  intro i s t h
  cases execStep h with
  | rejected e _ _ ht =>
    subst ht
    exact .inl ⟨rfl, samePeers_raise s e, rfl, rfl⟩
  | waiting p _ hc _ ht =>
    subst ht
    have hwaits := waits (planShape hc)
    exact .inl ⟨hwaits.log, samePeers_of_peer hwaits.peer, hwaits.bus, hwaits.drawn⟩
  | readOk p b sel draw s2 _ _ _ _ ha _ hpeer ht =>
    subst ht
    exact .inr ⟨_, (State.log_proceed s2 _).trans ha.log, (samePeers_of_peer hpeer).proceed _⟩
  | readFail p b sel low s2 _ _ _ _ ha _ hpeer ht =>
    subst ht
    exact .inr ⟨_, (State.respond_log s2 _).trans ha.log, (samePeers_of_peer hpeer).respond _⟩
  | writeOk p b sel draw s2 _ _ _ _ ha _ hw ht =>
    subst ht
    exact .inr ⟨_, (State.log_proceed s2 _).trans ha.log, hw.others.proceed _⟩
  | writeFail p b sel low s2 _ _ _ _ ha _ hw ht =>
    subst ht
    exact .inr ⟨_, (State.respond_log s2 _).trans ha.log, hw.others.respond _⟩

/-! ### The nibble swap -/

/-- In NSWAP's bit map (20_memory.md R77), bit `i` of nibble `n` goes with bit `i` of the other nibble of its byte. -/
theorem nibble_bit_xor_four {n i : Nat} (hi : i < 4) : (4 * n + i) ^^^ 4 = 4 * (n ^^^ 1) + i := by
  have hdiv : ((4 * n + i) ^^^ 4) / 4 = n ^^^ 1 := by
    rw [Nat.xor_div_two_pow (n := 2), show (4 * n + i) / 2 ^ 2 = n by omega]
  have hmod : ((4 * n + i) ^^^ 4) % 4 = i := by
    rw [Nat.xor_mod_two_pow (n := 2), show (4 * n + i) % 2 ^ 2 = i by omega]
    exact Nat.xor_zero i
  omega

/-- Nibble `n` of `NSWAP` is the other nibble of its byte, nibble `n XOR 1` (20_memory.md R75). -/
theorem extractLsb'_nswap (w : RegWord) {n : Nat} (hn : n < 4) :
    (nswap w).extractLsb' (4 * n) 4 = w.extractLsb' (4 * (n ^^^ 1)) 4 := by
  apply BitVec.eq_of_getLsbD_eq
  intro i hi
  have hbit : 4 * n + i < 16 := by omega
  simp only [BitVec.getLsbD_extractLsb', getLsbD_nswap, nibble_bit_xor_four hi, hbit, decide_true, Bool.true_and]

/-- Settles O7: the four nibbles, one at a time; the formula is the definition. -/
theorem nibbleSwapExchangesNibbles : Obligations.NibbleSwapExchangesNibbles := by
  refine ⟨fun w => ⟨?_, ?_, ?_, ?_, rfl⟩, by decide⟩
  · exact extractLsb'_nswap w (n := 3) (by decide)
  · exact extractLsb'_nswap w (n := 2) (by decide)
  · exact extractLsb'_nswap w (n := 1) (by decide)
  · exact extractLsb'_nswap w (n := 0) (by decide)

end Sys2Proof.Machine

/-! PROOFS. The statements of 30_encoding.md: which pairs of words are no command, and what the block does with one that
is delivered (R114). -/

namespace Sys2Proof.Machine

/-! ### Illegal words -/

/-- What makes a first word illegal (30_encoding.md R114): its `OP`, or a reserved bit that is not 0. -/
def IllegalWord (cmd : Word32) : Prop :=
  (opField cmd).toNat ∈ [0x0, 0x7, 0x8, 0xD, 0xE, 0xF] ∨ reservedLow cmd ≠ 0 ∨ reservedHigh cmd ≠ 0

theorem decode_of_reservedBits {cmd : Word32} (data : Word32) (h : reservedLow cmd ≠ 0 ∨ reservedHigh cmd ≠ 0) :
    decode cmd data = .error .reservedBits :=
  if_pos h

/-- With the reserved bits clear, `OP` alone decides: one of the ten that R113 lists is a command, any other is none. -/
theorem decode_of_clear {cmd : Word32} (data : Word32) (hclear : ¬ (reservedLow cmd ≠ 0 ∨ reservedHigh cmd ≠ 0)) :
    (opField cmd).toNat ∈ [0x0, 0x7, 0x8, 0xD, 0xE, 0xF] ∧ decode cmd data = .error .reservedOp ∨
      (opField cmd).toNat ∉ [0x0, 0x7, 0x8, 0xD, 0xE, 0xF] ∧ ∃ i, decode cmd data = .ok i := by
  have hop : (opField cmd).toNat < 16 := (opField cmd).isLt
  unfold decode
  rw [if_neg hclear]
  generalize (opField cmd).toNat = op at hop ⊢
  split
  case h_11 =>
    refine .inl ⟨?_, rfl⟩
    simp only [List.mem_cons, List.not_mem_nil, or_false, imp_false] at *
    omega
  all_goals exact .inr ⟨by decide, _, rfl⟩

/-- A pair of words is either a command or illegal, never both. -/
theorem decode_cases (cmd data : Word32) :
    IllegalWord cmd ∧ (∃ e, decode cmd data = .error e) ∨ ¬ IllegalWord cmd ∧ ∃ i, decode cmd data = .ok i := by
  by_cases hbits : reservedLow cmd ≠ 0 ∨ reservedHigh cmd ≠ 0
  · exact .inl ⟨.inr hbits, _, decode_of_reservedBits data hbits⟩
  · rcases decode_of_clear data hbits with ⟨hop, herr⟩ | ⟨hop, hok⟩
    · exact .inl ⟨.inl hop, _, herr⟩
    · exact .inr ⟨fun h => h.elim hop hbits, hok⟩

theorem decode_error_of_illegalWord {cmd : Word32} (data : Word32) (h : IllegalWord cmd) :
    ∃ e, decode cmd data = .error e :=
  (decode_cases cmd data).elim And.right fun hlegal => absurd h hlegal.1

theorem decode_ne_ok_iff (cmd data : Word32) : (∀ i, decode cmd data ≠ .ok i) ↔ IllegalWord cmd := by
  rcases decode_cases cmd data with ⟨hill, e, he⟩ | ⟨hlegal, i, hi⟩
  · exact iff_of_true (fun i => by simp [he]) hill
  · exact iff_of_false (fun hne => hne i hi) hlegal

/-! ### A delivered illegal command -/

/-- A caller with nothing in progress has its command delivered and served at once (70_reset_and_hazards.md R275,
R276). -/
theorem step_command {s : State} {c : CallerId} {cmd data : Word32} {rest : List Input}
    (hin : s.inputs = .command c cmd data :: rest) (hready : s.ready = true) (hidle : s.busy c = false) :
    step s = ((s.took rest).deliver c cmd data).perform := by
  have hready' : (s.took rest).ready = true := hready
  have hidle' : (s.took rest).busy c = false := hidle
  simp [step, State.nextInput, hin, State.take, State.accept, hready', hidle']

/-- Words that decode to no command are rejected in the step that delivers them (30_encoding.md R114). -/
theorem perform_deliver_of_error {cmd data : Word32} {e : DecodeError} (h : decode cmd data = .error e) (s : State)
    (c : CallerId) : (s.deliver c cmd data).perform = .next ((s.deliver c cmd data).raise .invalidCommand) := by
  simp [State.perform, InFlight.delivered, h]

@[simp] theorem State.attached_respond (s : State) (r : Response) (b : BankId) :
    (s.respond r).attached b = s.attached b := rfl

theorem released_of_ne {c : CallerId} {h : Option CallerId} (hne : h ≠ some c) : released c h = h := if_neg hne

/-- A caller that holds no lock gives none back. -/
theorem State.lock_raise_deliver (s : State) {c : CallerId} (cmd data : Word32) (e : Status) {b : BankId}
    (h : s.lock b ≠ some c) : ((s.deliver c cmd data).raise e).lock b = s.lock b := by
  rw [State.raise, State.lock_respond, State.deliver_lock, State.deliver_cur, released_of_ne h]

/-- A command rejected as it is delivered ends: its caller has the response and an idle record. -/
theorem State.caller_raise_deliver_self (s : State) (c : CallerId) (cmd data : Word32) (e : Status) :
    ((s.deliver c cmd data).raise e).caller c = ⟨InFlight.idle, some (Response.rejected e)⟩ :=
  State.caller_respond_self (s.deliver c cmd data) _

theorem State.caller_raise_deliver_of_ne (s : State) {c c' : CallerId} (cmd data : Word32) (e : Status)
    (h : c' ≠ c) : ((s.deliver c cmd data).raise e).caller c' = s.caller c' :=
  (State.caller_respond_of_ne (s.deliver c cmd data) _ h).trans (s.deliver_caller_of_ne cmd data h)

/-- Settles O2: `decode_ne_ok_iff` is the illegal set; the step ends in the rejection of the delivered command, of
which each field is a lemma above. -/
theorem illegalCommandIsRejected : Obligations.IllegalCommandIsRejected := by
  refine ⟨decode_ne_ok_iff, fun s c cmd data rest hin hready hidle hlock hill => ?_⟩
  obtain ⟨e, he⟩ := decode_error_of_illegalWord data hill
  have hstep := (step_command hin hready hidle).trans (perform_deliver_of_error he _ c)
  have hcaller := (s.took rest).caller_raise_deliver_self c cmd data .invalidCommand
  refine ⟨_, hstep, by rw [hcaller], by rw [hcaller]; rfl,
    fun c' hne => State.caller_raise_deliver_of_ne (s.took rest) cmd data _ hne, rfl, fun b => ?_, fun b => ?_,
    fun b => State.lock_raise_deliver (s.took rest) cmd data _ (hlock b), rfl, rfl, rfl, rfl⟩
  · exact (State.attached_respond _ _ b).trans (State.deliver_attached _ c cmd data b)
  · exact (State.peer_respond _ _ b).trans (State.deliver_peer _ c cmd data b)

end Sys2Proof.Machine

/-! PROOFS. The statement of 41_transcode.md: the presentation of a mask is its own inverse (R163). -/

namespace Sys2Proof.Machine

theorem getLsbD_eq_false_of_toNat_lt {h : Word32} {n j : Nat} (hlt : h.toNat < 2 ^ n) (hn : n ≤ j) :
    h.getLsbD j = false :=
  Nat.testBit_lt_two_pow (hlt.trans_le (Nat.pow_le_pow_right (by decide) hn))

/-- The bits of an active-low presentation are the complement below `N`, and 0 from `N` on. -/
theorem getLsbD_present_activeLow (h : Word32) {n : Nat} (hn : n ≤ 32) (j : Nat) :
    (present .activeLow h n).getLsbD j = (decide (j < n) && !h.getLsbD j) := by
  by_cases hj : j < n
  · rw [getLsbD_present _ _ (hj.trans_le hn) hj]
    simp [presentBit, hj]
  · simp [present, hj]

/-- Below `N` a bit is presented twice; from `N` on neither mask has one. -/
theorem present_present (pol : Polarity) {h : Word32} {n : Nat} (hlt : h.toNat < 2 ^ n) :
    present pol (present pol h n) n = h := by
  apply BitVec.eq_of_getLsbD_eq
  intro j hj
  rcases Nat.lt_or_ge j n with hn | hn
  · rw [getLsbD_present _ _ hj hn, getLsbD_present _ _ hj hn, presentBit_presentBit]
  · have hzero : h.getLsbD j = false := getLsbD_eq_false_of_toNat_lt hlt hn
    rw [getLsbD_present_ge _ _ hn (getLsbD_present_ge _ _ hn hzero), hzero]

/-- Settles O9: an active-high mask is presented as it is; the two lemmas above are the other two parts. -/
theorem presentationIsItsOwnInverse : Obligations.PresentationIsItsOwnInverse :=
  fun h _ hn => ⟨rfl, getLsbD_present_activeLow h hn, fun hlt pol => present_present pol hlt⟩

end Sys2Proof.Machine

/-! PROOFS. The statements of 60_exceptions.md: selectors out of range (R232) and writes of read-only features (R234)
are rejected before any bus access, and a failed transaction ends its command (R235). -/

namespace Sys2Proof.Machine

/-! ### Failed transactions -/

theorem negativeStatus_toInt_neg (low : BitVec 31) : (negativeStatus low).toInt < 0 :=
  BitVec.toInt_neg_of_msb_true (negativeStatus_msb low)

theorem SamePeers.but {s t : State} (h : SamePeers s t) (b : BankId) (sel : Selector) : SamePeersBut b sel s t :=
  fun b' sel' _ => h b' sel'

/-- Settles O23: the due transaction is a read or a write, and either way the state right after its failure
(`Due.read_fail`, `Due.write_fail`) is answered with the transport error. -/
theorem failedTransactionEndsTheCommand : Obligations.FailedTransactionEndsTheCommand := by
  intro i s p b sel low hdue htarget hplace hreply
  rcases hplace with hread | hwrite
  · obtain ⟨s2, hafter, hpeers, hexec⟩ := hdue.read_fail htarget hread hreply
    obtain ⟨hended, houtside, hlog⟩ := hafter.ended (Response.transport s.cfg b sel (negativeStatus low))
    have hpeers' := hpeers.respond (Response.transport s.cfg b sel (negativeStatus low))
    exact ⟨_, hexec, hended, negativeStatus_toInt_neg low, houtside, hpeers'.but b sel, fun _ => ⟨hlog, hpeers'⟩,
      fun hwrite => by simp [hread] at hwrite⟩
  · obtain ⟨s2, hafter, hwrote, hexec⟩ := hdue.write_fail htarget hwrite hreply
    obtain ⟨hended, houtside, hlog⟩ := hafter.ended (Response.transport s.cfg b sel (negativeStatus low))
    exact ⟨_, hexec, hended, negativeStatus_toInt_neg low, houtside, hwrote.others.respond _,
      fun hread => by simp [hwrite] at hread, fun _ => hlog⟩

/-! ### Checks that fail -/

theorem checkBank_error {cfg : Config} {bank : BitVec 2} {e : Status} :
    checkBank cfg bank = .error e ↔ bankOf cfg bank = none ∧ e = .invalidSelector := by
  unfold checkBank; cases bankOf cfg bank <;> simp [eq_comm]

theorem checkFeature_error {feat : BitVec 4} {e : Status} :
    checkFeature feat = .error e ↔ featureOf feat = none ∧ e = .invalidSelector := by
  unfold checkFeature; cases featureOf feat <;> simp [eq_comm]

theorem checkPort_error {cfg : Config} {b : BankId} {port : BitVec 8} {e : Status} :
    checkPort cfg b port = .error e ↔ cfg.ports b ≤ port.toNat ∧ e = .invalidSelector := by
  unfold checkPort; split_ifs with h
  · simp [Nat.not_le.2 h]
  · simp [Nat.not_lt.1 h, eq_comm]

theorem checkRoute_error {cfg : Config} {gport : BitVec 8} {e : Status} :
    checkRoute cfg gport = .error e ↔ route cfg gport.toNat = none ∧ e = .invalidSelector := by
  unfold checkRoute; cases route cfg gport.toNat <;> simp [eq_comm]

theorem checkWritable_error {cfg : Config} {f : Feature} {e : Status} :
    checkWritable cfg f = .error e ↔ (cfg.info f).writable = false ∧ e = .unsupportedOperation := by
  unfold checkWritable; split_ifs with h <;> simp [h, eq_comm]

/-- The first check that fails is the answer of the sequence (60_exceptions.md R236). -/
theorem error_bind {α β : Type} {x : Except Status α} {k : α → Except Status β} {e : Status} (h : x = .error e) :
    (x >>= k) = .error e := by
  subst h; rfl

/-- Behind a check that passes, the rest of the sequence answers. -/
theorem ok_bind {α β : Type} {x : Except Status α} {k : α → Except Status β} {a : α} {r : Except Status β}
    (h : x = .ok a) (hk : k a = r) : (x >>= k) = r := by
  subst h; exact hk

/-- A check that can only fail with the code the rest of its sequence fails with does not change the answer. -/
theorem bind_error_of_forall {α β : Type} {x : Except Status α} {k : α → Except Status β} {e : Status}
    (hx : ∀ e', x = .error e' → e' = e) (hk : ∀ a, k a = .error e) : (x >>= k) = .error e := by
  cases x with
  | error e' => exact error_bind (congrArg _ (hx e' rfl))
  | ok a => exact hk a

theorem checkBank_bind_invalidSelector {β : Type} {cfg : Config} {bank : BitVec 2} {k : BankId → Except Status β}
    (hk : ∀ b, k b = .error .invalidSelector) : (checkBank cfg bank >>= k) = .error .invalidSelector :=
  bind_error_of_forall (fun _ h => (checkBank_error.1 h).2) hk

theorem checkFeature_bind_invalidSelector {β : Type} {feat : BitVec 4} {k : Feature → Except Status β}
    (hk : ∀ f, k f = .error .invalidSelector) : (checkFeature feat >>= k) = .error .invalidSelector :=
  bind_error_of_forall (fun _ h => (checkFeature_error.1 h).2) hk

/-- A command whose checks fail is answered at its start, before any bus access (60_exceptions.md R236, R238). -/
theorem exec_rejected {i : Instr} {s : State} {e : Status} (hp : s.record.place = .start)
    (h : planOf i s.cfg = .error e) : exec i s = .next (s.raise e) :=
  (exec_eq_serve i s).trans (State.serve_rejected hp h)

/-! ### Selectors out of range -/

/-- Only the numbers `1 .. NBANKS` name a bank (42_bank_mux.md R201). -/
theorem bankOf_eq_none {cfg : Config} {bank : BitVec 2} (h : ¬ (1 ≤ bank.toNat ∧ bank.toNat ≤ cfg.banks.length)) :
    bankOf cfg bank = none := by
  refine List.find?_eq_none.2 fun b hb hnumber => h ?_
  obtain rfl : b.number = bank := by simpa using hnumber
  unfold Config.banks at hb ⊢
  split at hb <;> cases b <;> simp_all [BankId.number]

/-- There is no feature from index 4 on (00_scope.md R10). -/
theorem featureOf_eq_none {feat : BitVec 4} (h : 3 < feat.toNat) : featureOf feat = none :=
  List.getElem?_eq_none_iff.2 h

/-- A global port outside every bank's range is routed nowhere (42_bank_mux.md R202). -/
theorem route_eq_none {cfg : Config} {gp : Nat}
    (h : ∀ b ∈ cfg.banks, ¬ (b.base ≤ gp ∧ gp < b.base + cfg.ports b)) : route cfg gp = none := by
  refine Option.map_eq_none_iff.2 (List.find?_eq_none.2 fun b hb hholds => h b hb ?_)
  simpa [holdsPort] using hholds

/-- 60_exceptions.md R232 (a). -/
theorem planOf_of_bankOf_none {cfg : Config} {bank : BitVec 2} (h : bankOf cfg bank = none) (feat : BitVec 4)
    (idx : BitVec 8) (word : BitVec 16) (mask : BitVec 32) (v : Bool) :
    ∀ i ∈ [Instr.rdw bank idx, .wrw bank idx word, .getm bank feat, .setm bank feat mask, .getp bank feat idx,
      .setp bank feat idx v], planOf i cfg = .error .invalidSelector := by
  have hcheck : checkBank cfg bank = .error .invalidSelector := checkBank_error.2 ⟨h, rfl⟩
  simp only [List.forall_mem_cons, List.not_mem_nil, false_imp_iff, implies_true, and_true]
  exact ⟨error_bind hcheck, error_bind hcheck, error_bind hcheck, error_bind hcheck, error_bind hcheck,
    error_bind hcheck⟩

/-- 60_exceptions.md R232 (b); of a bank-level command the bank is checked first, and fails with the same code. -/
theorem planOf_of_featureOf_none (cfg : Config) (bank : BitVec 2) {feat : BitVec 4} (h : featureOf feat = none)
    (idx : BitVec 8) (mask : BitVec 32) (v : Bool) :
    ∀ i ∈ [Instr.getm bank feat, .setm bank feat mask, .getp bank feat idx, .setp bank feat idx v, .mgetm feat,
      .msetm feat mask, .mgetp feat idx, .msetp feat idx v], planOf i cfg = .error .invalidSelector := by
  have hcheck : checkFeature feat = .error .invalidSelector := checkFeature_error.2 ⟨h, rfl⟩
  simp only [List.forall_mem_cons, List.not_mem_nil, false_imp_iff, implies_true, and_true]
  exact ⟨checkBank_bind_invalidSelector fun _ => error_bind hcheck,
    checkBank_bind_invalidSelector fun _ => error_bind hcheck,
    checkBank_bind_invalidSelector fun _ => error_bind hcheck,
    checkBank_bind_invalidSelector fun _ => error_bind hcheck,
    error_bind hcheck, error_bind hcheck, error_bind hcheck, error_bind hcheck⟩

/-- 60_exceptions.md R232 (c). -/
theorem planOf_of_ports_le {cfg : Config} {bank : BitVec 2} {b : BankId} {idx : BitVec 8}
    (hbank : bankOf cfg bank = some b) (h : cfg.ports b ≤ idx.toNat) (feat : BitVec 4) (v : Bool) :
    ∀ i ∈ [Instr.getp bank feat idx, .setp bank feat idx v], planOf i cfg = .error .invalidSelector := by
  have hcheck : checkPort cfg b idx = .error .invalidSelector := checkPort_error.2 ⟨h, rfl⟩
  simp only [List.forall_mem_cons, List.not_mem_nil, false_imp_iff, implies_true, and_true]
  exact ⟨ok_bind (checkBank_some hbank) (checkFeature_bind_invalidSelector fun _ => error_bind hcheck),
    ok_bind (checkBank_some hbank) (checkFeature_bind_invalidSelector fun _ => error_bind hcheck)⟩

/-- 60_exceptions.md R232 (d). -/
theorem planOf_of_route_none {cfg : Config} {idx : BitVec 8} (h : route cfg idx.toNat = none) (feat : BitVec 4)
    (v : Bool) : ∀ i ∈ [Instr.mgetp feat idx, .msetp feat idx v], planOf i cfg = .error .invalidSelector := by
  have hcheck : checkRoute cfg idx = .error .invalidSelector := checkRoute_error.2 ⟨h, rfl⟩
  simp only [List.forall_mem_cons, List.not_mem_nil, false_imp_iff, implies_true, and_true]
  exact ⟨checkFeature_bind_invalidSelector fun _ => error_bind hcheck,
    checkFeature_bind_invalidSelector fun _ => error_bind hcheck⟩

/-- Settles O20: the four cases of R232, each by the check that fails. -/
theorem outOfRangeSelectorsAreRejected : Obligations.OutOfRangeSelectorsAreRejected := by
  intro s bank feat idx word mask v hstart
  refine ⟨State.respond_log s _, fun hbank i hi => exec_rejected hstart ?_, fun hfeat i hi => exec_rejected hstart ?_,
    fun b hbank hport i hi => exec_rejected hstart ?_, fun hroute i hi => exec_rejected hstart ?_⟩
  · exact planOf_of_bankOf_none (bankOf_eq_none hbank) feat idx word mask v i hi
  · exact planOf_of_featureOf_none s.cfg bank (featureOf_eq_none hfeat) idx mask v i hi
  · exact planOf_of_ports_le hbank hport feat v i hi
  · exact planOf_of_route_none (route_eq_none hroute) feat v i hi

/-! ### Read-only features -/

/-- Settles O21: writability is checked last (R236), after the selectors, which pass. -/
theorem readOnlyFeaturesAreNotWritten : Obligations.ReadOnlyFeaturesAreNotWritten := by
  intro s bank feat idx mask v b f hstart hbank hfeat hreadOnly
  have hb := checkBank_some hbank
  have hf := checkFeature_some hfeat
  have hcheck : checkWritable s.cfg f = .error .unsupportedOperation := checkWritable_error.2 ⟨hreadOnly, rfl⟩
  refine ⟨State.respond_log s _, exec_rejected hstart ?setm, exec_rejected hstart ?msetm,
    fun hport => exec_rejected hstart ?setp, fun b' p hroute => exec_rejected hstart ?msetp⟩
  case setm => exact ok_bind hb (ok_bind hf (error_bind hcheck))
  case msetm => exact ok_bind hf (error_bind hcheck)
  case setp => exact ok_bind hb (ok_bind hf (ok_bind (checkPort_lt hport) (error_bind hcheck)))
  case msetp => exact ok_bind hf (ok_bind (checkRoute_some hroute) (error_bind hcheck))

end Sys2Proof.Machine

/-! PROOFS. The statements of 30_encoding.md about words that are commands: the encoder's words, the assembler's words
and the fields a command ignores (R111 to R113, R125 to R127), and the status codes (R122). -/

namespace Sys2Proof.Machine

/-! ### The fields of an encoded word -/

theorem featField_cmdWord (op feat : BitVec 4) (bank : BitVec 2) (idx : BitVec 8) (v : Bool) :
    featField (cmdWord op feat bank idx v) = feat := by
  apply BitVec.eq_of_getLsbD_eq
  intro j hj
  simp only [featField, cmdWord, BitVec.getLsbD_extractLsb', BitVec.getLsbD_or, BitVec.getLsbD_shiftLeft,
    BitVec.getLsbD_setWidth]
  interval_cases j <;> simp

theorem bankField_cmdWord (op feat : BitVec 4) (bank : BitVec 2) (idx : BitVec 8) (v : Bool) :
    bankField (cmdWord op feat bank idx v) = bank := by
  apply BitVec.eq_of_getLsbD_eq
  intro j hj
  simp only [bankField, cmdWord, BitVec.getLsbD_extractLsb', BitVec.getLsbD_or, BitVec.getLsbD_shiftLeft,
    BitVec.getLsbD_setWidth]
  interval_cases j <;> simp

theorem idxField_cmdWord (op feat : BitVec 4) (bank : BitVec 2) (idx : BitVec 8) (v : Bool) :
    idxField (cmdWord op feat bank idx v) = idx := by
  apply BitVec.eq_of_getLsbD_eq
  intro j hj
  simp only [idxField, cmdWord, BitVec.getLsbD_extractLsb', BitVec.getLsbD_or, BitVec.getLsbD_shiftLeft,
    BitVec.getLsbD_setWidth]
  interval_cases j <;> simp

theorem vField_cmdWord (op feat : BitVec 4) (bank : BitVec 2) (idx : BitVec 8) (v : Bool) :
    vField (cmdWord op feat bank idx v) = v := by
  simp [vField, cmdWord]

/-! ### Decoding by fields -/

/-- The command that the fields of two words name (30_encoding.md R113): what `decode` answers where the reserved bits
are clear (`decode_eq_commandOf`). -/
def commandOf (op feat : BitVec 4) (bank : BitVec 2) (idx : BitVec 8) (v : Bool) (data : Word32) :
    Except DecodeError Instr :=
  match op.toNat with
  | 0x1 => .ok (.rdw bank idx)
  | 0x2 => .ok (.wrw bank idx (data.extractLsb' 0 16))
  | 0x3 => .ok (.getm bank feat)
  | 0x4 => .ok (.setm bank feat data)
  | 0x5 => .ok (.getp bank feat idx)
  | 0x6 => .ok (.setp bank feat idx v)
  | 0x9 => .ok (.mgetm feat)
  | 0xA => .ok (.msetm feat data)
  | 0xB => .ok (.mgetp feat idx)
  | 0xC => .ok (.msetp feat idx v)
  | _ => .error .reservedOp

theorem decode_eq_commandOf {cmd : Word32} (hlow : reservedLow cmd = 0) (hhigh : reservedHigh cmd = 0) (data : Word32) :
    decode cmd data =
      commandOf (opField cmd) (featField cmd) (bankField cmd) (idxField cmd) (vField cmd) data :=
  if_neg (by simp [hlow, hhigh])

theorem decode_cmdWord (op feat : BitVec 4) (bank : BitVec 2) (idx : BitVec 8) (v : Bool) (data : Word32) :
    decode (cmdWord op feat bank idx v) data = commandOf op feat bank idx v data := by
  rw [decode_eq_commandOf (Laws.reservedLow_cmdWord op feat bank idx v) (Laws.reservedHigh_cmdWord op feat bank idx v),
    Laws.opField_cmdWord, featField_cmdWord, bankField_cmdWord, idxField_cmdWord, vField_cmdWord]

/-- Two words that are a command have clear reserved bits (30_encoding.md R114). -/
theorem reserved_clear_of_decode {cmd data : Word32} {i : Instr} (h : decode cmd data = .ok i) :
    reservedLow cmd = 0 ∧ reservedHigh cmd = 0 := by
  by_contra hbits
  rw [decode_of_reservedBits data (by tauto)] at h
  cases h

/-- `WRITE_WORD` looks at the low half of `DATA` only (30_encoding.md R113). -/
theorem decode_wrw_words (bank : BitVec 2) (sel : BitVec 8) (data : Word32) :
    decode (cmdWord 0x2 0 bank sel false) data = .ok (.wrw bank sel (data.setWidth 16)) := by
  have hlow : data.extractLsb' 0 16 = data.setWidth 16 := BitVec.eq_of_toNat_eq (by simp)
  rw [← hlow]
  exact decode_cmdWord 0x2 0 bank sel false data

/-- Settles O1: each command's words are one `cmdWord`, whose fields decode to the command. -/
theorem decodeOfEncode : Obligations.DecodeOfEncode := by
  intro i
  cases i with
  | rdw bank sel => exact decode_cmdWord 0x1 0 bank sel false 0
  | wrw bank sel word =>
    have hword : (word.setWidth 32).setWidth 16 = word := by simp
    exact (decode_wrw_words bank sel (word.setWidth 32)).trans (by rw [hword])
  | getm bank feat => exact decode_cmdWord 0x3 feat bank 0 false 0
  | setm bank feat mask => exact decode_cmdWord 0x4 feat bank 0 false mask
  | getp bank feat port => exact decode_cmdWord 0x5 feat bank port false 0
  | setp bank feat port v => exact decode_cmdWord 0x6 feat bank port v 0
  | mgetm feat => exact decode_cmdWord 0x9 feat 0 0 false 0
  | msetm feat mask => exact decode_cmdWord 0xA feat 0 0 false mask
  | mgetp feat gport => exact decode_cmdWord 0xB feat 0 gport false 0
  | msetp feat gport v => exact decode_cmdWord 0xC feat 0 gport v 0

/-- Settles O3: with the reserved bits clear both pairs decode by their fields, and the `OP` they share picks a command
that is built from the fields they agree on. -/
theorem ignoredFieldsDoNotMatter : Obligations.IgnoredFieldsDoNotMatter := by
  intro cmd cmd' data data' i h hop hlow' hhigh' hagree
  obtain ⟨hlow, hhigh⟩ := reserved_clear_of_decode h
  rw [decode_eq_commandOf hlow hhigh] at h
  rw [decode_eq_commandOf hlow' hhigh', hop]
  unfold commandOf at h ⊢
  generalize (opField cmd).toNat = op at h ⊢
  split at h <;> cases h <;> simp only [hagree]

/-! ### Assembled lines -/

/-- A line's words are those of its command, but that `wrw` keeps the ignored half of `DATA` as given (30_encoding.md
R127). -/
theorem decode_assembleLine (l : AsmLine) :
    decode (assembleLine l).1 (assembleLine l).2 = .ok (lineInstr l) := by
  cases l with
  | wrw b sel word => exact decode_wrw_words (asmBankField b) sel word
  | rdw b sel => exact decodeOfEncode (.rdw (asmBankField b) sel)
  | getm b f => exact decodeOfEncode (.getm (asmBankField b) (asmFeatureField f))
  | setm b f mask => exact decodeOfEncode (.setm (asmBankField b) (asmFeatureField f) mask)
  | getp b f p => exact decodeOfEncode (.getp (asmBankField b) (asmFeatureField f) p)
  | setp b f p v => exact decodeOfEncode (.setp (asmBankField b) (asmFeatureField f) p v)
  | mgetm f => exact decodeOfEncode (.mgetm (asmFeatureField f))
  | msetm f mask => exact decodeOfEncode (.msetm (asmFeatureField f) mask)
  | mgetp f gp => exact decodeOfEncode (.mgetp (asmFeatureField f) gp)
  | msetp f gp v => exact decodeOfEncode (.msetp (asmFeatureField f) gp v)

/-- Settles O5: the lines of an expansion are lines, and `decode_assembleLine` speaks of every line. -/
theorem assembledLinesDecode : Obligations.AssembledLinesDecode :=
  ⟨decode_assembleLine, by decide, by decide, by decide, fun b f p =>
    ⟨⟨rfl, decode_assembleLine (.setm b f 0)⟩, ⟨rfl, decode_assembleLine (.setm b f 0xFFFFFFFF)⟩,
      ⟨rfl, decode_assembleLine (.setp b f p true)⟩, ⟨rfl, decode_assembleLine (.setp b f p false)⟩, rfl⟩⟩

/-! ### Words and codes written out in the spec -/

/-- Settles O4: the five words are literals, so decoding them is computation. -/
theorem specWordsDecode : Obligations.SpecWordsDecode := by
  unfold Obligations.SpecWordsDecode
  decide

/-- Settles O13: the codes are the definition's. -/
theorem statusCodesAreTheSpecs : Obligations.StatusCodesAreTheSpecs :=
  ⟨rfl, rfl, rfl, rfl, rfl, rfl⟩

end Sys2Proof.Machine

/-! PROOFS. The statements of 10_state.md, 60_exceptions.md and 70_reset_and_hazards.md about what a step runs and what
it leaves alone: a rejection (R238), a step of a command (R30, R244), a wait for a lock (R52), and which command a step
runs (R276, R84). -/

namespace Sys2Proof.Machine

/-! ### What the end of a command leaves alone -/

/-- Ending a command gives back no lock of another caller (10_state.md R52). -/
theorem State.lock_respond_of_ne (s : State) (r : Response) (b : BankId) {c : CallerId} (hc : c ≠ s.cur) :
    (s.respond r).lock b = some c ↔ s.lock b = some c := by
  rw [(s.ended_respond r).lock b]
  split_ifs with hown
  · simp [hown, Ne.symm hc]
  · rfl

/-- Settles O22: a rejection is the end of a command with a response that holds the code alone. -/
theorem rejectionChangesOnlyTheResponse : Obligations.RejectionChangesOnlyTheResponse := fun s e =>
  ⟨s.ended_respond _, (SameOutside.refl s).respond _, samePeers_raise s e, rfl, rfl, rfl⟩

/-! ### What a step of a command leaves alone -/

/-- Settles O17: rejecting, waiting and a transaction each keep the outside, and take no lock from another caller. -/
theorem stepOfACommandLeavesTheRestAlone : Obligations.StepOfACommandLeavesTheRestAlone := by
  intro i s t h
  cases execStep h with
  | rejected e _ _ ht =>
    subst ht
    exact ⟨(SameOutside.refl s).respond _, fun b c hc => s.lock_respond_of_ne _ b hc⟩
  | waiting p _ hc _ ht =>
    subst ht
    have hwaits := waits (planShape hc)
    exact ⟨hwaits.outside, fun b c hne => hwaits.lock.others b hne⟩
  | readOk p b sel draw s2 _ _ _ _ ha _ _ ht =>
    subst ht
    exact ⟨ha.outside.proceed _, fun b c hne => ha.lock.others_proceed ha.outside.cur _ b hne⟩
  | readFail p b sel low s2 _ _ _ _ ha _ _ ht =>
    subst ht
    exact ⟨ha.outside.respond _, fun b c hne => ha.lock.others_respond ha.outside.cur _ b hne⟩
  | writeOk p b sel draw s2 _ _ _ _ ha _ _ ht =>
    subst ht
    exact ⟨ha.outside.proceed _, fun b c hne => ha.lock.others_proceed ha.outside.cur _ b hne⟩
  | writeFail p b sel low s2 _ _ _ _ ha _ _ ht =>
    subst ht
    exact ⟨ha.outside.respond _, fun b c hne => ha.lock.others_respond ha.outside.cur _ b hne⟩

theorem exec_sameOutside {i : Instr} {s t : State} (h : exec i s = .next t) : SameOutside s t :=
  (stepOfACommandLeavesTheRestAlone i s t h).1

/-- A step of the served command, legal or not, leaves the outside alone. -/
theorem Performed.sameOutside {s t : State} (h : Performed s t) : SameOutside s t := by
  cases h with
  | illegal _ _ ht => exact ht ▸ (SameOutside.refl s).respond _
  | legal _ _ ht => exact exec_sameOutside ht

/-- Settles O55: only a reconstruction makes a new state, and it keeps the configuration it finds. -/
theorem noStepChangesTheConfiguration : Obligations.NoStepChangesTheConfiguration := by
  intro s t h
  cases step_cases h with
  | idle _ ht => rw [ht]
  | command c cmd data rest _ _ _ ht => exact ht.sameOutside.cfg
  | turn c rest _ _ ht => exact ht.sameOutside.cfg
  | turnIdle c rest _ _ ht => rw [ht]
  | attach selector b rest _ _ ht => rw [ht, State.setAttached_cfg]
  | reset rest _ _ _ ht => rw [ht]; rfl
  | outside b sel wire ok rest _ _ ht => rw [ht, State.setCtrl_cfg]

/-! ### Waiting for a lock -/

/-- Who gets all locks it asks for found each FREE or its own. -/
theorem State.locksFree_of_takeLocks {s : State} {bs : List BankId} (h : (s.takeLocks bs).2 = true) :
    s.locksFree bs := by
  intro hser b hb
  rcases s.takeLocks_lock bs b with hsame | ⟨_, hfree, _⟩
  · exact .inr (hsame ▸ State.takeLocks_all hser h hb)
  · exact .inl hfree

/-- A command that does not get all its locks enters its wait (10_state.md R52). -/
theorem exec_waiting {i : Instr} {s : State} {p : Plan} (hc : planOf i s.cfg = .ok p)
    (hp : s.record.place = .start ∨ s.record.place = .lock) (hl : ¬ s.locksFree p.locks) :
    exec i s = .next ((s.takeLocks p.locks).1.setRecord (s.entered p .lock)) := by
  have hfails : (s.takeLocks p.locks).2 = false := by
    by_contra h
    exact hl (State.locksFree_of_takeLocks (by simpa using h))
  have hbegin : s.begin p = .next ((s.takeLocks p.locks).1.setRecord (s.entered p .lock)) := by
    unfold State.begin
    split
    case h_1 s1 heq => simp [heq] at hfails
    case h_2 s1 heq => rw [heq]; rfl
  rw [exec_eq_serve]
  rcases hp with hp | hp
  · simp [State.serve, hp, hc, hbegin]
  · simp [State.serve, hp, hc, hbegin]

/-- Settles O24: `exec_waiting` says what the step answers, `waits` what that leaves as it was. -/
theorem commandWaitsForItsLocks : Obligations.CommandWaitsForItsLocks := by
  intro i s p hc hp hl
  have hw := waits (planShape hc)
  obtain ⟨hphase, hcmd, hdata⟩ := (planShape hc).enter { s.record with phase := .busy }
  refine ⟨_, exec_waiting hc hp hl, hw.outside, samePeers_of_peer hw.peer, hw.log, hw.bus, hw.drawn, hw.response,
    ?_, ?_, ?_, ?_, fun b => ?_⟩
  · rw [hw.record]; rfl
  · rw [hw.record]; exact hphase
  · rw [hw.record]; exact hcmd
  · rw [hw.record]; exact hdata
  · exact (hw.lock b).imp id And.right

/-! ### The command a step runs -/

theorem perform_of_decode {s : State} {i : Instr} (h : decode s.record.cmd s.record.data = .ok i) :
    s.perform = exec i s := by
  simp [State.perform, h]

/-- A caller with a command in progress has its next step made (20_memory.md R84). -/
theorem step_turn {s : State} {c : CallerId} {rest : List Input} (hin : s.inputs = .turn c :: rest)
    (hbusy : s.busy c = true) : step s = ((s.took rest).serving c).perform := by
  have hbusy' : (s.took rest).busy c = true := hbusy
  simp [step, State.nextInput, hin, State.take, State.takeTurn, hbusy']

/-- Settles O6: the step performs the served record, whose words decode to the command. -/
theorem stepRunsTheDecodedCommand : Obligations.StepRunsTheDecodedCommand := by
  refine ⟨fun s c cmd data rest i hin hready hidle hdec => ?_, fun s c rest i hin hbusy hdec => ?_⟩
  · have hrec : decode ((s.took rest).deliver c cmd data).record.cmd ((s.took rest).deliver c cmd data).record.data =
        .ok i := by rw [State.deliver_record]; exact hdec
    exact (step_command hin hready hidle).trans (perform_of_decode hrec)
  · exact (step_turn hin hbusy).trans (perform_of_decode (s := (s.took rest).serving c) hdec)

end Sys2Proof.Machine

/-! PROOFS. The statements of 20_memory.md and 10_state.md about words and registers: the laws of the nibble swap (R77),
and what a successful transaction reads and writes (R46, R47). -/

namespace Sys2Proof.Machine

/-! ### The laws of the nibble swap -/

theorem xor_four_lt {i : Nat} (hi : i < 16) : i ^^^ 4 < 16 :=
  Nat.xor_lt_two_pow (n := 4) hi (by decide)

/-- Bit `i` goes to bit `i XOR 4` (20_memory.md R77). -/
theorem getLsbD_nswap_xor_four (w : RegWord) {i : Nat} (hi : i < 16) : (nswap w).getLsbD (i ^^^ 4) = w.getLsbD i := by
  rw [getLsbD_nswap, Nat.xor_assoc, Nat.xor_self, Nat.xor_zero, decide_eq_true (xor_four_lt hi), Bool.true_and]

/-- The bytes are exchanged as whole nibbles, so the swap inside each commutes with that. -/
theorem nswap_rotateLeft_eight (w : RegWord) : nswap (w.rotateLeft 8) = (nswap w).rotateLeft 8 := by
  apply BitVec.eq_of_getLsbD_eq
  intro i hi
  simp only [getLsbD_nswap, BitVec.getLsbD_rotateLeft]
  interval_cases i <;> simp

theorem nswap_and (a b : RegWord) : nswap (a &&& b) = nswap a &&& nswap b := by
  apply BitVec.eq_of_getLsbD_eq
  intro i hi
  simp only [getLsbD_nswap, BitVec.getLsbD_and, hi, decide_true, Bool.true_and]

theorem nswap_or (a b : RegWord) : nswap (a ||| b) = nswap a ||| nswap b := by
  apply BitVec.eq_of_getLsbD_eq
  intro i hi
  simp only [getLsbD_nswap, BitVec.getLsbD_or, hi, decide_true, Bool.true_and]

theorem nswap_xor (a b : RegWord) : nswap (a ^^^ b) = nswap a ^^^ nswap b := by
  apply BitVec.eq_of_getLsbD_eq
  intro i hi
  simp only [getLsbD_nswap, BitVec.getLsbD_xor, hi, decide_true, Bool.true_and]

theorem nswap_not (a : RegWord) : nswap (~~~ a) = ~~~ nswap a := by
  apply BitVec.eq_of_getLsbD_eq
  intro i hi
  simp only [getLsbD_nswap, BitVec.getLsbD_not, hi, xor_four_lt hi, decide_true, Bool.true_and]

/-- Settles O8, one lemma per law. -/
theorem nibbleSwapLaws : Obligations.NibbleSwapLaws :=
  ⟨nswap_nswap, by decide, by decide, fun w _ hi => getLsbD_nswap_xor_four w hi, nswap_rotateLeft_eight,
    fun a b => ⟨nswap_and a b, nswap_or a b, nswap_xor a b, nswap_not a⟩⟩

/-! ### Successful transactions -/

/-- The logical word read, bit by bit (10_state.md R46, R47). -/
theorem getLsbD_logicalWord (s : State) (b : BankId) (sel : Selector) (draw : RegWord) (j : Nat) :
    (s.logicalWord b sel draw).getLsbD j =
      if (s.ctrl b sel).known.getLsbD j ∧ (s.cfg.ctrlMask b sel).getLsbD j then (s.ctrl b sel).value.getLsbD j
      else (transform s.cfg draw).getLsbD j := by
  rw [State.logicalWord, State.wireWord, transform_transform]
  by_cases hj : j < 16
  · by_cases hknown : (s.ctrl b sel).known.getLsbD j = true ∧ (s.cfg.ctrlMask b sel).getLsbD j = true
    · simp [State.knownBits, hknown]
    · have hdrawn : (s.knownBits b sel).getLsbD j = false := by
        rw [State.knownBits, BitVec.getLsbD_and, Bool.and_eq_false_iff]
        simpa [imp_iff_not_or] using hknown
      rw [if_neg hknown]
      simp only [BitVec.getLsbD_or, BitVec.getLsbD_and, BitVec.getLsbD_not, hdrawn, hj, decide_true, Bool.not_false,
        Bool.and_true, Bool.and_false, Bool.or_false]
  · simp [BitVec.getLsbD_of_ge _ j (Nat.le_of_not_lt hj)]

/-- A successful read changes no `CTRL` (10_state.md R47). -/
theorem samePeers_memRead_ok {s : State} {draw : RegWord} (h : s.reply = .ok draw) (b : BankId) (sel : Selector) :
    SamePeers s (s.memRead b sel).2 := by
  intro b' sel'
  simp only [State.memRead_ok h, State.ctrl_logged, State.ctrl_drawReply]

/-- Settles O14: the wire word's logical form is the logical word, read bit by bit. -/
theorem readReturnsKnownControlBits : Obligations.ReadReturnsKnownControlBits := fun s b sel draw h =>
  ⟨s.wireWord b sel draw, congrArg Prod.fst (State.memRead_ok h b sel), samePeers_memRead_ok h b sel,
    getLsbD_logicalWord s b sel draw⟩

/-- A successful write leaves every other register as it was (20_memory.md R87). -/
theorem samePeersBut_memWrite_ok {s : State} {draw : RegWord} (h : s.reply = .ok draw) (b : BankId) (sel : Selector)
    (v : RegWord) : SamePeersBut b sel s (s.memWrite b sel v).2 := by
  intro b' sel' hne
  simp only [State.memWrite_ok h, State.ctrl_logged]
  rw [State.ctrl_setCtrl_of_ne _ _ hne, State.ctrl_drawReply]

/-- A successful write gives its register the control bits of the word (10_state.md R46). -/
theorem ctrl_memWrite_ok_self {s : State} {draw : RegWord} (h : s.reply = .ok draw) {b : BankId}
    (hb : (s.peer b).wf) (sel : Selector) (v : RegWord) :
    (s.memWrite b sel v).2.ctrl b sel = written s.cfg b sel v := by
  simp only [State.memWrite_ok h, State.ctrl_logged]
  exact State.ctrl_setCtrl_self _ (by simpa using hb) sel _

/-- Settles O15, one lemma per part; what is `written` has the control bits as its known bits. -/
theorem writeSetsControlBits : Obligations.WriteSetsControlBits := by
  intro s b sel v draw hm h
  refine ⟨congrArg Prod.fst (State.memWrite_ok h b sel v), samePeersBut_memWrite_ok h b sel v, fun j => ?_⟩
  rw [ctrl_memWrite_ok_self h (hm.canonical b)]
  exact ⟨rfl, fun hctrl => by rw [written, BitVec.getLsbD_and, hctrl, Bool.and_true]⟩

end Sys2Proof.Machine

/-! PROOFS. The statements of 00_scope.md, 41_transcode.md and 42_bank_mux.md about layout and routing: the variants'
descriptors (R35 to R37), `LOCATE` (R181), `ROUTE` (R202), and the MUX commands as bank-level commands (R215, R225). -/

namespace Sys2Proof.Machine

/-! ### Descriptors -/

/-- Settles O54: a bank has its number of entries, four ports each. -/
theorem descriptorsAreTheVariants : Obligations.DescriptorsAreTheVariants := by
  intro cfg b hwf hb
  obtain ⟨hnreg, hA, hB⟩ := Config.wf_nreg hwf hb
  have hports := Config.wf_ports hwf b
  refine ⟨hnreg, fun hv => ?_, fun hv => ?_, fun k e he => Config.wf_entry hwf he⟩
  · have := hA hv
    omega
  · have := hB hv
    omega

/-- Settles O10: `LOCATE` answers an entry that holds the port; contiguous entries do not overlap, and an entry of four
ports from `4 * k` on makes ordinal and slot the quotient and the remainder. -/
theorem locateFindsTheOnlySlot : Obligations.LocateFindsTheOnlySlot := by
  intro cfg b p hwf hb hp
  obtain ⟨k, e, hlocate, he, hlo, hhi⟩ := Config.locate_some hwf hb hp
  obtain ⟨-, hcontiguous, -, -⟩ := Config.wf_descriptor hwf hb
  obtain ⟨hstart, hcount⟩ := Config.wf_entry hwf he
  refine ⟨k, e, hlocate, he, hlo, hhi, fun k' e' he' hlo' hhi' => ?_, by omega, by omega⟩
  exact contiguousFrom_unique hcontiguous he' he hlo' hhi' hlo hhi

/-! ### Routing -/

theorem holdsPort_iff {cfg : Config} {gp : Nat} {b : BankId} :
    holdsPort cfg gp b = true ↔ b.base ≤ gp ∧ gp < b.base + cfg.ports b := by
  simp [holdsPort]

/-- The global ranges of two banks do not meet (10_state.md R42). -/
theorem eq_of_holdsPort {cfg : Config} (hwf : cfg.wf = true) {gp : Nat} {b b' : BankId} (hb : b ∈ cfg.banks)
    (hb' : b' ∈ cfg.banks) (h : holdsPort cfg gp b = true) (h' : holdsPort cfg gp b' = true) : b = b' := by
  have hports := (Config.wf_descriptor hwf hb).2.2.2
  have hports' := (Config.wf_descriptor hwf hb').2.2.2
  rw [holdsPort_iff] at h h'
  match b, b' with
  | .one, .one | .two, .two => rfl
  | .one, .two | .two, .one =>
    simp only [BankId.base] at h h'
    omega

/-- A bank that holds a global port is the one `ROUTE` finds (42_bank_mux.md R202). -/
theorem route_of_holdsPort {cfg : Config} (hwf : cfg.wf = true) {gp : Nat} {b : BankId} (hb : b ∈ cfg.banks)
    (h : holdsPort cfg gp b = true) : route cfg gp = some (b, gp - b.base) := by
  rw [route]
  cases hfind : cfg.banks.find? (holdsPort cfg gp) with
  | none => exact absurd h (List.find?_eq_none.1 hfind b hb)
  | some b' =>
    rw [eq_of_holdsPort hwf (List.mem_of_find?_eq_some hfind) hb (List.find?_some hfind) h]
    rfl

theorem route_eq_some_iff {cfg : Config} (hwf : cfg.wf = true) {gp p : Nat} {b : BankId} :
    route cfg gp = some (b, p) ↔ b ∈ cfg.banks ∧ b.base ≤ gp ∧ gp < b.base + cfg.ports b ∧ p = gp - b.base := by
  refine ⟨route_eq_some, ?_⟩
  rintro ⟨hb, hlo, hhi, rfl⟩
  exact route_of_holdsPort hwf hb (holdsPort_iff.2 ⟨hlo, hhi⟩)

/-- Two 16-port banks: 32 global ports. -/
theorem route_of_sixteen {cfg : Config} (hwf : cfg.wf = true) (hA : cfg.variant = .A) (h1 : cfg.ports .one = 16)
    (h2 : cfg.ports .two = 16) (gp : Nat) :
    route cfg gp = if gp < 16 then some (.one, gp) else if gp < 32 then some (.two, gp - 16) else none := by
  have hone : BankId.one ∈ cfg.banks := by simp [Config.banks, hA]
  have htwo : BankId.two ∈ cfg.banks := by simp [Config.banks, hA]
  split_ifs with hlow hmid
  · exact route_of_holdsPort hwf hone (holdsPort_iff.2 ⟨Nat.zero_le gp, by simp only [BankId.base]; omega⟩)
  · exact route_of_holdsPort hwf htwo (holdsPort_iff.2 (by simp only [BankId.base]; omega))
  · refine route_eq_none fun b _ => ?_
    cases b <;> simp only [BankId.base] <;> omega

/-- Settles O11: the two lemmas above. -/
theorem routeFindsTheHoldingBank : Obligations.RouteFindsTheHoldingBank := fun _ gp hwf =>
  ⟨fun _ _ => route_eq_some_iff hwf, fun hA h1 h2 => route_of_sixteen hwf hA h1 h2 gp⟩

/-! ### The multiplexer -/

/-- A command's meaning depends on its checks and its plan alone. -/
theorem exec_congr {i i' : Instr} {s : State} (h : planOf i s.cfg = planOf i' s.cfg) : exec i s = exec i' s := by
  rw [exec_eq_serve, exec_eq_serve, State.serve, State.serve, h]

/-- Settles O42: with the bank and the port in range, the checks of both commands are those of the feature, and for the
write of writability; the plan is the same. -/
theorem muxPortIsTheRoutedPort : Obligations.MuxPortIsTheRoutedPort := by
  intro s feat gport port v b h
  obtain ⟨hb, hlo, hhi, hp⟩ := route_eq_some h
  have hbank := checkBank_some (bankOf_number hb)
  have hport := checkPort_lt (show port.toNat < s.cfg.ports b by omega)
  have hroute := checkRoute_some h
  refine ⟨exec_congr (ok_bind hbank (bind_congr fun f => ?_)).symm,
    exec_congr (ok_bind hbank (bind_congr fun f => ?_)).symm⟩
  · rw [ok_bind hport rfl, ok_bind hroute rfl]
  · rw [ok_bind hport rfl, ok_bind hroute rfl]

/-- Plans that make the same transactions: they may differ in what they would do after a transaction they have no
register for. -/
structure Plan.Agrees (p p' : Plan) : Prop where
  locks      : p'.locks = p.locks
  first      : p'.first = p.first
  enter      : p'.enter = p.enter
  target     : p'.target = p.target
  afterRead  : ∀ r w, (p.target r).isSome → p'.afterRead r w = p.afterRead r w
  afterWrite : ∀ r, (p.target r).isSome → p'.afterWrite r = p.afterWrite r

theorem State.transact_agrees {p p' : Plan} (h : p.Agrees p') (s : State) : s.transact p' = s.transact p := by
  unfold State.transact
  rw [h.target]
  cases htarget : p.target s.record with
  | none => rfl
  | some bs =>
    have hsome : (p.target s.record).isSome := by rw [htarget]; rfl
    have hread : s.readStep p' bs.1 bs.2 = s.readStep p bs.1 bs.2 := by
      simp only [State.readStep, h.afterRead _ _ hsome]
    have hwrite : s.writeStep p' bs.1 bs.2 = s.writeStep p bs.1 bs.2 := by
      simp only [State.writeStep, h.afterWrite _ hsome]
    cases s.record.place with
    | start | lock => rfl
    | read => exact congrArg _ hread
    | write => exact congrArg _ hwrite

theorem State.begin_agrees {p p' : Plan} (h : p.Agrees p') (s : State) : s.begin p' = s.begin p := by
  simp only [State.begin, h.locks, h.enter, h.first, State.transact_agrees h]

/-- Commands whose checks pass with plans that agree have one meaning. -/
theorem exec_agrees {i i' : Instr} {s : State} {p p' : Plan} (hc : planOf i s.cfg = .ok p)
    (hc' : planOf i' s.cfg = .ok p') (h : p.Agrees p') : exec i' s = exec i s := by
  rw [exec_eq_serve, exec_eq_serve]
  cases hplace : s.record.place <;>
    simp only [State.serve, hplace, hc, hc', State.begin_agrees h, State.transact_agrees h]

/-- A transaction of a command that visits bank 1 alone is on bank 1. -/
theorem bank_one_of_target {cfg : Config} {r : InFlight} (h : (currentRegister cfg [.one] r).isSome) : r.b = .one :=
  List.mem_singleton.1 (currentRegister_bounds h).1

/-- Bank 1's mask stands at port 0, so over bank 1 alone `BASE` shifts nothing (10_state.md R42). -/
theorem readMask_one_agrees (cfg : Config) (f : Feature) :
    (readMask cfg f [.one] fun _ => 0).Agrees (readMask cfg f [.one] BankId.base) where
  locks := rfl
  first := rfl
  enter := rfl
  target := rfl
  afterRead r w h := by
    have hb : r.b = .one := by
      simp only [readMask] at h
      split_ifs at h
      · exact bank_one_of_target h
      · cases h
    simp only [readMask, hb, BankId.base]
  afterWrite _ _ := rfl

theorem writeMask_one_agrees (cfg : Config) (f : Feature) (mask : Word32) :
    (writeMask cfg f [.one] (fun _ => 0) mask).Agrees (writeMask cfg f [.one] BankId.base mask) where
  locks := rfl
  first := rfl
  enter := rfl
  target := rfl
  afterRead _ _ _ := rfl
  afterWrite _ _ := rfl

theorem banks_of_variantB {cfg : Config} (h : cfg.variant = .B) : cfg.banks = [.one] := by
  simp [Config.banks, h]

theorem bankOf_one {cfg : Config} (h : cfg.variant = .B) : bankOf cfg 1 = some .one :=
  bankOf_number (b := .one) (by simp [banks_of_variantB h])

theorem exec_mgetm_of_variantB {s : State} (h : s.cfg.variant = .B) (feat : BitVec 4) :
    exec (.mgetm feat) s = exec (.getm 1 feat) s := by
  cases hf : featureOf feat with
  | none =>
    have hplan := planOf_of_featureOf_none s.cfg 1 hf 0 0 false
    exact exec_congr ((hplan _ (by simp)).trans (hplan _ (by simp)).symm)
  | some f =>
    have hmux : ReadsMask s.cfg f [.one] BankId.base (.mgetm feat) := ⟨hf, (banks_of_variantB h).symm, rfl⟩
    have hbank : ReadsMask s.cfg f [.one] (fun _ => 0) (.getm 1 feat) := ⟨.one, bankOf_one h, hf, rfl, rfl⟩
    exact exec_agrees hbank.plan hmux.plan (readMask_one_agrees s.cfg f)

theorem exec_msetm_of_variantB {s : State} (h : s.cfg.variant = .B) (feat : BitVec 4) (mask : Word32) :
    exec (.msetm feat mask) s = exec (.setm 1 feat mask) s := by
  cases hf : featureOf feat with
  | none =>
    have hplan := planOf_of_featureOf_none s.cfg 1 hf 0 mask false
    exact exec_congr ((hplan _ (by simp)).trans (hplan _ (by simp)).symm)
  | some f =>
    cases hw : (s.cfg.info f).writable with
    | false =>
      have hcheck : checkWritable s.cfg f = .error .unsupportedOperation := checkWritable_error.2 ⟨hw, rfl⟩
      have hmux : planOf (.msetm feat mask) s.cfg = .error .unsupportedOperation :=
        ok_bind (checkFeature_some hf) (error_bind hcheck)
      have hbank : planOf (.setm 1 feat mask) s.cfg = .error .unsupportedOperation :=
        ok_bind (checkBank_some (bankOf_one h)) (ok_bind (checkFeature_some hf) (error_bind hcheck))
      exact exec_congr (hmux.trans hbank.symm)
    | true =>
      have hmux : WritesMask s.cfg f [.one] BankId.base mask (.msetm feat mask) :=
        ⟨hf, hw, rfl, (banks_of_variantB h).symm, rfl⟩
      have hbank : WritesMask s.cfg f [.one] (fun _ => 0) mask (.setm 1 feat mask) :=
        ⟨.one, bankOf_one h, hf, hw, rfl, rfl, rfl⟩
      exact exec_agrees hbank.plan hmux.plan (writeMask_one_agrees s.cfg f mask)

/-- In variant B the global ports are bank 1's local ports. -/
theorem route_of_variantB {cfg : Config} (h : cfg.variant = .B) (gp : Nat) :
    route cfg gp = if gp < cfg.ports .one then some (.one, gp) else none := by
  split_ifs with hgp <;> simp [route, banks_of_variantB h, holdsPort, BankId.base, hgp]

theorem exec_port_of_variantB {s : State} (h : s.cfg.variant = .B) (feat : BitVec 4) (gport : BitVec 8) (v : Bool) :
    exec (.mgetp feat gport) s = exec (.getp 1 feat gport) s
      ∧ exec (.msetp feat gport v) s = exec (.setp 1 feat gport v) s := by
  have hroute := route_of_variantB h gport.toNat
  split_ifs at hroute with hport
  · exact muxPortIsTheRoutedPort s feat gport gport v .one hroute
  · have hmux := planOf_of_route_none hroute feat v
    have hbank := planOf_of_ports_le (bankOf_one h) (Nat.le_of_not_lt hport) feat v
    exact ⟨exec_congr ((hmux _ (by simp)).trans (hbank _ (by simp)).symm),
      exec_congr ((hmux _ (by simp)).trans (hbank _ (by simp)).symm)⟩

/-- Settles O41: the mask commands visit bank 1 alone, whose base is 0; the port commands route to bank 1, which in a
well-formed configuration has four ports. -/
theorem variantBMuxIsBankOne : Obligations.VariantBMuxIsBankOne := by
  intro s feat gport mask v h
  obtain ⟨hget, hset⟩ := exec_port_of_variantB h feat gport v
  refine ⟨exec_mgetm_of_variantB h feat, exec_msetm_of_variantB h feat mask, hget, hset, fun hwf hstart hport => ?_⟩
  obtain ⟨-, -, hB, -⟩ := descriptorsAreTheVariants s.cfg .one hwf (by simp [banks_of_variantB h])
  have hports := (hB h).2
  have hroute : route s.cfg gport.toNat = none := by rw [route_of_variantB h, if_neg (by omega)]
  have hplan := planOf_of_route_none hroute feat v
  exact ⟨exec_rejected hstart (hplan _ (by simp)), exec_rejected hstart (hplan _ (by simp))⟩

end Sys2Proof.Machine

/-! PROOFS. The invariants of a run: the machine just after construction meets them (10_state.md R53), and every step
keeps them (10_state.md R45, R46, R49, R52; 30_encoding.md R121). -/

namespace Sys2Proof.Machine

/-! ### The machine just after construction -/

theorem State.constructed_lock (cfg : Config) (b : BankId) : (State.constructed cfg).lock b = none := by
  cases b <;> rfl

theorem State.constructed_ctrl (cfg : Config) (b : BankId) (sel : Selector) :
    (State.constructed cfg).ctrl b sel = CtrlWord.unknown := by
  cases b <;> rfl

theorem runInv_constructed {cfg : Config} (h : cfg.wf = true) : RunInv (State.constructed cfg) where
  cfg := h
  callers := ⟨.nil, fun _ he => by cases he⟩
  records _ := .idle rfl
  holders b c hlock := by rw [State.constructed_lock] at hlock; cases hlock
  held _ b c hrun _ := by rcases hrun with hplace | hplace <;> cases hplace

theorem memoryOk_constructed (cfg : Config) : MemoryOk (State.constructed cfg) where
  canonical := State.constructed_peer_wf cfg
  control b sel := by rw [State.constructed_ctrl]; exact BitVec.zero_and

theorem responsesOk_constructed (cfg : Config) : ResponsesOk (State.constructed cfg) := by
  intro c r h
  cases h

/-- Settles O43, one lemma per invariant; `REFCFG` passes the checks by computation. -/
theorem constructionMeetsTheInvariants : Obligations.ConstructionMeetsTheInvariants :=
  ⟨fun cfg hwf => ⟨runInv_constructed hwf, memoryOk_constructed cfg, responsesOk_constructed cfg, rfl, fun _ => rfl,
      State.constructed_lock cfg, State.constructed_ctrl cfg, fun _ => rfl⟩,
    rfl, runInv_constructed (by decide), memoryOk_constructed _, responsesOk_constructed _⟩

/-! ### Register files -/

theorem memoryOk_performed {s t : State} (hm : MemoryOk s) (h : Performed s t) : MemoryOk t := by
  cases h with
  | illegal _ _ ht => exact memoryOk_same hm (by rw [ht]; rfl) fun b => by rw [ht]; exact State.peer_respond s _ b
  | legal _ _ ht => exact memoryOk_exec hm ht

/-- A write from outside the block leaves control bits only, or nothing (10_state.md R46, R48). -/
theorem memoryOk_outsideWrite {s : State} (hm : MemoryOk s) (b : BankId) (sel : Selector) (wire : RegWord) (ok : Bool) :
    MemoryOk (s.setCtrl b sel (if ok then written s.cfg b sel wire else CtrlWord.unknown)) := by
  have hwrote := wrote_setCtrl (s := s) (s1 := s) (fun _ => rfl) b sel
  cases ok with
  | true => exact memoryOk_written hm (State.setCtrl_cfg ..) (hwrote _)
  | false =>
    exact memoryOk_wrote hm (State.setCtrl_cfg ..) (hwrote _) (by simp [CtrlWord.unknown]) (by simp [CtrlWord.unknown])

/-- Settles O46: of the seven kinds of step, only a command and an outside write reach a register file. -/
theorem stepKeepsMemoryOk : Obligations.StepKeepsMemoryOk := by
  intro s t hm h
  cases step_cases h with
  | idle _ ht => exact ht ▸ hm
  | command c cmd data rest _ _ _ ht =>
    have hdelivered : MemoryOk ((s.took rest).deliver c cmd data) :=
      memoryOk_same hm rfl (State.deliver_peer (s.took rest) c cmd data)
    exact memoryOk_performed hdelivered ht
  | turn c rest _ _ ht => exact memoryOk_performed (memoryOk_same (t := (s.took rest).serving c) hm rfl fun _ => rfl) ht
  | turnIdle c rest _ _ ht => exact ht ▸ memoryOk_same hm rfl fun _ => rfl
  | attach selector b rest _ _ ht =>
    exact ht ▸ memoryOk_same hm (State.setAttached_cfg ..) fun b' => State.peer_setAttached (s.took rest) b b'
  | reset rest _ _ _ ht => exact ht ▸ memoryOk_same (memoryOk_constructed s.cfg) rfl fun _ => rfl
  | outside b sel wire ok rest _ _ ht =>
    have htook : MemoryOk (s.took rest) := memoryOk_same hm rfl fun _ => rfl
    exact ht ▸ memoryOk_outsideWrite htook b sel wire ok

/-! ### Responses -/

theorem shaped_done (x : Word32) : (Response.done x).shaped = true := rfl

theorem shaped_transport (cfg : Config) (b : BankId) (sel : Selector) (low : BitVec 31) :
    (Response.transport cfg b sel (negativeStatus low)).shaped = true := by
  simp [Response.shaped, Response.transport, negativeStatus_msb]

/-! ### What a step leaves of the served caller -/

/-- How a step of command `i` leaves the served caller: answered, waiting for a lock, or about to make its next
transaction. -/
inductive Served (i : Instr) (s t : State) : Prop
  | ended (r : Response) (hended : Ended s t r) (hshaped : r.shaped = true)
  | waits (p : Plan) (hc : planOf i s.cfg = .ok p) (hser : s.cfg.serialize = true)
      (hwaits : Waits s t p (s.entered p .lock))
  | goes (p : Plan) (r : InFlight) (hc : planOf i s.cfg = .ok p) (hgoes : GoesOn s.cfg p (s.dueRecord p) r)
      (hrecord : t.record = r) (hresponse : t.response = s.response) (hlock : LocksTaken s t p) (hheld : HeldAfter s t p)

theorem State.record_setRecord_ne (s : State) {r : InFlight} (h : r ≠ InFlight.idle) : (s.setRecord r).record = r :=
  congrArg Caller.inFlight (s.caller_setRecord_ne h)

/-- A record that makes transactions is not the idle one. -/
theorem GoesOn.ne_idle {cfg : Config} {p : Plan} {r r' : InFlight} (h : GoesOn cfg p r r') : r' ≠ InFlight.idle :=
  InFlight.ne_idle_of_place fun hstart => by rcases h.active with hplace | hplace <;> simp [hplace] at hstart

/-- A command goes on or ends after a transaction that succeeded. -/
theorem After.served {i : Instr} {s s2 : State} {p : Plan} {x : Transaction} {q : Progress}
    (hc : planOf i s.cfg = .ok p) (ha : After s s2 p x) (hheld : HeldAfter s s2 p)
    (hgo : ∀ r, q = .go r → GoesOn s.cfg p (s.dueRecord p) r) : Served i s (s2.proceed q) := by
  cases q with
  | go r =>
    have hgoes := hgo r rfl
    refine .goes p r hc hgoes (s2.record_setRecord_ne hgoes.ne_idle)
      ((s2.response_setRecord_ne hgoes.ne_idle).trans ha.response) (fun b => ?_) fun hser hplace b hb => ?_
    · rw [State.proceed, State.lock_setRecord]; exact ha.lock b
    · rw [State.proceed, State.lock_setRecord]; exact hheld hser hplace b hb
  | done w => exact .ended _ (ha.ended _).1 (shaped_done w)

theorem exec_served {i : Instr} {s t : State} (h : exec i s = .next t) : Served i s t := by
  cases execStep h with
  | rejected e _ hc ht =>
    refine ht ▸ .ended _ (s.ended_respond _) ?_
    rcases planOf_error hc with rfl | rfl <;> rfl
  | waiting p _ hc hl ht => exact ht ▸ .waits p hc (State.takeLocks_serialize hl) (waits (planShape hc))
  | readOk p b sel draw s2 hc htarget hp _ ha hh _ ht =>
    exact ht ▸ ha.served hc hh fun r hr => (planShape hc).afterRead (by rw [htarget]; rfl) hp hr
  | readFail p b sel low s2 _ _ _ _ ha _ _ ht => exact ht ▸ .ended _ (ha.ended _).1 (shaped_transport ..)
  | writeOk p b sel draw s2 hc htarget _ _ ha hh _ ht =>
    exact ht ▸ ha.served hc hh fun r hr => (planShape hc).afterWrite (by rw [htarget]; rfl) hr
  | writeFail p b sel low s2 _ _ _ _ ha _ _ ht => exact ht ▸ .ended _ (ha.ended _).1 (shaped_transport ..)

/-- The callers' table stays canonical. -/
theorem exec_callersKept {i : Instr} {s t : State} (h : exec i s = .next t) : CallersKept s t := by
  cases execStep h with
  | rejected _ _ _ ht => exact ht ▸ (CallersKept.refl s).respond _
  | waiting p _ hc _ ht => exact ht ▸ (waits (planShape hc)).kept
  | readOk p b sel draw s2 _ _ _ _ ha _ _ ht => exact ht ▸ ha.kept.proceed _
  | readFail p b sel low s2 _ _ _ _ ha _ _ ht => exact ht ▸ ha.kept.respond _
  | writeOk p b sel draw s2 _ _ _ _ ha _ _ ht => exact ht ▸ ha.kept.proceed _
  | writeFail p b sel low s2 _ _ _ _ ha _ _ ht => exact ht ▸ ha.kept.respond _

/-! ### Shaped responses -/

theorem response_performed {s t : State} (h : Performed s t) :
    t.response = s.response ∨ ∃ r, t.response = some r ∧ r.shaped = true := by
  cases h with
  | illegal _ _ ht => exact .inr ⟨Response.rejected .invalidCommand, by rw [ht]; exact State.response_respond s _, rfl⟩
  | legal i _ ht =>
    cases exec_served ht with
    | ended r hended hshaped => exact .inr ⟨r, hended.response, hshaped⟩
    | waits p _ _ hwaits => exact .inl hwaits.response
    | goes p r _ _ _ hresponse _ _ => exact .inl hresponse

theorem responsesOk_performed {s t : State} (hs : ResponsesOk s) (h : Performed s t) : ResponsesOk t := by
  intro c r hr
  have houtside := h.sameOutside
  by_cases hc : c = s.cur
  · subst hc
    replace hr : t.response = some r := by rw [State.response, houtside.cur]; exact hr
    rcases response_performed h with hsame | ⟨r', hr', hshaped⟩
    · exact hs s.cur r (hsame.symm.trans hr)
    · rw [hr'] at hr
      cases hr
      exact hshaped
  · rw [houtside.callers c hc] at hr
    exact hs c r hr

/-- A delivered command leaves its caller the last response (10_state.md R50). -/
theorem responsesOk_deliver {s : State} (hs : ResponsesOk s) (c : CallerId) (cmd data : Word32) :
    ResponsesOk (s.deliver c cmd data) := by
  intro c' r hr
  by_cases hc : c' = c
  · subst hc
    exact hs c' r ((State.deliver_response s c' cmd data) ▸ hr)
  · rw [State.deliver_caller_of_ne s cmd data hc] at hr
    exact hs c' r hr

/-- Settles O47: only a command's step gives a response, and `Served` says that it is shaped. -/
theorem stepKeepsResponsesShaped : Obligations.StepKeepsResponsesShaped := by
  intro s t hs h
  cases step_cases h with
  | idle _ ht => exact ht ▸ hs
  | command c cmd data rest _ _ _ ht =>
    have htook : ResponsesOk (s.took rest) := hs
    exact responsesOk_performed (responsesOk_deliver htook c cmd data) ht
  | turn c rest _ _ ht =>
    have hserving : ResponsesOk ((s.took rest).serving c) := hs
    exact responsesOk_performed hserving ht
  | turnIdle c rest _ _ ht => exact ht ▸ hs
  | attach selector b rest _ _ ht =>
    subst ht
    intro c r hr
    rw [State.caller_setAttached] at hr
    exact hs c r hr
  | reset rest _ _ _ ht =>
    subst ht
    intro c r hr
    cases hr
  | outside b sel wire ok rest _ _ ht =>
    subst ht
    intro c r hr
    rw [State.caller_setCtrl] at hr
    exact hs c r hr

/-! ### Records and locks -/

theorem needs_congr {s t : State} (hcfg : t.cfg = s.cfg) {c : CallerId} (hc : t.caller c = s.caller c) {b : BankId} :
    Needs t c b ↔ Needs s c b := by
  rw [Needs, Needs, State.busy, State.busy, hc, hcfg]

theorem running_congr {s t : State} {c : CallerId} (hc : t.caller c = s.caller c) : Running t c ↔ Running s c := by
  rw [Running, Running, hc]

/-- The locks the served caller's command takes. -/
theorem needs_cur_iff {s : State} {i : Instr} {p : Plan} (hbusy : s.record.phase = .busy)
    (hdec : decode s.record.cmd s.record.data = .ok i) (hc : planOf i s.cfg = .ok p) {b : BankId} :
    Needs s s.cur b ↔ b ∈ p.locks := by
  constructor
  · rintro ⟨i', p', -, hdec', hc', hb⟩
    obtain rfl : i = i' := Except.ok.inj (hdec.symm.trans hdec')
    obtain rfl : p = p' := Except.ok.inj (hc.symm.trans hc')
    exact hb
  · exact fun hb => ⟨i, p, beq_iff_eq.2 hbusy, hdec, hc, hb⟩

/-- The invariant as a step of the served caller finds it: that caller is BUSY, and its command may have just been
delivered. -/
structure Serving (s : State) : Prop where
  cfg     : s.cfg.wf = true
  callers : tableWf Caller.fresh s.callers
  others  : ∀ c, c ≠ s.cur → RecordOk s.cfg (s.caller c).inFlight
  busy    : s.record.phase = .busy
  place   : s.record.place = .start ∨ RecordOk s.cfg s.record
  holders : ∀ b c, s.lock b = some c → s.cfg.serialize = true ∧ Needs s c b
  held    : s.cfg.serialize = true → ∀ b c, Running s c → Needs s c b → s.lock b = some c

theorem RunInv.serving {s : State} (h : RunInv s) (rest : List Input) {c : CallerId} (hbusy : s.busy c = true) :
    Serving ((s.took rest).serving c) where
  cfg := h.cfg
  callers := h.callers
  others c' _ := h.records c'
  busy := beq_iff_eq.1 hbusy
  place := .inr (h.records c)
  holders := h.holders
  held := h.held

/-- A caller with nothing in progress holds no lock. -/
theorem RunInv.lock_ne {s : State} (h : RunInv s) {c : CallerId} (hidle : s.busy c = false) (b : BankId) :
    s.lock b ≠ some c := by
  intro hlock
  obtain ⟨-, i, p, hbusy, -⟩ := h.holders b c hlock
  rw [hidle] at hbusy
  cases hbusy

theorem RunInv.deliver {s : State} (h : RunInv s) {c : CallerId} (hidle : s.busy c = false) (rest : List Input)
    (cmd data : Word32) : Serving ((s.took rest).deliver c cmd data) where
  cfg := h.cfg
  callers := State.deliver_kept (s.took rest) c cmd data h.callers
  others c' hc := by
    rw [State.deliver_caller_of_ne (s.took rest) (c := c) cmd data hc]
    exact h.records c'
  busy := by rw [State.deliver_record]; rfl
  place := .inl (by rw [State.deliver_record]; rfl)
  holders b c' hlock := by
    rw [State.deliver_lock] at hlock
    have hne : c' ≠ c := fun heq => h.lock_ne hidle b (heq ▸ hlock)
    have hcfg : ((s.took rest).deliver c cmd data).cfg = s.cfg := rfl
    have hcaller : ((s.took rest).deliver c cmd data).caller c' = s.caller c' :=
      State.deliver_caller_of_ne (s.took rest) cmd data hne
    obtain ⟨hser, hneeds⟩ := h.holders b c' hlock
    exact ⟨hser, (needs_congr hcfg hcaller).2 hneeds⟩
  held hser b c' hrun hneeds := by
    rw [State.deliver_lock]
    have hne : c' ≠ c := by
      rintro rfl
      have hstart : ((s.took rest).deliver c' cmd data).record.place = .start := by rw [State.deliver_record]; rfl
      rcases hrun with hplace | hplace <;> rw [State.record, State.deliver_cur, hplace] at hstart <;> cases hstart
    have hcfg : ((s.took rest).deliver c cmd data).cfg = s.cfg := rfl
    have hcaller : ((s.took rest).deliver c cmd data).caller c' = s.caller c' :=
      State.deliver_caller_of_ne (s.took rest) cmd data hne
    exact h.held hser b c' ((running_congr hcaller).1 hrun) ((needs_congr hcfg hcaller).1 hneeds)

/-- The end of a command leaves an idle record that holds no lock. -/
theorem Serving.ended {s t : State} {r : Response} (h : Serving s) (houtside : SameOutside s t)
    (hkept : CallersKept s t) (hended : Ended s t r) : RunInv t where
  cfg := houtside.cfg ▸ h.cfg
  callers := hkept h.callers
  records c := by
    by_cases hc : c = s.cur
    · exact .idle (by rw [hc, ← houtside.cur]; exact hended.record)
    · rw [houtside.callers c hc, houtside.cfg]
      exact h.others c hc
  holders b c hlock := by
    rw [hended.lock b] at hlock
    split_ifs at hlock with hown
    have hc : c ≠ s.cur := fun heq => hown (heq ▸ hlock)
    obtain ⟨hser, hneeds⟩ := h.holders b c hlock
    exact ⟨houtside.cfg ▸ hser, (needs_congr houtside.cfg (houtside.callers c hc)).2 hneeds⟩
  held hser b c hrun hneeds := by
    have hc : c ≠ s.cur := by
      rintro rfl
      have hidle : (t.caller s.cur).inFlight = InFlight.idle := by rw [← houtside.cur]; exact hended.record
      rcases hrun with hplace | hplace <;> rw [hidle] at hplace <;> cases hplace
    have hlock := h.held (houtside.cfg ▸ hser) b c ((running_congr (houtside.callers c hc)).1 hrun)
      ((needs_congr houtside.cfg (houtside.callers c hc)).1 hneeds)
    rw [hended.lock b, if_neg fun hown => hc (Option.some.inj (hlock.symm.trans hown)), hlock]

/-- A command that stays in progress, with the locks it takes held once it runs. -/
theorem Serving.stays {s t : State} {i : Instr} {p : Plan} (h : Serving s) (houtside : SameOutside s t)
    (hkept : CallersKept s t) (hdec : decode s.record.cmd s.record.data = .ok i) (hc : planOf i s.cfg = .ok p)
    (hlock : LocksTaken s t p) (hsame : SameCommand s.record t.record) (hok : RecordOk s.cfg t.record)
    (hheld : s.cfg.serialize = true → t.record.place.active → ∀ b ∈ p.locks, t.lock b = some s.cur) : RunInv t := by
  obtain ⟨hphase, hcmd, hdata⟩ := hsame
  have hneeds : ∀ b, Needs t s.cur b ↔ b ∈ p.locks := fun b => by
    rw [← houtside.cur]
    exact needs_cur_iff (hphase.trans h.busy) (by rw [hcmd, hdata]; exact hdec) (by rw [houtside.cfg]; exact hc)
  refine ⟨houtside.cfg ▸ h.cfg, hkept h.callers, fun c => ?_, fun b c hl => ?_, fun hser b c hrun hn => ?_⟩
  · by_cases hcur : c = s.cur
    · rw [hcur, ← houtside.cur, houtside.cfg]
      exact hok
    · rw [houtside.callers c hcur, houtside.cfg]
      exact h.others c hcur
  · rw [houtside.cfg]
    by_cases hcur : c = s.cur
    · subst hcur
      rcases hlock.holder hl with hold | ⟨hser, hb, -⟩
      · obtain ⟨hser, hn⟩ := h.holders b s.cur hold
        exact ⟨hser, (hneeds b).2 ((needs_cur_iff h.busy hdec hc).1 hn)⟩
      · exact ⟨hser, (hneeds b).2 hb⟩
    · obtain ⟨hser, hn⟩ := h.holders b c ((hlock.others b hcur).1 hl)
      exact ⟨hser, (needs_congr houtside.cfg (houtside.callers c hcur)).2 hn⟩
  · rw [houtside.cfg] at hser
    by_cases hcur : c = s.cur
    · subst hcur
      refine hheld hser ?_ b ((hneeds b).1 hn)
      rw [State.record, houtside.cur]
      exact hrun
    · refine (hlock.others b hcur).2 (h.held hser b c ?_ ?_)
      · exact (running_congr (houtside.callers c hcur)).1 hrun
      · exact (needs_congr houtside.cfg (houtside.callers c hcur)).1 hn

/-- The record of a due transaction is of the same command. -/
theorem PlanShape.sameCommand_dueRecord {s : State} {i : Instr} {p : Plan} (h : PlanShape s.cfg i p)
    (hbusy : s.record.phase = .busy) : SameCommand s.record (s.dueRecord p) := by
  obtain ⟨hphase, hcmd, hdata⟩ := h.enter { s.record with phase := .busy }
  unfold State.dueRecord
  split
  · exact ⟨rfl, rfl, rfl⟩
  · exact ⟨rfl, rfl, rfl⟩
  · exact ⟨hphase.trans hbusy.symm, hcmd, hdata⟩
  · exact ⟨hphase.trans hbusy.symm, hcmd, hdata⟩

/-- A running command of a step holds every lock it takes (10_state.md R52). -/
theorem Serving.lock_cur {s : State} {i : Instr} {p : Plan} (h : Serving s)
    (hdec : decode s.record.cmd s.record.data = .ok i) (hc : planOf i s.cfg = .ok p)
    (hser : s.cfg.serialize = true) (hplace : s.record.place.active) {b : BankId} (hb : b ∈ p.locks) :
    s.lock b = some s.cur :=
  h.held hser b s.cur hplace ((needs_cur_iff h.busy hdec hc).2 hb)

/-- After a transaction, the locks the command takes are its caller's: just taken, or held since it began to run. -/
theorem Serving.lock_after {s t : State} {i : Instr} {p : Plan} (h : Serving s)
    (hdec : decode s.record.cmd s.record.data = .ok i) (hc : planOf i s.cfg = .ok p) (hlock : LocksTaken s t p)
    (hheld : HeldAfter s t p) (hser : s.cfg.serialize = true) {b : BankId} (hb : b ∈ p.locks) :
    t.lock b = some s.cur := by
  by_cases hplace : s.record.place = .start ∨ s.record.place = .lock
  · exact hheld hser hplace b hb
  · have hactive : s.record.place.active := by
      unfold Place.active
      cases hp : s.record.place <;> simp [hp] at hplace ⊢
    have hown := h.lock_cur hdec hc hser hactive hb
    rcases hlock b with hsame | ⟨-, hfree, -⟩
    · exact hsame.trans hown
    · rw [hown] at hfree
      cases hfree

theorem Serving.runInv_exec {s t : State} {i : Instr} (h : Serving s) (hdec : decode s.record.cmd s.record.data = .ok i)
    (hexec : exec i s = .next t) : RunInv t := by
  have houtside := exec_sameOutside hexec
  have hkept := exec_callersKept hexec
  cases exec_served hexec with
  | ended r hended _ => exact h.ended houtside hkept hended
  | waits p hc hser hwaits =>
    obtain ⟨hphase, hcmd, hdata⟩ := (planShape hc).enter { s.record with phase := .busy }
    have hplace : t.record.place = .lock := by rw [hwaits.record]; rfl
    have hsame : SameCommand s.record t.record := by
      rw [hwaits.record]
      exact ⟨hphase.trans h.busy.symm, hcmd, hdata⟩
    obtain ⟨htphase, htcmd, htdata⟩ := hsame
    refine h.stays houtside hkept hdec hc hwaits.lock ⟨htphase, htcmd, htdata⟩ ?_ fun _ hactive => ?_
    · exact .waiting i p (htphase.trans h.busy) (by rw [htcmd, htdata]; exact hdec) hc hser hplace
    · rcases hactive with hread | hwrite
      · rw [hplace] at hread; cases hread
      · rw [hplace] at hwrite; cases hwrite
  | goes p r hc hgoes hrecord _ hlock hheld =>
    subst hrecord
    have hsame := ((planShape hc).sameCommand_dueRecord h.busy).trans hgoes.same
    obtain ⟨htphase, htcmd, htdata⟩ := hsame
    refine h.stays houtside hkept hdec hc hlock ⟨htphase, htcmd, htdata⟩ ?_ fun hser _ b hb => ?_
    · exact .running i p (htphase.trans h.busy) (by rw [htcmd, htdata]; exact hdec) hc hgoes.active (hgoes.target h.cfg)
    · exact h.lock_after hdec hc hlock hheld hser hb

theorem Serving.runInv_performed {s t : State} (h : Serving s) (hstep : Performed s t) : RunInv t := by
  cases hstep with
  | illegal _ _ ht =>
    subst ht
    exact h.ended ((SameOutside.refl s).respond _) ((CallersKept.refl s).respond _) (s.ended_respond _)
  | legal i hdec hexec => exact h.runInv_exec hdec hexec

theorem runInv_congr {s t : State} (h : RunInv s) (hcfg : t.cfg = s.cfg) (hcallers : t.callers = s.callers)
    (hlock : ∀ b, t.lock b = s.lock b) : RunInv t := by
  have hcaller : ∀ c, t.caller c = s.caller c := fun c => by rw [State.caller, State.caller, hcallers]
  refine ⟨hcfg ▸ h.cfg, hcallers ▸ h.callers, fun c => ?_, fun b c hl => ?_, fun hser b c hrun hn => ?_⟩
  · rw [hcaller, hcfg]
    exact h.records c
  · rw [hlock] at hl
    obtain ⟨hser, hn⟩ := h.holders b c hl
    exact ⟨hcfg ▸ hser, (needs_congr hcfg (hcaller c)).2 hn⟩
  · rw [hlock]
    exact h.held (hcfg ▸ hser) b c ((running_congr (hcaller c)).1 hrun) ((needs_congr hcfg (hcaller c)).1 hn)

/-- Settles O44: a command's step starts from `Serving`; a reconstruction is a construction; the other steps change
neither a record nor a lock. -/
theorem stepKeepsTheInvariant : Obligations.StepKeepsTheInvariant := by
  intro s t hs h
  cases step_cases h with
  | idle _ ht => exact ht ▸ hs
  | command c cmd data rest _ _ hidle ht => exact (hs.deliver hidle rest cmd data).runInv_performed ht
  | turn c rest _ hbusy ht => exact (hs.serving rest hbusy).runInv_performed ht
  | turnIdle c rest _ _ ht => exact ht ▸ runInv_congr hs rfl rfl fun _ => rfl
  | attach selector b rest _ _ ht =>
    exact ht ▸ runInv_congr hs (State.setAttached_cfg ..) (State.setAttached_callers ..)
      fun b' => State.lock_setAttached (s.took rest) b b'
  | reset rest _ _ hwf ht => exact ht ▸ runInv_congr (runInv_constructed hwf) rfl rfl fun _ => rfl
  | outside b sel wire ok rest _ _ ht =>
    exact ht ▸ runInv_congr hs (State.setCtrl_cfg ..) (State.setCtrl_callers ..)
      fun b' => State.lock_setCtrl (s.took rest) b sel _ b'

end Sys2Proof.Machine

/-! PROOFS. What the invariant of records and locks gives: no step ends in a fault (60_exceptions.md), and with
SERIALIZE a transaction meets no other running command that takes its bank's lock (10_state.md R52). -/

namespace Sys2Proof.Machine

/-! ### No fault -/

/-- A record that makes transactions, at a register, loses no place. -/
theorem State.transact_ne_fault {s : State} {p : Plan} (htarget : (p.target s.record).isSome)
    (hplace : s.record.place.active) (r : Fault) : s.transact p ≠ .fault r := by
  obtain ⟨⟨b, sel⟩, htarget⟩ := Option.isSome_iff_exists.1 htarget
  rcases hplace with hread | hwrite
  · rw [State.transact_read hread htarget]
    nofun
  · rw [State.transact_write hwrite htarget]
    nofun

/-- A command whose checks pass waits, or enters a transaction it has a register for. -/
theorem exec_ne_fault_of_entering {i : Instr} {s : State} {p : Plan} (hwf : s.cfg.wf = true)
    (hc : planOf i s.cfg = .ok p) (hp : s.record.place = .start ∨ s.record.place = .lock) (r : Fault) :
    exec i s ≠ .fault r := by
  by_cases hfree : s.locksFree p.locks
  · obtain ⟨s1, hentering, hexec⟩ := (Due.start hc hp hfree).exec_eq
    have hrecord : s1.record = { p.enter { s.record with phase := .busy } with place := p.first } :=
      hentering.record.trans (State.dueRecord_start p hp)
    rw [hexec]
    refine State.transact_ne_fault ?_ ?_ r
    · rw [hrecord]
      exact (planShape hc).enter_target hwf _
    · rw [hrecord]
      exact (planShape hc).first
  · rw [exec_waiting hc hp hfree]
    nofun

theorem Serving.exec_ne_fault {s : State} {i : Instr} (h : Serving s)
    (hdec : decode s.record.cmd s.record.data = .ok i) (r : Fault) : exec i s ≠ .fault r := by
  rcases h.place with hstart | hok
  · cases hplan : planOf i s.cfg with
    | error e =>
      rw [exec_rejected hstart hplan]
      nofun
    | ok p => exact exec_ne_fault_of_entering h.cfg hplan (.inl hstart) r
  · cases hok with
    | idle hidle =>
      have hbusy := h.busy
      rw [hidle] at hbusy
      cases hbusy
    | waiting i' p _ hdec' hc _ hlock =>
      obtain rfl : i = i' := Except.ok.inj (hdec.symm.trans hdec')
      exact exec_ne_fault_of_entering h.cfg hc (.inr hlock) r
    | running i' p _ hdec' hc hplace htarget =>
      obtain rfl : i = i' := Except.ok.inj (hdec.symm.trans hdec')
      rw [exec_eq_serve, State.serve_running hplace hc]
      exact State.transact_ne_fault htarget hplace r

theorem Serving.perform_ne_fault {s : State} (h : Serving s) (r : Fault) : s.perform ≠ .fault r := by
  unfold State.perform
  split
  case h_1 i hdec => exact h.exec_ne_fault hdec r
  case h_2 => nofun

/-- Settles O45: only a command's step can end in a fault, and `Serving` rules that out. -/
theorem noFaultFromTheInvariant : Obligations.NoFaultFromTheInvariant := by
  intro s r hs h
  unfold step State.nextInput at h
  rcases hin : s.inputs with _ | ⟨x, rest⟩ <;> simp only [hin] at h
  · cases h
  cases x with
  | command c cmd data =>
    simp only [State.take, State.accept] at h
    split_ifs at h with _ hidle
    exact (hs.deliver (Bool.eq_false_iff.2 hidle) rest cmd data).perform_ne_fault r h
  | turn c =>
    simp only [State.take, State.takeTurn] at h
    split_ifs at h with hbusy
    exact (hs.serving rest hbusy).perform_ne_fault r h
  | attach selector addr =>
    simp only [State.take, State.attachBank] at h
    split at h
    · cases h
    · split_ifs at h
  | reset =>
    simp only [State.take, State.reconstruct, State.construct] at h
    split_ifs at h
  | outsideWrite b sel wire ok =>
    simp only [State.take, State.outsideWrite] at h
    split_ifs at h

/-! ### Mutual exclusion -/

/-- The bank a transaction is on. -/
def Transaction.bank : Transaction → BankId
  | .read b _ _ => b
  | .readFailed b _ _ => b
  | .write b _ _ => b
  | .writeFailed b _ _ _ => b

/-- The lock of a transaction's bank is the served caller's, so no other running command takes it. -/
theorem Serving.excludes {s s2 : State} {i : Instr} {p : Plan} {x : Transaction} (h : Serving s)
    (hdec : decode s.record.cmd s.record.data = .ok i) (hc : planOf i s.cfg = .ok p) (ha : After s s2 p x)
    (hheld : HeldAfter s s2 p) (hser : s.cfg.serialize = true) {b : BankId} (hb : b ∈ p.locks) {c : CallerId}
    (hne : c ≠ s.cur) (hrun : Running s c) : ¬ Needs s c b := by
  intro hneeds
  have hother : s2.lock b = some c := (ha.lock.others b hne).2 (h.held hser b c hrun hneeds)
  have hown : s2.lock b = some s.cur := h.lock_after hdec hc ha.lock hheld hser hb
  exact hne (Option.some.inj (hother.symm.trans hown))

theorem Serving.performed_excludes {s t : State} {x : Transaction} (h : Serving s) (hstep : Performed s t)
    (hser : s.cfg.serialize = true) (hlog : t.log = x :: s.log) {c : CallerId} (hne : c ≠ s.cur)
    (hrun : Running s c) : ¬ Needs s c x.bank := by
  have hnone : t.log ≠ s.log := fun hsame => List.cons_ne_self x s.log (hlog.symm.trans hsame)
  cases hstep with
  | illegal _ _ ht => exact absurd (ht ▸ rfl) hnone
  | legal i hdec hexec =>
    have hbank : ∀ {p : Plan} {b : BankId} {sel : Selector} {s2 : State} {y : Transaction},
        planOf i s.cfg = .ok p → p.target (s.dueRecord p) = some (b, sel) → After s s2 p y → HeldAfter s s2 p →
        t.log = y :: s.log → y.bank = b → ¬ Needs s c x.bank := by
      intro p b sel s2 y hc htarget ha hheld hlog' hy
      obtain rfl : x = y := (List.cons.inj (hlog.symm.trans hlog')).1
      rw [hy]
      exact h.excludes hdec hc ha hheld hser ((planShape hc).target_mem htarget) hne hrun
    cases execStep hexec with
    | rejected _ _ _ ht => exact absurd (ht ▸ rfl) hnone
    | waiting p _ hc _ ht => exact absurd (ht ▸ (waits (planShape hc)).log) hnone
    | readOk p b sel draw s2 hc htarget _ _ ha hh _ ht =>
      exact hbank hc htarget ha hh (ht ▸ (State.log_proceed s2 _).trans ha.log) rfl
    | readFail p b sel low s2 hc htarget _ _ ha hh _ ht =>
      exact hbank hc htarget ha hh (ht ▸ (State.respond_log s2 _).trans ha.log) rfl
    | writeOk p b sel draw s2 hc htarget _ _ ha hh _ ht =>
      exact hbank hc htarget ha hh (ht ▸ (State.log_proceed s2 _).trans ha.log) rfl
    | writeFail p b sel low s2 hc htarget _ _ ha hh _ ht =>
      exact hbank hc htarget ha hh (ht ▸ (State.respond_log s2 _).trans ha.log) rfl

/-- Settles O48: a transaction is made by the served caller's command, delivered or resumed; the other kinds of step
make none. -/
theorem serializedTransactionsExcludeOthers : Obligations.SerializedTransactionsExcludeOthers := by
  intro s t x b hs hser h hlog hx c hne hrun
  have hbank : x.bank = b := by cases x <;> exact hx
  have hnone : t.log ≠ s.log := fun hsame => List.cons_ne_self x s.log (hlog.symm.trans hsame)
  rw [← hbank]
  cases step_cases h with
  | idle _ ht => exact absurd (ht ▸ rfl) hnone
  | command c' cmd data rest _ _ hidle ht =>
    have hne' : c ≠ c' := by rwa [ht.sameOutside.cur] at hne
    have hcfg : ((s.took rest).deliver c' cmd data).cfg = s.cfg := rfl
    have hcaller : ((s.took rest).deliver c' cmd data).caller c = s.caller c :=
      State.deliver_caller_of_ne (s.took rest) cmd data hne'
    have hnot := (hs.deliver hidle rest cmd data).performed_excludes ht hser hlog hne' ((running_congr hcaller).2 hrun)
    exact fun hneeds => hnot ((needs_congr hcfg hcaller).2 hneeds)
  | turn c' rest _ hbusy ht =>
    have hne' : c ≠ c' := by rwa [ht.sameOutside.cur] at hne
    exact (hs.serving rest hbusy).performed_excludes ht hser hlog hne' hrun
  | turnIdle c' rest _ _ ht => exact absurd (ht ▸ rfl) hnone
  | attach selector b' rest _ _ ht => exact absurd (ht ▸ State.setAttached_log ..) hnone
  | reset rest _ _ _ ht => exact absurd (ht ▸ rfl) hnone
  | outside b' sel wire ok rest _ _ ht => exact absurd (ht ▸ State.setCtrl_log ..) hnone

end Sys2Proof.Machine

/-! PROOFS. The statements of 70_reset_and_hazards.md: reconstruction (R270, R271), attach (R274), what is refused (R273,
R275, R276; 93_implementation_defined.md I30 to I33), and the lost update with and without SERIALIZE (R281). -/

namespace Sys2Proof.Machine

/-! ### Reset and attach -/

theorem step_of_input {s : State} {x : Input} {rest : List Input} (hin : s.inputs = x :: rest) :
    step s = (s.took rest).take x := by
  simp [step, State.nextInput, hin]

theorem State.construct_of_not_wf {cfg : Config} (h : cfg.wf = false) :
    State.construct cfg = .refused .badConfiguration := by
  simp [State.construct, h]

/-- Settles O49: a reconstruction answers the machine just after construction, with the outside's fields kept. -/
theorem reconstructionResetsTheBlock : Obligations.ReconstructionResetsTheBlock := by
  intro s rest hin hidle hwf
  have hidle' : (s.took rest).anyBusy = false := hidle
  have hwf' : (s.took rest).cfg.wf = true := hwf
  refine ⟨{ State.constructed s.cfg with inputs := rest, bus := s.bus, drawn := s.drawn, log := s.log }, ?_, rfl,
    fun _ => rfl, fun b => ?_, fun b sel => ?_, rfl, rfl⟩
  · rw [step_of_input hin]
    simp [State.take, State.reconstruct, State.construct, hidle', hwf']
  · cases b <;> rfl
  · cases b <;> rfl

/-- Settles O51: the bank's number names it, its address is the configured one, so the attach sets the bank's flag. -/
theorem attachMakesNoTransaction : Obligations.AttachMakesNoTransaction := by
  intro s b rest hb hin
  refine ⟨(s.took rest).setAttached b, ?_, State.attached_setAttached_self _ b,
    fun b' hne => State.attached_setAttached_of_ne _ hne, State.setAttached_cfg _ b, State.setAttached_log _ b,
    fun b' => State.peer_setAttached (s.took rest) b b', State.setAttached_callers _ b,
    fun b' => State.lock_setAttached (s.took rest) b b'⟩
  have hbank : bankOf (s.took rest).cfg b.number = some b := bankOf_number hb
  rw [step_of_input hin]
  simp [State.take, State.attachBank, hbank]

/-! ### Refused inputs -/

theorem State.ready_eq_false {s : State} (h : s.cfg.wf = false ∨ ∃ b ∈ s.cfg.banks, s.attached b = false) :
    s.ready = false := by
  rcases h with hwf | ⟨b, hb, hdetached⟩
  · simp [State.ready, hwf]
  · have hall : s.cfg.banks.all s.attached = false := List.all_eq_false.2 ⟨b, hb, by simp [hdetached]⟩
    simp [State.ready, hall]

/-- Settles O50: each input meets the check that refuses it, after the checks before it passed. -/
theorem refusedInputs : Obligations.RefusedInputs := by
  intro s rest cfg c cmd data
  refine ⟨fun hin hbusy => ?_, fun hin hidle hwf => ?_, State.construct_of_not_wf, fun hin hnot => ?_,
    fun hin hready hbusy => ?_⟩
  · have hbusy' : (s.took rest).anyBusy = true := hbusy
    rw [step_of_input hin]
    simp [State.take, State.reconstruct, hbusy']
  · have hidle' : (s.took rest).anyBusy = false := hidle
    rw [step_of_input hin]
    simp [State.take, State.reconstruct, hidle', State.construct_of_not_wf hwf]
  · have hready' : (s.took rest).ready = false := State.ready_eq_false (s := s.took rest) hnot
    rw [step_of_input hin]
    simp [State.take, State.accept, hready']
  · have hready' : (s.took rest).ready = true := hready
    have hbusy' : (s.took rest).busy c = true := hbusy
    rw [step_of_input hin]
    simp [State.take, State.accept, hready', hbusy']

/-! ### The lost update -/

/-- Settles O52: four steps of the machine, run. -/
theorem lostUpdateHappens : Obligations.LostUpdateHappens :=
  ⟨_, rfl, by decide, by decide, by decide⟩

/-- Settles O53: two and five steps with SERIALIZE, and five without, run. -/
theorem serializedUpdatesBothStand : Obligations.SerializedUpdatesBothStand :=
  ⟨⟨_, rfl, by decide, by decide, by decide, by decide⟩,
    ⟨_, rfl, by decide, fun b => by cases b <;> rfl, by decide, by decide⟩, ⟨_, rfl, by decide⟩⟩

end Sys2Proof.Machine

/-! PROOFS. The statements of 40_transport.md, 41_transcode.md and 42_bank_mux.md about one step of a command: what it
answers when its transaction succeeds, and which register it reaches. -/

namespace Sys2Proof.Machine

/-! ### A transaction that succeeds -/

section
variable {s : State} {i : Instr} {p : Plan} {b : BankId} {sel : Selector} {draw : RegWord}

/-- A due read after which the command ends (00_scope.md R16). -/
theorem Due.read_done (h : Due s i p) (htarget : p.target (s.dueRecord p) = some (b, sel))
    (hplace : (s.dueRecord p).place = .read) (hreply : s.reply = .ok draw) {x : Word32}
    (hafter : p.afterRead (s.dueRecord p) (s.logicalWord b sel draw) = .done x) :
    ∃ t, exec i s = .next t ∧ Ended s t (Response.done x) ∧ SameOutside s t ∧ SamePeers s t
      ∧ t.log = .read b sel (s.wireWord b sel draw) :: s.log := by
  obtain ⟨s2, ha, hpeers, hexec⟩ := h.read_ok htarget hplace hreply
  obtain ⟨hended, houtside, hlog⟩ := ha.ended (Response.done x)
  rw [hafter] at hexec
  exact ⟨_, hexec, hended, houtside, hpeers.respond _, hlog⟩

theorem After.goes_proceed {s2 : State} {x : Transaction} {r : InFlight} (h : After s s2 p x) (hbusy : r.phase = .busy) :
    Goes s (s2.proceed (.go r)) r :=
  (h.goes hbusy).1

/-- A due read after which the command goes on. -/
theorem Due.read_go (h : Due s i p) (htarget : p.target (s.dueRecord p) = some (b, sel))
    (hplace : (s.dueRecord p).place = .read) (hreply : s.reply = .ok draw) {r : InFlight}
    (hafter : p.afterRead (s.dueRecord p) (s.logicalWord b sel draw) = .go r) (hbusy : r.phase = .busy) :
    ∃ t, exec i s = .next t ∧ Goes s t r ∧ SameOutside s t ∧ SamePeers s t
      ∧ t.log = .read b sel (s.wireWord b sel draw) :: s.log := by
  obtain ⟨s2, ha, hpeers, hexec⟩ := h.read_ok htarget hplace hreply
  obtain ⟨hgoes, houtside, hlog⟩ := ha.goes hbusy
  rw [hafter] at hexec
  exact ⟨_, hexec, hgoes, houtside, hpeers.proceed (.go r), hlog⟩

/-- A due write after which the command ends. -/
theorem Due.write_done (h : Due s i p) (hm : MemoryOk s) (htarget : p.target (s.dueRecord p) = some (b, sel))
    (hplace : (s.dueRecord p).place = .write) (hreply : s.reply = .ok draw) {x : Word32}
    (hafter : p.afterWrite (s.dueRecord p) = .done x) :
    ∃ t, exec i s = .next t ∧ Ended s t (Response.done x) ∧ SameOutside s t
      ∧ t.log = .write b sel (transform s.cfg (s.dueRecord p).wbuf) :: s.log
      ∧ t.ctrl b sel = ⟨s.cfg.ctrlMask b sel, (s.dueRecord p).wbuf &&& s.cfg.ctrlMask b sel⟩
      ∧ SamePeersBut b sel s t := by
  obtain ⟨s2, ha, hwrote, hexec⟩ := h.write_ok htarget hplace hreply
  obtain ⟨hended, houtside, hlog⟩ := ha.ended (Response.done x)
  rw [hafter] at hexec
  exact ⟨_, hexec, hended, houtside, hlog, (State.ctrl_respond ..).trans (hwrote.here hm.canonical),
    hwrote.others.respond _⟩

end

/-! ### READ_WORD and WRITE_WORD -/

theorem planOf_rdw {cfg : Config} {bank : BitVec 2} {b : BankId} (hb : bankOf cfg bank = some b) (sel : Selector) :
    planOf (.rdw bank sel) cfg = .ok (readWord b sel) :=
  ok_bind (checkBank_some hb) rfl

theorem planOf_wrw {cfg : Config} {bank : BitVec 2} {b : BankId} (hb : bankOf cfg bank = some b) (sel : Selector)
    (word : RegWord) : planOf (.wrw bank sel word) cfg = .ok (writeWord b sel word) :=
  ok_bind (checkBank_some hb) rfl

/-- The first transaction of `READ_WORD` is its read. -/
theorem dueRecord_readWord {s : State} (hp : s.record.place = .start ∨ s.record.place = .lock) (b : BankId)
    (sel : Selector) : (s.dueRecord (readWord b sel)).place = .read := by
  rw [State.dueRecord_start _ hp]; rfl

/-- The first transaction of `WRITE_WORD` is its write, of its word. -/
theorem dueRecord_writeWord {s : State} (hp : s.record.place = .start ∨ s.record.place = .lock) (b : BankId)
    (sel : Selector) (word : RegWord) : (s.dueRecord (writeWord b sel word)).place = .write
      ∧ (s.dueRecord (writeWord b sel word)).wbuf = word := by
  rw [State.dueRecord_start _ hp]; exact ⟨rfl, rfl⟩

/-- Settles O25: the read is due, and its word is the result. -/
theorem readWordAnswersTheLogicalWord : Obligations.ReadWordAnswersTheLogicalWord := by
  intro s bank sel b draw hp hb hfree hreply
  have hplace := dueRecord_readWord hp b sel
  exact (Due.start (planOf_rdw hb sel) hp hfree).read_done (if_pos hplace) hplace hreply rfl

/-- Settles O26: the write is due, and `WBUF` is the word. -/
theorem writeWordSetsTheRegister : Obligations.WriteWordSetsTheRegister := by
  intro s bank sel word draw b hm hp hb hfree hreply
  obtain ⟨hplace, hwbuf⟩ := dueRecord_writeWord hp b sel word
  have h := (Due.start (planOf_wrw hb sel word) hp hfree).write_done hm (if_pos hplace) hplace hreply (x := 0) rfl
  rwa [hwbuf] at h

/-- How a step ends a command with `STATUS = OK`: by a read or a write that succeeded and was the last. -/
inductive EndedOk (i : Instr) (s t : State) (x : Word32) : Prop
  | read (p : Plan) (b : BankId) (sel : Selector) (draw : RegWord) (hc : planOf i s.cfg = .ok p)
      (htarget : p.target (s.dueRecord p) = some (b, sel)) (hplace : (s.dueRecord p).place = .read)
      (hafter : p.afterRead (s.dueRecord p) (s.logicalWord b sel draw) = .done x) (hpeers : SamePeers s t)
  | write (p : Plan) (b : BankId) (sel : Selector) (hc : planOf i s.cfg = .ok p)
      (htarget : p.target (s.dueRecord p) = some (b, sel)) (hplace : (s.dueRecord p).place = .write)
      (hafter : p.afterWrite (s.dueRecord p) = .done x)
      (hwrote : Wrote s t b sel ⟨s.cfg.ctrlMask b sel, (s.dueRecord p).wbuf &&& s.cfg.ctrlMask b sel⟩)

/-- Going on leaves a record that is not idle, so a transaction that ended its command was the last. -/
theorem done_of_proceed {cfg : Config} {p : Plan} {r : InFlight} {s2 : State} {q : Progress} {x : Word32}
    (hgo : ∀ r', q = .go r' → GoesOn cfg p r r') (hidle : (s2.proceed q).record = InFlight.idle)
    (hresponse : (s2.proceed q).response = some (Response.done x)) : q = .done x := by
  cases q with
  | go r' =>
    have hne := (hgo r' rfl).ne_idle
    exact absurd ((s2.record_setRecord_ne hne).symm.trans hidle) hne
  | done y =>
    rw [State.proceed, State.response_respond] at hresponse
    cases hresponse
    rfl

theorem Wrote.proceed {s s2 : State} {b : BankId} {sel : Selector} {c : CtrlWord} (h : Wrote s s2 b sel c)
    (q : Progress) : Wrote s (s2.proceed q) b sel c where
  self := (State.peer_proceed ..).trans h.self
  other b' hne := (State.peer_proceed ..).trans (h.other b' hne)

theorem endedOk {i : Instr} {s t : State} {x : Word32} (h : exec i s = .next t) (hidle : t.record = InFlight.idle)
    (hresponse : t.response = some (Response.done x)) : EndedOk i s t x := by
  cases execStep h with
  | rejected e _ _ ht =>
    rw [ht, State.raise, State.response_respond] at hresponse
    cases hresponse
  | waiting p _ hc _ ht =>
    have hplace : t.record.place = .lock := by rw [ht, (waits (planShape hc)).record]; rfl
    rw [hidle] at hplace
    cases hplace
  | readOk p b sel draw s2 hc htarget hp _ ha _ hpeer ht =>
    subst ht
    have hgo := fun r => (planShape hc).afterRead (r' := r) (w := s.logicalWord b sel draw) (by rw [htarget]; rfl) hp
    exact .read p b sel draw hc htarget hp (done_of_proceed hgo hidle hresponse) ((samePeers_of_peer hpeer).proceed _)
  | writeOk p b sel draw s2 hc htarget hp _ ha _ hw ht =>
    subst ht
    have hgo := fun r => (planShape hc).afterWrite (r' := r) (r := s.dueRecord p) (by rw [htarget]; rfl)
    exact .write p b sel hc htarget hp (done_of_proceed hgo hidle hresponse) (hw.proceed _)
  | readFail p b sel low s2 _ _ _ _ _ _ _ ht =>
    rw [ht, State.response_respond] at hresponse
    cases hresponse
  | writeFail p b sel low s2 _ _ _ _ _ _ _ ht =>
    rw [ht, State.response_respond] at hresponse
    cases hresponse

/-- The checks of `READ_WORD` and `WRITE_WORD` are the bank's (60_exceptions.md R236). -/
theorem planOf_rdw_iff {cfg : Config} {bank : BitVec 2} {sel : Selector} {p : Plan} :
    planOf (.rdw bank sel) cfg = .ok p ↔ ∃ b, bankOf cfg bank = some b ∧ readWord b sel = p := by
  simp [planOf, planRdw, bind_eq_ok, checkBank_ok, pure, Except.pure]

theorem planOf_wrw_iff {cfg : Config} {bank : BitVec 2} {sel : Selector} {word : RegWord} {p : Plan} :
    planOf (.wrw bank sel word) cfg = .ok p ↔ ∃ b, bankOf cfg bank = some b ∧ writeWord b sel word = p := by
  simp [planOf, planWrw, bind_eq_ok, checkBank_ok, pure, Except.pure]

/-- What a `WRITE_WORD` from its start that ended with OK did (40_transport.md R145). -/
theorem wrote_of_wrw_ok {s t : State} {bank : BitVec 2} {sel : Selector} {word : RegWord} {x : Word32}
    (hp : s.record.place = .start) (h : exec (.wrw bank sel word) s = .next t) (hidle : t.record = InFlight.idle)
    (hresponse : t.response = some (Response.done x)) :
    ∃ b, bankOf s.cfg bank = some b ∧ Wrote s t b sel ⟨s.cfg.ctrlMask b sel, word &&& s.cfg.ctrlMask b sel⟩ := by
  cases endedOk h hidle hresponse with
  | read p b' sel' draw hc _ hplace _ _ =>
    obtain ⟨b, -, rfl⟩ := planOf_wrw_iff.1 hc
    rw [(dueRecord_writeWord (.inl hp) b sel word).1] at hplace
    cases hplace
  | write p b' sel' hc htarget hplace _ hwrote =>
    obtain ⟨b, hb, rfl⟩ := planOf_wrw_iff.1 hc
    obtain ⟨rfl, rfl⟩ : b = b' ∧ sel = sel' := by simpa using (if_pos hplace).symm.trans htarget
    rw [(dueRecord_writeWord (.inl hp) b sel word).2] at hwrote
    exact ⟨b, hb, hwrote⟩

/-- What a `READ_WORD` from its start that ended with OK answered (40_transport.md R140). -/
theorem logicalWord_of_rdw_ok {s t : State} {bank : BitVec 2} {sel : Selector} {r : Word32}
    (hp : s.record.place = .start) (h : exec (.rdw bank sel) s = .next t) (hidle : t.record = InFlight.idle)
    (hresponse : t.response = some (Response.done r)) :
    ∃ b draw, bankOf s.cfg bank = some b ∧ r = (s.logicalWord b sel draw).setWidth 32 := by
  cases endedOk h hidle hresponse with
  | read p b' sel' draw hc htarget hplace hafter _ =>
    obtain ⟨b, hb, rfl⟩ := planOf_rdw_iff.1 hc
    obtain ⟨rfl, rfl⟩ : b = b' ∧ sel = sel' := by simpa using (if_pos hplace).symm.trans htarget
    exact ⟨b, draw, hb, (Progress.done.inj hafter).symm⟩
  | write p b' sel' hc _ hplace _ _ =>
    obtain ⟨b, -, rfl⟩ := planOf_rdw_iff.1 hc
    rw [dueRecord_readWord (.inl hp) b sel] at hplace
    cases hplace

/-- Settles O27: the write made every control bit known, and a read returns every known control bit. -/
theorem writtenWordReadsBack : Obligations.WrittenWordReadsBack := by
  intro s t u bank sel word x r hm hp hwrite hx hidle hread hr hidle'
  obtain ⟨b, hb, hwrote⟩ := wrote_of_wrw_ok hp hwrite hidle hx
  have hcfg := (exec_sameOutside hwrite).cfg
  obtain ⟨b', draw, hb', rfl⟩ := logicalWord_of_rdw_ok (by rw [hidle]; rfl) hread hidle' hr
  obtain rfl : b = b' := Option.some.inj (hb.symm.trans (hcfg ▸ hb'))
  refine ⟨b, hb, fun j hj => ?_⟩
  have hlt : j < 16 := BitVec.lt_of_getLsbD hj
  rw [BitVec.getLsbD_setWidth, getLsbD_logicalWord, hwrote.here hm.canonical, hcfg]
  simp [hj, show j < 32 by omega]

/-! ### Port commands -/

/-- Settles O28: one read of the port's register, and its bit is the result. -/
theorem getPortAnswersThePresentedBit : Obligations.GetPortAnswersThePresentedBit := by
  intro i s f b p k slot e draw hi hp hlocate he hfree hreply
  have hplace : (s.dueRecord (readPort s.cfg f b p)).place = .read := by rw [State.dueRecord_start _ hp]; rfl
  refine (Due.start hi.plan hp hfree).read_done (readPort_target hplace hlocate he) hplace hreply ?_
  rw [← portBit_eq hlocate]
  show Progress.done _ = _
  cases presentBit (s.cfg.info f).pol ((s.logicalWord b e.sel draw).getLsbD (portBit s.cfg f b p)) <;> rfl

/-- Settles O29: one read of the port's register, and the write of the word with the port's bit set is next. -/
theorem setPortReadsItsRegister : Obligations.SetPortReadsItsRegister := by
  intro i s f b p k slot v e draw hi hp hlocate he hfree hreply
  have hdue := Due.start hi.plan hp hfree
  have hdueRecord := s.dueRecord_start (writePort s.cfg f b p v) hp
  have hplace : (s.dueRecord (writePort s.cfg f b p v)).place = .read := by rw [hdueRecord]; rfl
  obtain ⟨t, hexec, hgoes, houtside, hpeers, hlog⟩ :=
    hdue.read_go (writePort_target _ hlocate he) hplace hreply rfl hdue.phase
  refine ⟨t, _, hexec, hgoes, hdue.phase, rfl, by rw [hdueRecord]; rfl, by rw [hdueRecord]; rfl, fun j => ?_, houtside,
    hpeers, hlog⟩
  rw [← portBit_eq hlocate]
  exact getLsbD_setBit _ _ _ _

/-- Settles O30: the write of `WBUF` to the port's register is due, and is the last. -/
theorem setPortWritesItsRegister : Obligations.SetPortWritesItsRegister := by
  intro i s f b p k slot v e draw hm hi hplace hbusy hlocate he hreply
  have hrecord := s.dueRecord_running (writePort s.cfg f b p v) (.inr hplace)
  have h := (Due.running hi.plan (.inr hplace) hbusy).write_done hm (writePort_target _ hlocate he)
    (by rw [hrecord]; exact hplace) hreply (x := 0) rfl
  rwa [hrecord] at h

/-! ### Mask commands -/

/-- Settles O31: one read; where the record stands in the order of registers says what follows. -/
theorem getMaskReadsRegisterByRegister : Obligations.GetMaskReadsRegisterByRegister := by
  intro i s f visit shift r e draw acc g hi hdue hr hplace hb he hreply hacc hg
  subst hr hacc hg
  obtain ⟨s2, ha, hpeers, hexec⟩ := hdue.read_ok (readMask_target hplace hb he) hplace hreply
  refine ⟨_, hexec, ha.outside.proceed _, hpeers.proceed _, (State.log_proceed ..).trans ha.log, fun hk => ?more,
    fun hk b hnext => ?next, fun hk hnext => ?last⟩
  case more =>
    rw [readMask_more he hk]
    exact ha.goes_proceed hdue.phase
  case next =>
    rw [readMask_next he hk hnext]
    exact ha.goes_proceed hdue.phase
  case last =>
    rw [readMask_done he hk hnext]
    exact (ha.ended _).1

/-- Settles O32: one read, after which the word with the feature's slots scattered into it is to be written. -/
theorem setMaskReadsRegister : Obligations.SetMaskReadsRegister := by
  intro i s f visit shift mask r e draw hi hdue hr hplace hb he hcount hreply
  subst hr
  obtain ⟨t, hexec, hgoes, houtside, hpeers, hlog⟩ :=
    hdue.read_go (writeMask_target hb he) hplace hreply (writeMask_afterRead he _) hdue.phase
  refine ⟨t, _, hexec, houtside, hpeers, hlog, hgoes, fun slot hslot => ?_, fun j hj => ?_⟩
  · exact getLsbD_scatter_slot _ _ _ _ hslot (by omega)
  · exact getLsbD_scatter_other _ _ _ _ _ _ hj

/-- Settles O33: one write; where the record stands in the order of registers says what follows. -/
theorem setMaskWritesRegister : Obligations.SetMaskWritesRegister := by
  intro i s f visit shift mask e draw hm hi hplace hbusy hb he hreply
  have hrecord := s.dueRecord_running (writeMask s.cfg f visit shift mask) (.inr hplace)
  have hdue := Due.running hi.plan (.inr hplace) hbusy
  obtain ⟨s2, ha, hwrote, hexec⟩ := hdue.write_ok (b := s.record.b) (sel := e.sel)
    (by rw [hrecord]; exact writeMask_target hb he) (by rw [hrecord]; exact hplace) hreply
  rw [hrecord] at ha hwrote hexec
  refine ⟨_, hexec, ha.outside.proceed _, (State.log_proceed ..).trans ha.log,
    (State.ctrl_proceed ..).trans (hwrote.here hm.canonical), hwrote.others.proceed _, fun hk => ?more,
    fun hk b hnext => ?next, fun hk hnext => ?last⟩
  case more =>
    rw [writeMask_more hk]
    exact ha.goes_proceed hbusy
  case next =>
    rw [writeMask_next hk hnext]
    exact ha.goes_proceed hbusy
  case last =>
    rw [writeMask_done hk hnext]
    exact (ha.ended _).1

/-! ### The registers a command reaches -/

/-- The transaction of a step is the one its plan's due record stands at. -/
theorem accesses_of_exec {i : Instr} {s t : State} {x : Transaction} (h : exec i s = .next t)
    (hlog : t.log = x :: s.log) :
    ∃ p b sel, planOf i s.cfg = .ok p ∧ p.target (s.dueRecord p) = some (b, sel)
      ∧ (s.dueRecord p).accesses s.cfg x b sel := by
  have hnone : t.log ≠ s.log := fun hsame => List.cons_ne_self x s.log (hlog.symm.trans hsame)
  have hx : ∀ {y : Transaction}, t.log = y :: s.log → x = y := fun hy => (List.cons.inj (hlog.symm.trans hy)).1
  cases execStep h with
  | rejected _ _ _ ht => exact absurd (ht ▸ rfl) hnone
  | waiting p _ hc _ ht => exact absurd (ht ▸ (waits (planShape hc)).log) hnone
  | readOk p b sel draw s2 hc htarget hp _ ha _ _ ht =>
    have hread := hx (ht ▸ (State.log_proceed s2 _).trans ha.log)
    exact ⟨p, b, sel, hc, htarget, .inl ⟨hp, .inl ⟨_, hread⟩⟩⟩
  | readFail p b sel low s2 hc htarget hp _ ha _ _ ht =>
    have hread := hx (ht ▸ (State.respond_log s2 _).trans ha.log)
    exact ⟨p, b, sel, hc, htarget, .inl ⟨hp, .inr ⟨_, hread⟩⟩⟩
  | writeOk p b sel draw s2 hc htarget hp _ ha _ _ ht =>
    have hwrite := hx (ht ▸ (State.log_proceed s2 _).trans ha.log)
    exact ⟨p, b, sel, hc, htarget, .inr ⟨hp, .inl hwrite⟩⟩
  | writeFail p b sel low s2 hc htarget hp _ ha _ _ ht =>
    have hwrite := hx (ht ▸ (State.respond_log s2 _).trans ha.log)
    exact ⟨p, b, sel, hc, htarget, .inr ⟨hp, .inr ⟨_, hwrite⟩⟩⟩

theorem InFlight.accesses.reads {r : InFlight} {cfg : Config} {x : Transaction} {b : BankId} {sel : Selector}
    (h : r.accesses cfg x b sel) (hplace : r.place = .read) : x.reads b sel := by
  rcases h with ⟨-, hreads⟩ | ⟨hwrite, -⟩
  · exact hreads
  · rw [hplace] at hwrite
    cases hwrite

theorem InFlight.accesses.writes {r : InFlight} {cfg : Config} {x : Transaction} {b : BankId} {sel : Selector}
    (h : r.accesses cfg x b sel) (hplace : r.place = .write) : x.writes b sel (transform cfg r.wbuf) := by
  rcases h with ⟨hread, -⟩ | ⟨-, hwrites⟩
  · rw [hplace] at hread
    cases hread
  · exact hwrites

/-- A plan whose command only reads has a register at a read only. -/
theorem of_ite_some {α : Type} {c : Prop} [Decidable c] {o : Option α} {a : α}
    (h : (if c then o else none) = some a) : c ∧ o = some a := by
  split_ifs at h with hc
  exact ⟨hc, h⟩

/-- Settles O19: by the shape of the command's plan, whose target is the register in question. -/
theorem commandsReachOnlyTheirRegisters : Obligations.CommandsReachOnlyTheirRegisters := by
  intro i s t x h hlog
  obtain ⟨p, b, sel, hc, htarget, haccess⟩ := accesses_of_exec h hlog
  cases planShape hc with
  | readWord hb =>
    obtain ⟨hplace, hbs⟩ := of_ite_some htarget
    cases hbs
    exact ⟨b, hb, haccess.reads hplace⟩
  | @writeWord bank sel' word b' hb =>
    obtain ⟨hplace, hbs⟩ := of_ite_some htarget
    cases hbs
    refine ⟨b, _, hb, haccess.writes hplace, fun hp => ?_, fun hp => ?_⟩
    · rw [(dueRecord_writeWord hp b sel word).2]
    · rw [State.dueRecord_running _ (.inr hp)]
  | readMask hi =>
    obtain ⟨hplace, hregister⟩ := of_ite_some htarget
    cases i <;> simp only [ReadsMask] at hi
    case getm =>
      obtain ⟨b', hb, hf, rfl, rfl⟩ := hi
      obtain ⟨-, hmem, -⟩ := currentRegister_mem hregister
      obtain rfl := List.mem_singleton.1 hmem
      exact ⟨b, _, sel, hb, hf, hregister, haccess.reads hplace⟩
    case mgetm =>
      obtain ⟨hf, rfl, rfl⟩ := hi
      exact ⟨_, b, sel, hf, hregister, haccess.reads hplace⟩
  | writeMask hi =>
    have hregister := htarget
    cases i <;> simp only [WritesMask] at hi
    case setm =>
      obtain ⟨b', hb, hf, -, rfl, rfl, rfl⟩ := hi
      obtain ⟨-, hmem, -⟩ := currentRegister_mem hregister
      obtain rfl := List.mem_singleton.1 hmem
      exact ⟨b, _, sel, _, hb, hf, rfl, hregister, haccess⟩
    case msetm =>
      obtain ⟨hf, -, rfl, rfl, rfl⟩ := hi
      exact ⟨_, b, sel, _, hf, rfl, hregister, haccess⟩
  | readPort hi =>
    obtain ⟨hplace, hregister⟩ := of_ite_some htarget
    obtain ⟨rfl, -⟩ := portRegister_mem hregister
    cases i <;> simp only [ReadsPort] at hi
    case getp =>
      obtain ⟨hb, -, -, rfl⟩ := hi
      exact ⟨b, sel, hb, hregister, haccess.reads hplace⟩
    case mgetp => exact ⟨b, _, sel, hi.2, hregister, haccess.reads hplace⟩
  | writePort hi =>
    have hregister := htarget
    obtain ⟨rfl, -⟩ := portRegister_mem hregister
    cases i <;> simp only [WritesPort] at hi
    case setp =>
      obtain ⟨hb, hf, -, -, rfl, rfl⟩ := hi
      exact ⟨b, _, sel, hb, hf, hregister, haccess⟩
    case msetp =>
      obtain ⟨hf, hroute, -, rfl⟩ := hi
      exact ⟨_, b, _, sel, hf, hroute, hregister, haccess⟩

end Sys2Proof.Machine

/-! PROOFS. The statements of 41_transcode.md and 42_bank_mux.md about a command run with nobody else in between, whatever
the peer devices answer: what a write that returned OK changed (R190, R191), and what one that failed did (R173, R211). -/

namespace Sys2Proof.Machine

/-! ### Mask commands that write -/

/-- A port of a well-formed bank, in the slot of its entry. -/
theorem exists_entry_of_port {cfg : Config} (hwf : cfg.wf = true) {b : BankId} (hb : b ∈ cfg.banks) {p : Nat}
    (hp : p < cfg.ports b) :
    ∃ k e, cfg.entry? b k = some e ∧ e.start ≤ p ∧ p < e.start + e.count ∧ p - e.start < e.count := by
  obtain ⟨k, e, -, he, hlo, hhi⟩ := Config.locate_some hwf hb hp
  exact ⟨k, e, he, hlo, hhi, by omega⟩

/-- A known control bit of a feature, in the register of its port's entry. -/
theorem known_of_ctrlBit {s : State} (hwf : s.cfg.wf = true) {b : BankId} (hb : b ∈ s.cfg.banks) {g : Feature} {q : Nat}
    {y : Bool} (h : s.ctrlBit b g q = some y) :
    ∃ k e, s.cfg.entry? b k = some e ∧ e.start ≤ q ∧ q < e.start + e.count
      ∧ (s.ctrl b e.sel).known.getLsbD (bitPos (s.cfg.info g).off (q - e.start)) = true
      ∧ (s.ctrl b e.sel).value.getLsbD (bitPos (s.cfg.info g).off (q - e.start)) = y := by
  obtain ⟨⟨b', sel⟩, hregister, -⟩ := Option.bind_eq_some_iff.1 h
  obtain ⟨-, k, slot, e, hlocate, he, -⟩ := portRegister_mem hregister
  obtain ⟨e', he', hlo, hhi, -⟩ := Config.locate_eq_some hlocate
  obtain rfl : e = e' := Option.some.inj (he.symm.trans he')
  rw [ctrlBit_at hwf hb he hlo hhi] at h
  split_ifs at h with hknown
  exact ⟨k, e, he, hlo, hhi, hknown, Option.some.inj h⟩

/-- The same, the other way. -/
theorem ctrlBit_of_known {s : State} (hwf : s.cfg.wf = true) {b : BankId} (hb : b ∈ s.cfg.banks) {g : Feature} {q k : Nat}
    {e : Entry} {y : Bool} (he : s.cfg.entry? b k = some e) (hlo : e.start ≤ q) (hhi : q < e.start + e.count)
    (hknown : (s.ctrl b e.sel).known.getLsbD (bitPos (s.cfg.info g).off (q - e.start)) = true)
    (hvalue : (s.ctrl b e.sel).value.getLsbD (bitPos (s.cfg.info g).off (q - e.start)) = y) :
    s.ctrlBit b g q = some y := by
  rw [ctrlBit_at hwf hb he hlo hhi, if_pos hknown, hvalue]

/-- A device knows control bits only (10_state.md R46). -/
theorem ctrlMask_of_known {s : State} (hm : MemoryOk s) {b : BankId} {sel : Selector} {j : Nat}
    (h : (s.ctrl b sel).known.getLsbD j = true) : (s.cfg.ctrlMask b sel).getLsbD j = true :=
  and_not_eq_zero.1 (hm.control b sel) j h

section
variable {i : Instr} {s t : State} {f : Feature} {visit : List BankId} {shift : BankId → Nat} {mask : Word32} {n : Nat}

/-- A `SET_MASK` or `MUX_SET_MASK` that returned OK updated every register it visits, and no other. -/
theorem updated_of_setMask_ok {x : Word32} (hwf : s.cfg.wf = true) (hm : MemoryOk s)
    (hi : WritesMask s.cfg f visit shift mask i) (hp : s.record.place = .start) (hn : 0 < n)
    (h : runAlone i n s = .next t) (hidle : t.record = InFlight.idle)
    (hresponse : t.response = some (Response.done x)) :
    UpdatedBefore s t f visit (hardwareMask s.cfg f mask shift) fun _ _ => True := by
  cases setMask_end hwf hm hi hp hn h hidle with
  | done _ hub => exact hub
  | failed r e low _ _ hr =>
    rw [hr] at hresponse
    cases hresponse

theorem ctrlBit_of_updated {b : BankId} {p : Nat} (hwf : s.cfg.wf = true) (hm : MemoryOk s)
    (hi : WritesMask s.cfg f visit shift mask i) (hcfg : t.cfg = s.cfg)
    (hub : UpdatedBefore s t f visit (hardwareMask s.cfg f mask shift) fun _ _ => True) (hb : b ∈ visit)
    (hp : p < s.cfg.ports b) :
    t.ctrlBit b f p = some (presentBit (s.cfg.info f).pol (mask.getLsbD (shift b + p))) := by
  have hbank := hi.visit.banks hb
  obtain ⟨k, e, he, hlo, hhi, hslot⟩ := exists_entry_of_port hwf hbank hp
  obtain ⟨hknown, hslots, -⟩ := (hub.done b k e hb he trivial).bits hi hwf hm hb he
  have hvalue := hslots (p - e.start) hslot
  rw [show e.start + (p - e.start) = p by omega] at hvalue
  rw [← hcfg] at hwf hbank he
  refine ctrlBit_of_known hwf hbank he hlo hhi ?_ (hcfg ▸ hvalue)
  rw [hknown, hcfg]
  exact ctrlMask_slot (hcfg ▸ hwf) (hcfg ▸ hbank) (hcfg ▸ he) hi.writable hslot

/-- The bits of another feature are none of the feature's. -/
theorem bitPos_ne_of_ne {cfg : Config} (hwf : cfg.wf = true) {f g : Feature} (hne : g ≠ f) (slot slot' : Nat) :
    bitPos (cfg.info g).off slot ≠ bitPos (cfg.info f).off slot' :=
  fun heq => hne (Config.wf_offsets hwf (bitPos_inj heq).1)

theorem ctrlBit_other_of_updated {b : BankId} {g : Feature} {q : Nat} {y : Bool} (hwf : s.cfg.wf = true)
    (hm : MemoryOk s) (hi : WritesMask s.cfg f visit shift mask i) (hcfg : t.cfg = s.cfg)
    (hub : UpdatedBefore s t f visit (hardwareMask s.cfg f mask shift) fun _ _ => True) (hb : b ∈ s.cfg.banks)
    (hne : g ≠ f) (h : s.ctrlBit b g q = some y) : t.ctrlBit b g q = some y := by
  obtain ⟨k, e, he, hlo, hhi, hknown, hvalue⟩ := known_of_ctrlBit hwf hb h
  have hkept : (t.ctrl b e.sel).known.getLsbD (bitPos (s.cfg.info g).off (q - e.start)) = true
      ∧ (t.ctrl b e.sel).value.getLsbD (bitPos (s.cfg.info g).off (q - e.start)) = y := by
    by_cases hvisit : b ∈ visit
    · obtain ⟨hctrl, -, hothers⟩ := (hub.done b k e hvisit he trivial).bits hi hwf hm hvisit he
      rw [hctrl, hothers _ (fun slot _ => bitPos_ne_of_ne hwf hne _ slot) hknown]
      exact ⟨ctrlMask_of_known hm hknown, hvalue⟩
    · rw [hub.rest b e.sel fun hmem => hvisit (mem_registersOf.1 hmem).1]
      exact ⟨hknown, hvalue⟩
  rw [← hcfg] at hwf hb he hkept
  exact ctrlBit_of_known hwf hb he hlo hhi hkept.1 hkept.2

end

/-- Settles O38: the registers a write that returned OK updated, bit by bit. -/
theorem setMaskIsolatesItsFeature : Obligations.SetMaskIsolatesItsFeature := by
  intro i s t f visit shift mask x n hwf hm hi hp hn h hidle hresponse
  have hub := updated_of_setMask_ok hwf hm hi hp hn h hidle hresponse
  have hcfg := runAlone_cfg h
  exact ⟨fun b p hb hport => ctrlBit_of_updated hwf hm hi hcfg hub hb hport,
    fun b g q y hb _ hne hy => ctrlBit_other_of_updated hwf hm hi hcfg hub hb hne hy⟩

/-- Settles O39: the record at which the transaction failed stands at the register that the response names. -/
theorem failedSetMaskIsAppliedInPart : Obligations.FailedSetMaskIsAppliedInPart := by
  intro i s t f visit shift mask b n sel st hwf hm hi hp hn h hidle hresponse
  cases setMask_end hwf hm hi hp hn h hidle with
  | done hr _ =>
    rw [hr] at hresponse
    cases hresponse
  | failed r e low hrb he hr hdone hahead hhere hrest =>
    rw [hr] at hresponse
    simp only [Response.transport, Option.some.injEq, Response.mk.injEq, true_and] at hresponse
    obtain ⟨hbank, -, rfl, -⟩ := hresponse
    obtain rfl : r.b = b := BankId.number_inj hbank
    have hbefore := fun b' k' (hb' : b' ∈ visit) => before_iff hi.visit hrb (k' := k') hb'
    refine ⟨r.k, e, hrb, he, rfl, fun b' k' e' hb' he' hlt => ?_, hhere, fun b' k' e' hb' he' hgt => ?_, hrest⟩
    · exact (hdone b' k' e' hb' he' ((hbefore b' k' hb').2 hlt)).bits hi hwf hm hb' he'
    · refine hahead b' k' e' hb' he' (fun hlt => ?_) fun heq => ?_
      · rcases (hbefore b' k' hb').1 hlt with hlt | ⟨rfl, hlt⟩ <;> rcases hgt with hgt | ⟨heq, hgt⟩
        · omega
        · subst heq; omega
        · omega
        · omega
      · obtain ⟨rfl, rfl⟩ := Prod.mk.inj heq
        omega

/-! ### A mask set and read back -/

/-- A rejected command run alone has ended with its rejection. -/
theorem runAlone_rejected {i : Instr} {n : Nat} {s t : State} {e : Status} (hp : s.record.place = .start)
    (hplan : planOf i s.cfg = .error e) (hn : 0 < n) (h : runAlone i n s = .next t) : t = s.raise e := by
  obtain ⟨m, rfl⟩ := Nat.exists_eq_add_of_lt hn
  have hidle : (s.raise e).record.phase = .idle := by rw [State.raise, State.record_respond]; rfl
  rw [Nat.zero_add, runAlone_end (exec_rejected hp hplan) hidle] at h
  cases h
  rfl

/-- A command that returned OK had passed its checks. -/
theorem exists_planOf_ok {i : Instr} {n : Nat} {s t : State} {x : Word32} (hp : s.record.place = .start) (hn : 0 < n)
    (h : runAlone i n s = .next t) (hresponse : t.response = some (Response.done x)) :
    ∃ p, planOf i s.cfg = .ok p := by
  cases hplan : planOf i s.cfg with
  | ok p => exact ⟨p, rfl⟩
  | error e =>
    rw [runAlone_rejected hp hplan hn h, State.raise, State.response_respond] at hresponse
    cases hresponse

/-- The checks of `SET_MASK` (60_exceptions.md R236). -/
theorem writesMask_of_planOf_setm {cfg : Config} {bank : BitVec 2} {feat : BitVec 4} {mask : Word32} {p : Plan}
    {b : BankId} (hb : bankOf cfg bank = some b) (h : planOf (.setm bank feat mask) cfg = .ok p) :
    ∃ f, featureOf feat = some f ∧ WritesMask cfg f [b] (fun _ => 0) mask (.setm bank feat mask) := by
  simp only [planOf, planSetm, bind_eq_ok, checkBank_ok, checkFeature_ok, checkWritable_ok] at h
  obtain ⟨-, -, f, hf, -, hwritable, -⟩ := h
  exact ⟨f, hf, b, hb, hf, hwritable, rfl, rfl, rfl⟩

/-- How a `GET_MASK` or `MUX_GET_MASK` run alone ends, over registers whose bits of the feature are known. -/
theorem getMask_end {i : Instr} {s t : State} {f : Feature} {visit : List BankId} {shift : BankId → Nat} {n : Nat}
    (hwf : s.cfg.wf = true) (hi : ReadsMask s.cfg f visit shift i)
    (hknown : ∀ b k e slot, b ∈ visit → s.cfg.entry? b k = some e → slot < e.count →
      (s.ctrl b e.sel).known.getLsbD (bitPos (s.cfg.info f).off slot) = true
        ∧ (s.cfg.ctrlMask b e.sel).getLsbD (bitPos (s.cfg.info f).off slot) = true)
    (hp : s.record.place = .start) (hn : 0 < n) (h : runAlone i n s = .next t) (hidle : t.record = InFlight.idle) :
    GetEnd s t f visit shift fun b k => (s.ctrl b (s.cfg.entry b k).sel).value :=
  runAlone_induction (P := fun u => (u.cfg = s.cfg ∧ SamePeers s u) ∧ GetProgress s u f visit shift _)
    (fun _ _ hu hexec => getProgress_step hwf hi
      (fun b k e slot hb he hslot => ⟨(hknown b k e slot hb he hslot).1, (hknown b k e slot hb he hslot).2, by
        rw [Config.entry_of_entry? he]⟩) hu hexec)
    ⟨⟨rfl, fun _ _ => rfl⟩, .waiting (.inl hp)⟩ hn h (by rw [hidle]; rfl)

/-- A word with the bits of a mask at a bank's ports and no other is the mask restricted to them. -/
theorem eq_and_ones_of_ports {cfg : Config} (hwf : cfg.wf = true) {b : BankId} (hb : b ∈ cfg.banks) {g mask : Word32}
    (hports : ∀ k e slot, cfg.entry? b k = some e → slot < e.count →
      g.getLsbD (e.start + slot) = mask.getLsbD (e.start + slot))
    (hrest : ∀ j, cfg.ports b ≤ j → g.getLsbD j = false) : g = mask &&& ones (cfg.ports b) := by
  apply BitVec.eq_of_getLsbD_eq
  intro j hj
  rw [BitVec.getLsbD_and, getLsbD_ones]
  by_cases hport : j < cfg.ports b
  · obtain ⟨k, e, he, hlo, -, hslot⟩ := exists_entry_of_port hwf hb hport
    have hbit := hports k e (j - e.start) he hslot
    rw [show e.start + (j - e.start) = j by omega] at hbit
    simp only [hbit, hj, hport, and_self, decide_true, Bool.and_true]
  · simp only [hrest j (Nat.le_of_not_lt hport), hport, and_false, decide_false, Bool.and_false]

/-- Settles O36: the write made every bit of the feature known at the hardware value of its presented bit, and the read
presents it again. -/
theorem setMaskThenGetMaskRoundTrips : Obligations.SetMaskThenGetMaskRoundTrips := by
  intro s t t' u bank feat mask x r b n m hwf hm hbank hp hn hset hidle hx hcfg' hctrl hp' hm0 hget hidle' hr
  obtain ⟨p, hplan⟩ := exists_planOf_ok hp hn hset hx
  obtain ⟨f, hf, hi⟩ := writesMask_of_planOf_setm hbank hplan
  have hub := updated_of_setMask_ok hwf hm hi hp hn hset hidle hx
  have hb := (bankOf_eq_some hbank).1
  have hcfg : t'.cfg = s.cfg := hcfg'.trans (runAlone_cfg hset)
  have hbits : ∀ k e slot, t'.cfg.entry? b k = some e → slot < e.count →
      (t'.ctrl b e.sel).known.getLsbD (bitPos (t'.cfg.info f).off slot) = true
        ∧ (t'.cfg.ctrlMask b e.sel).getLsbD (bitPos (t'.cfg.info f).off slot) = true
        ∧ (t'.ctrl b e.sel).value.getLsbD (bitPos (t'.cfg.info f).off slot) =
          presentBit (t'.cfg.info f).pol (mask.getLsbD (e.start + slot)) := by
    intro k e slot he hslot
    have hsame : t'.ctrl b e.sel = t.ctrl b e.sel := hctrl e (hcfg' ▸ Config.entry?_mem he)
    rw [hcfg] at he ⊢
    obtain ⟨hknown, hvalue, -⟩ := (hub.done b k e (by simp) he trivial).bits hi hwf hm (by simp) he
    have hmask := ctrlMask_slot hwf hb he hi.writable hslot
    have hslotValue := hvalue slot hslot
    rw [Nat.zero_add] at hslotValue
    rw [hsame, hknown]
    exact ⟨hmask, hmask, hslotValue⟩
  have hreads : ReadsMask t'.cfg f [b] (fun _ => 0) (.getm bank feat) := ⟨b, hcfg ▸ hbank, hf, rfl, rfl⟩
  have hend := getMask_end (hcfg ▸ hwf) hreads (fun b' k e slot hb' he hslot => by
    obtain rfl := List.mem_singleton.1 hb'
    exact ⟨(hbits k e slot he hslot).1, (hbits k e slot he hslot).2.1⟩) hp' hm0 hget hidle'
  cases hend with
  | failed b' sel st hfail =>
    rw [hfail] at hr
    cases hr
  | done g hg hports hrest =>
    obtain rfl : g = r := by
      rw [hg] at hr
      cases hr
      rfl
    rw [← hcfg]
    refine eq_and_ones_of_ports (hcfg ▸ hwf) (hcfg ▸ hb) (fun k e slot he hslot => ?_) fun j hj => ?_
    · have hbit := hports b k e slot (by simp) he hslot
      obtain ⟨-, -, hvalue⟩ := hbits k e slot he hslot
      rw [Config.entry_of_entry? he, hvalue, presentBit_presentBit, Nat.zero_add] at hbit
      exact hbit
    · exact hrest j fun b' hb' => .inr (by simpa [List.mem_singleton.1 hb'] using hj)

/-! ### Port commands that write -/

/-- The word a `SET_PORT` puts together for a register: the bit at `pos` is `x`, every bit that was known is as it
was. -/
structure PortMerged (s : State) (b : BankId) (sel : Selector) (pos : Nat) (x : Bool) (w : RegWord) : Prop where
  bit    : w.getLsbD pos = x
  others : ∀ j, j ≠ pos → (s.ctrl b sel).known.getLsbD j = true → w.getLsbD j = (s.ctrl b sel).value.getLsbD j

/-- Where a `SET_PORT` or `MUX_SET_PORT` that began in `s` stands in `u`: nothing written yet, and at the write the word
put together. -/
structure PortProgress (s u : State) (b : BankId) (sel : Selector) (pos : Nat) (x : Bool) : Prop where
  cfg   : u.cfg = s.cfg
  peer  : ∀ b', u.peer b' = s.peer b'
  place : (u.record.place = .start ∨ u.record.place = .lock) ∨
    u.record.place = .write ∧ PortMerged s b sel pos x u.record.wbuf

/-- What such a command has written if it ended with OK. -/
def PortEnd (s t : State) (b : BankId) (sel : Selector) (pos : Nat) (x : Bool) : Prop :=
  ∀ y, t.response = some (Response.done y) →
    ∃ w, PortMerged s b sel pos x w ∧ Wrote s t b sel ⟨s.cfg.ctrlMask b sel, w &&& s.cfg.ctrlMask b sel⟩

/-- An error response is no OK. -/
theorem portEnd_of_transport {s s2 : State} (b : BankId) (sel : Selector) (pos : Nat) (x : Bool) {cfg : Config}
    {b' : BankId} {sel' : Selector} {st : Word32} :
    PortEnd s (s2.respond (Response.transport cfg b' sel' st)) b sel pos x := by
  intro y hy
  rw [State.response_respond] at hy
  cases hy

/-- The word read with the port's bit set. -/
theorem portMerged_setBit {s u : State} (hm : MemoryOk s) (hcfg : u.cfg = s.cfg) (hpeer : ∀ b', u.peer b' = s.peer b')
    (b : BankId) (sel : Selector) {pos : Nat} (hpos : pos < 16) (x : Bool) (draw : RegWord) :
    PortMerged s b sel pos x (setBit (u.logicalWord b sel draw) pos x) where
  bit := by rw [getLsbD_setBit, if_pos ⟨rfl, hpos⟩]
  others j hne hknown := by
    rw [getLsbD_setBit, if_neg fun h => hne h.1, logicalWord_congr hcfg (samePeers_of_peer hpeer b sel)]
    exact getLsbD_logicalWord_known hm hknown draw

section
variable {i : Instr} {s u t : State} {f : Feature} {b : BankId} {p : Nat} {v : Bool} {sel : Selector}

/-- The due record of a `SET_PORT` reads where the command enters, and writes the word put together where it stands at
the write. -/
theorem PortProgress.dueRecord {pos : Nat} {x : Bool} (hu : PortProgress s u b sel pos x) :
    ((u.dueRecord (writePort s.cfg f b p v)).place = .read
        ∧ (u.dueRecord (writePort s.cfg f b p v)).phase = .busy) ∨
      (u.dueRecord (writePort s.cfg f b p v)).place = .write
        ∧ PortMerged s b sel pos x (u.dueRecord (writePort s.cfg f b p v)).wbuf := by
  rcases hu.place with hstart | ⟨hwrite, hmerged⟩
  · rw [State.dueRecord_start _ hstart]
    exact .inl ⟨rfl, rfl⟩
  · rw [State.dueRecord_running _ (.inr hwrite)]
    exact .inr ⟨hwrite, hmerged⟩

/-- One step of a `SET_PORT` or `MUX_SET_PORT`. -/
theorem portProgress_step (hm : MemoryOk s) (hi : WritesPort s.cfg f b p v i)
    (hregister : portRegister s.cfg b p = some (b, sel)) (hpos : portBit s.cfg f b p < 16)
    (hu : PortProgress s u b sel (portBit s.cfg f b p) (presentBit (s.cfg.info f).pol v)) (h : exec i u = .next t) :
    PortEnd s t b sel (portBit s.cfg f b p) (presentBit (s.cfg.info f).pol v) ∧ t.record.phase = .idle
      ∨ PortProgress s t b sel (portBit s.cfg f b p) (presentBit (s.cfg.info f).pol v) ∧ t.record.phase = .busy := by
  have hplan : planOf i u.cfg = .ok (writePort s.cfg f b p v) := by rw [hu.cfg]; exact hi.plan
  have hidle : ∀ (s2 : State) (r : Response), (s2.respond r).record.phase = .idle := fun s2 r => by
    rw [State.record_respond]; rfl
  cases execStep h with
  | rejected e _ hc _ =>
    rw [hplan] at hc
    cases hc
  | waiting p' _ hc _ ht =>
    have hwaits := ht ▸ waits (planShape hc)
    have hphase : t.record.phase = .busy := by rw [hwaits.record]; exact ((planShape hc).enter _).1
    refine .inr ⟨⟨hwaits.outside.cfg.trans hu.cfg, fun b' => (hwaits.peer b').trans (hu.peer b'), .inl (.inr ?_)⟩, hphase⟩
    rw [hwaits.record]; rfl
  | readOk p' b' sel' draw s2 hc htarget hplace _ ha _ hpeer ht =>
    obtain rfl := Except.ok.inj (hplan.symm.trans hc)
    obtain ⟨rfl, rfl⟩ := Prod.mk.inj (Option.some.inj (hregister.symm.trans htarget))
    have hphase : (u.dueRecord (writePort s.cfg f b p v)).phase = .busy := by
      rcases hu.dueRecord (f := f) (p := p) (v := v) with ⟨-, hphase⟩ | ⟨hwrite, -⟩
      · exact hphase
      · rw [hplace] at hwrite; cases hwrite
    have hrecord : t.record = { u.dueRecord (writePort s.cfg f b p v) with
        wbuf := setBit (u.logicalWord b sel draw) (portBit s.cfg f b p) (presentBit (s.cfg.info f).pol v)
        place := .write } := by
      rw [ht]
      exact State.record_setRecord s2 hphase
    refine .inr ⟨⟨?_, fun b' => ?_, .inr ⟨by rw [hrecord], ?_⟩⟩, by rw [hrecord]; exact hphase⟩
    · rw [ht, State.cfg_proceed, ha.outside.cfg, hu.cfg]
    · rw [ht, State.peer_proceed, hpeer, hu.peer]
    · rw [hrecord]
      exact portMerged_setBit hm hu.cfg hu.peer b sel hpos _ draw
  | writeOk p' b' sel' draw s2 hc htarget hplace _ ha _ hwrote ht =>
    obtain rfl := Except.ok.inj (hplan.symm.trans hc)
    obtain ⟨rfl, rfl⟩ := Prod.mk.inj (Option.some.inj (hregister.symm.trans htarget))
    have hmerged : PortMerged s b sel (portBit s.cfg f b p) (presentBit (s.cfg.info f).pol v)
        (u.dueRecord (writePort s.cfg f b p v)).wbuf := by
      rcases hu.dueRecord (f := f) (p := p) (v := v) with ⟨hread, -⟩ | ⟨-, hmerged⟩
      · rw [hplace] at hread; cases hread
      · exact hmerged
    have hself := (hwrote.proceed (.done 0)).self
    rw [hu.peer, hu.cfg] at hself
    subst ht
    exact .inl ⟨fun y _ => ⟨_, hmerged, hself, fun b' hne =>
      ((hwrote.proceed (.done 0)).other b' hne).trans (hu.peer b')⟩, hidle s2 _⟩
  | readFail _ _ _ _ s2 _ _ _ _ _ _ _ ht => exact .inl ⟨ht ▸ portEnd_of_transport _ _ _ _, ht ▸ hidle s2 _⟩
  | writeFail _ _ _ _ s2 _ _ _ _ _ _ _ ht => exact .inl ⟨ht ▸ portEnd_of_transport _ _ _ _, ht ▸ hidle s2 _⟩

end

/-- Settles O37: the register written holds the word put together; a known control bit of another port, feature or bank
is in another register, or at another position of that word. -/
theorem setPortIsolatesItsBit : Obligations.SetPortIsolatesItsBit := by
  intro i s t f b p v x n hwf hm hi hp hn h hidle hresponse
  obtain ⟨hb, hport, hwritable⟩ := hi.bank
  obtain ⟨k, e, he, hlo, hhi, hslot⟩ := exists_entry_of_port hwf hb hport
  have hlocate := Config.locate_of_entry hwf hb he hlo hhi
  have hcfg := runAlone_cfg h
  have hpos : portBit s.cfg f b p = bitPos (s.cfg.info f).off (p - e.start) := portBit_eq hlocate
  have hpos16 : portBit s.cfg f b p < 16 := by
    have := Config.entry_bounds hwf hb he
    rw [hpos]
    exact bitPos_lt (by omega)
  have hend : PortEnd s t b e.sel (portBit s.cfg f b p) (presentBit (s.cfg.info f).pol v) :=
    runAlone_induction (fun _ _ hu => portProgress_step hm hi (portRegister_eq hlocate he) hpos16 hu)
      ⟨rfl, fun _ => rfl, .inl (.inl hp)⟩ hn h (by rw [hidle]; rfl)
  obtain ⟨w, hmerged, hwrote⟩ := hend x hresponse
  have hctrl := hwrote.here hm.canonical
  refine ⟨?_, fun b' g q y hb' hg hne hy => ?_⟩
  · have hmask := ctrlMask_slot hwf hb he hwritable hslot
    have hbit := hmerged.bit
    rw [← hcfg] at hwf hb he
    refine ctrlBit_of_known hwf hb he hlo hhi ?_ ?_
    · rw [hctrl, hcfg]
      exact hmask
    · rw [hctrl, BitVec.getLsbD_and, hcfg, hmask, Bool.and_true, ← hpos, hbit]
  · obtain ⟨k', e', he', hlo', hhi', hknown, hvalue⟩ := known_of_ctrlBit hwf hb' hy
    have hkept : (t.ctrl b' e'.sel).known.getLsbD (bitPos (s.cfg.info g).off (q - e'.start)) = true
        ∧ (t.ctrl b' e'.sel).value.getLsbD (bitPos (s.cfg.info g).off (q - e'.start)) = y := by
      by_cases hsame : (b', e'.sel) = (b, e.sel)
      · obtain ⟨rfl, hsel⟩ := Prod.mk.inj hsame
        obtain rfl := Config.entry_sel_inj hwf hb he' he hsel
        obtain rfl : e = e' := Option.some.inj (he.symm.trans he')
        have hother : bitPos (s.cfg.info g).off (q - e.start) ≠ portBit s.cfg f b' p := by
          rw [hpos]
          intro heq
          obtain ⟨hoff, hslots⟩ := bitPos_inj heq
          exact hne (by rw [Config.wf_offsets hwf hoff, show q = p by omega])
        have hmask := ctrlMask_of_known hm hknown
        rw [hctrl]
        exact ⟨hmask, by rw [BitVec.getLsbD_and, hmask, Bool.and_true, hmerged.others _ hother hknown, hvalue]⟩
      · rw [hwrote.others b' e'.sel hsame]
        exact ⟨hknown, hvalue⟩
    rw [← hcfg] at hwf hb' he' hkept
    exact ctrlBit_of_known hwf hb' he' hlo' hhi' hkept.1 hkept.2

end Sys2Proof.Machine

/-! PROOFS. The statement of 70_reset_and_hazards.md about a whole run of a command with nobody else in between: it ends
within the transactions its plan has, whatever the peer devices answer (R276, R286). -/

namespace Sys2Proof.Machine

/-! ### Where a run stands -/

/-- Caller's command `i`, begun in `s`, is due in `u` to make its next transaction with record `r`. -/
structure Standing (s u : State) (i : Instr) (p : Plan) (r : InFlight) : Prop where
  along  : Along s u p
  due    : Due u i p
  record : u.dueRecord p = r

section
variable {s u s2 : State} {i : Instr} {p : Plan} {r r' : InFlight} {x : Transaction}

theorem standing_start (hc : planOf i s.cfg = .ok p) (hp : s.record.place = .start ∨ s.record.place = .lock)
    (hfree : s.locksFree p.locks) :
    Standing s s i p { p.enter { s.record with phase := .busy } with place := p.first } :=
  ⟨⟨SameOutside.refl s, LocksTaken.refl s p⟩, Due.start hc hp hfree, s.dueRecord_start p hp⟩

theorem Standing.phase (h : Standing s u i p r) : r.phase = .busy :=
  h.record ▸ h.due.phase

theorem Standing.plan (h : Standing s u i p r) : planOf i s.cfg = .ok p :=
  h.along.outside.cfg ▸ h.due.checks

/-- The run goes on after a transaction. -/
theorem Standing.go (h : Standing s u i p r) (ha : After u s2 p x) (hbusy : r'.phase = .busy)
    (hactive : r'.place.active) : Standing s (s2.proceed (.go r')) i p r' := by
  have hrecord : (s2.proceed (.go r')).record = r' := State.record_setRecord s2 hbusy
  have hcfg : (s2.proceed (.go r')).cfg = u.cfg := ha.outside.cfg
  refine ⟨(h.along.after ha).setRecord r', Due.running ?_ ?_ ?_, ?_⟩
  · rw [hcfg]
    exact h.due.checks
  · rwa [hrecord]
  · rwa [hrecord]
  · rw [State.dueRecord_running p (by rwa [hrecord]), hrecord]

/-- The run takes another step. -/
theorem runAlone_proceed_go {n : Nat} (hexec : exec i u = .next (s2.proceed (.go r'))) (hbusy : r'.phase = .busy) :
    runAlone i (n + 1) u = runAlone i n (s2.proceed (.go r')) :=
  runAlone_go hexec ((congrArg InFlight.phase (State.record_setRecord s2 hbusy)).trans hbusy)

/-- The run is over. -/
theorem runAlone_respond {n : Nat} {y : Response} (hexec : exec i u = .next (s2.respond y)) :
    runAlone i (n + 1) u = .next (s2.respond y) :=
  runAlone_end hexec (by rw [State.record_respond]; rfl)

/-! ### Every run ends -/

/-- The due transaction is made, and the command ends with an error, or does what its plan has follow a success. -/
theorem Standing.step {b : BankId} {sel : Selector} (h : Standing s u i p r) (htarget : p.target r = some (b, sel))
    (hplace : r.place.active) :
    ∃ x s2, After u s2 p x ∧
      ((∃ st, exec i u = .next (s2.respond (Response.transport u.cfg b sel st))) ∨
        (∃ w, r.place = .read ∧ exec i u = .next (s2.proceed (p.afterRead r w))) ∨
        r.place = .write ∧ exec i u = .next (s2.proceed (p.afterWrite r))) := by
  obtain ⟨-, hdue, rfl⟩ := h
  rcases hplace with hread | hwrite
  · cases hreply : u.reply with
    | ok draw =>
      obtain ⟨s2, ha, -, hexec⟩ := hdue.read_ok htarget hread hreply
      exact ⟨_, s2, ha, .inr (.inl ⟨_, hread, hexec⟩)⟩
    | fail low =>
      obtain ⟨s2, ha, -, hexec⟩ := hdue.read_fail htarget hread hreply
      exact ⟨_, s2, ha, .inl ⟨_, hexec⟩⟩
  · cases hreply : u.reply with
    | ok draw =>
      obtain ⟨s2, ha, -, hexec⟩ := hdue.write_ok htarget hwrite hreply
      exact ⟨_, s2, ha, .inr (.inr ⟨hwrite, hexec⟩)⟩
    | fail low =>
      obtain ⟨s2, ha, -, hexec⟩ := hdue.write_fail htarget hwrite hreply
      exact ⟨_, s2, ha, .inl ⟨_, hexec⟩⟩

/-- A run with at most `n` transactions to come ends within `n` steps, whatever the replies. -/
theorem runAlone_ends {μ : InFlight → Nat} (hμ : CommandMeasure p μ) (hwf : s.cfg.wf = true) {n : Nat}
    (h : Standing s u i p r) (hactive : r.place.active) (htarget : (p.target r).isSome) (hn : μ r ≤ n) :
    ∃ t y, runAlone i n u = .next t ∧ Ended s t y ∧ (y.status = .ok ∨ y.status = .transportError) := by
  induction n generalizing u r with
  | zero =>
    have := hμ.pos r htarget hactive
    omega
  | succ n ih =>
    obtain ⟨⟨b, sel⟩, hregister⟩ := Option.isSome_iff_exists.1 htarget
    have hproceed : ∀ {s2 : State} {x : Transaction} {q : Progress}, After u s2 p x → exec i u = .next (s2.proceed q) →
        (∀ r', q = .go r' → GoesOn s.cfg p r r' ∧ μ r' < μ r) →
        ∃ t y, runAlone i (n + 1) u = .next t ∧ Ended s t y ∧ (y.status = .ok ∨ y.status = .transportError) := by
      intro s2 x q ha hexec hgo
      cases q with
      | done w => exact ⟨_, _, runAlone_respond hexec, ((h.along.after ha).ended _).1, .inl rfl⟩
      | go r' =>
        obtain ⟨hgoes, hless⟩ := hgo r' rfl
        have hbusy : r'.phase = .busy := hgoes.same.1.trans h.phase
        rw [runAlone_proceed_go hexec hbusy]
        exact ih (h.go ha hbusy hgoes.active) hgoes.active (hgoes.target hwf) (by omega)
    obtain ⟨x, s2, ha, ⟨st, hexec⟩ | ⟨w, hread, hexec⟩ | ⟨hwrite, hexec⟩⟩ := h.step hregister hactive
    · exact ⟨_, _, runAlone_respond hexec, ((h.along.after ha).ended _).1, .inr rfl⟩
    · exact hproceed ha hexec fun r' hr' =>
        ⟨(planShape h.plan).afterRead htarget hread hr', hμ.read r r' w htarget hread hr'⟩
    · exact hproceed ha hexec fun r' hr' =>
        ⟨(planShape h.plan).afterWrite htarget hr', hμ.write r r' htarget hwrite hr'⟩

end

/-- Settles O40: a command enters with at most 16 transactions to come (`commandMeasure`), and each step makes one. -/
theorem everyCommandAloneEnds : Obligations.EveryCommandAloneEnds := by
  intro i s p hwf hp hc hfree
  have hshape := planShape hc
  obtain ⟨μ, hμ⟩ := commandMeasure hwf hshape
  exact runAlone_ends hμ hwf (standing_start hc hp hfree) hshape.first (hshape.enter_target hwf _) (hμ.enter _)

end Sys2Proof.Machine

/-! PROOFS. The statement of 41_transcode.md and 42_bank_mux.md about a whole run of `GET_MASK` and `MUX_GET_MASK` with
nobody else in between and no transaction failing (R160, R161, R164, R205), and the order in which mask commands visit
their registers (R285). -/

namespace Sys2Proof.Machine

/-! ### The order of a mask command's registers -/

section
variable {cfg : Config} {visit : List BankId} {α : Type} {draws : List α}
  {done todo : List ((BankId × Selector) × α)}

/-- The next of the registers still to come is the one a record stands at, with the reply drawn for it. -/
theorem todo_eq_cons (hv : VisitOk cfg visit) (hlen : draws.length = (registersOf cfg visit).length)
    (hsplit : (registersOf cfg visit).zip draws = done ++ todo) {b : BankId} (hb : b ∈ visit) {k : Nat} {e : Entry}
    (he : cfg.entry? b k = some e) (hpos : done.length = position cfg visit b k) :
    ∃ d todo', todo = ((b, e.sel), d) :: todo' ∧ draws[position cfg visit b k]? = some d := by
  have hlt : position cfg visit b k < draws.length := hlen ▸ position_lt hv hb (Config.entry?_lt he)
  obtain ⟨d, hd⟩ : ∃ d, draws[position cfg visit b k]? = some d := ⟨_, List.getElem?_eq_getElem hlt⟩
  have hzip : ((registersOf cfg visit).zip draws)[position cfg visit b k]? = some ((b, e.sel), d) :=
    List.getElem?_zip_eq_some.2 ⟨registersOf_position hv hb he, hd⟩
  rw [hsplit, ← hpos, List.getElem?_append_right (Nat.le_refl _), Nat.sub_self] at hzip
  cases todo with
  | nil => cases hzip
  | cons x todo' =>
    obtain rfl : x = ((b, e.sel), d) := Option.some.inj hzip
    exact ⟨d, todo', rfl, hd⟩

/-- After the last register none is to come. -/
theorem todo_eq_nil (hv : VisitOk cfg visit) (hlen : draws.length = (registersOf cfg visit).length)
    {x : (BankId × Selector) × α} (hsplit : (registersOf cfg visit).zip draws = done ++ x :: todo) {b : BankId}
    (hb : b ∈ visit) {k : Nat} (hpos : done.length = position cfg visit b k) (hk : k + 1 = cfg.nreg b)
    (hnext : nextBank visit b = none) : todo = [] := by
  have hlast := position_last hv hb hnext hk
  have hlength := congrArg List.length hsplit
  simp only [List.length_zip, List.length_append, List.length_cons] at hlength
  exact List.eq_nil_of_length_eq_zero (by omega)

end

/-- The replies ahead are used one by one. -/
theorem State.answers_cons {s : State} {d : RegWord} {draws : List RegWord} (h : s.answers (d :: draws)) :
    s.reply = .ok d ∧ ∀ s2 : State, s2.bus = s.bus.tail → s2.answers draws := by
  obtain ⟨rest, hbus⟩ := h
  exact ⟨(State.reply_of_bus hbus).1, fun s2 htail => ⟨rest, by rw [htail, hbus]; rfl⟩⟩

/-! ### A mask read alone -/

/-- The transaction that reads a register, the peer device choosing a word. -/
def readOf (s : State) (x : (BankId × Selector) × RegWord) : Transaction :=
  .read x.1.1 x.1.2 (s.wireWord x.1.1 x.1.2 x.2)

/-- The logical word read from entry `k` of bank `b`. -/
def wordRead (s : State) (visit : List BankId) (draws : List RegWord) (b : BankId) (k : Nat) : RegWord :=
  s.logicalWord b (s.cfg.entry b k).sel (draws[position s.cfg visit b k]?.getD 0)

/-- Where a `GET_MASK` or `MUX_GET_MASK` run alone stands before a read: the registers of `done` are read, those of `todo`
are to come. -/
structure MaskReading (s u : State) (i : Instr) (f : Feature) (visit : List BankId) (shift : BankId → Nat)
    (draws : List RegWord) (done todo : List ((BankId × Selector) × RegWord)) (r : InFlight) : Prop where
  standing : Standing s u i (readMask s.cfg f visit shift) r
  peers    : SamePeers s u
  split    : (registersOf s.cfg visit).zip draws = done ++ todo
  position : done.length = position s.cfg visit r.b r.k
  bank     : r.b ∈ visit
  entry    : r.k < s.cfg.nreg r.b
  place    : r.place = .read
  gathered : Gathered s.cfg f visit shift (wordRead s visit draws) r
  answers  : u.answers (todo.map Prod.snd)
  log      : u.log = (done.map (readOf s)).reverse ++ s.log

/-- How such a run ends. -/
structure MaskAnswered (s t : State) (f : Feature) (visit : List BankId) (shift : BankId → Nat)
    (draws : List RegWord) (g : Word32) : Prop where
  ended   : Ended s t (Response.done g)
  outside : SameOutside s t
  peers   : SamePeers s t
  log     : t.log = (((registersOf s.cfg visit).zip draws).map (readOf s)).reverse ++ s.log
  ports   : ∀ b k e slot, b ∈ visit → s.cfg.entry? b k = some e → slot < e.count →
    g.getLsbD (shift b + (e.start + slot)) =
      presentBit (s.cfg.info f).pol ((wordRead s visit draws b k).getLsbD (bitPos (s.cfg.info f).off slot))
  rest    : ∀ j, (∀ b ∈ visit, j < shift b ∨ shift b + s.cfg.ports b ≤ j) → g.getLsbD j = false

section
variable {s u : State} {i : Instr} {f : Feature} {visit : List BankId} {shift : BankId → Nat} {draws : List RegWord}
  {done todo : List ((BankId × Selector) × RegWord)} {r : InFlight}

/-- The next read: it succeeds with the next reply, and its word is the one to be gathered. -/
theorem MaskReading.read (h : MaskReading s u i f visit shift draws done todo r) (hv : VisitOk s.cfg visit)
    (hlen : draws.length = (registersOf s.cfg visit).length) {e : Entry} (he : s.cfg.entry? r.b r.k = some e) :
    ∃ d todo' s2, todo = ((r.b, e.sel), d) :: todo' ∧ After u s2 (readMask s.cfg f visit shift) (readOf s ((r.b, e.sel), d))
      ∧ SamePeers s s2 ∧ s2.answers (todo'.map Prod.snd)
      ∧ s2.log = ((done ++ [((r.b, e.sel), d)]).map (readOf s)).reverse ++ s.log
      ∧ exec i u = .next (s2.proceed ((readMask s.cfg f visit shift).afterRead r (wordRead s visit draws r.b r.k))) := by
  obtain ⟨d, todo', rfl, hd⟩ := todo_eq_cons hv hlen h.split h.bank he h.position
  obtain ⟨hreply, hanswers⟩ := State.answers_cons h.answers
  have hcfg := h.standing.along.outside.cfg
  have hsame := h.peers r.b e.sel
  obtain ⟨s2, ha, hpeers, hexec⟩ := h.standing.due.read_ok (b := r.b) (sel := e.sel)
    (by rw [h.standing.record]; exact readMask_target h.place h.bank he) (by rw [h.standing.record]; exact h.place) hreply
  rw [h.standing.record, logicalWord_congr hcfg hsame] at hexec
  rw [wireWord_congr hcfg hsame] at ha
  have hword : wordRead s visit draws r.b r.k = s.logicalWord r.b e.sel d := by
    rw [wordRead, Config.entry_of_entry? he, hd, Option.getD_some]
  refine ⟨d, todo', s2, rfl, ha, fun b sel => (hpeers b sel).trans (h.peers b sel), hanswers s2 ha.bus, ?_, ?_⟩
  · rw [ha.log, h.log, List.map_append, List.reverse_append]
    rfl
  · rw [hword]
    exact hexec

/-- A `GET_MASK` or `MUX_GET_MASK` run alone, from any of its reads on. -/
theorem runAlone_readMask (hwf : s.cfg.wf = true) (hi : ReadsMask s.cfg f visit shift i)
    (hlen : draws.length = (registersOf s.cfg visit).length) (h : MaskReading s u i f visit shift draws done todo r) :
    ∃ t g, runAlone i todo.length u = .next t ∧ MaskAnswered s t f visit shift draws g := by
  have hv := hi.visit
  have hsh := hi.shiftOk hwf
  induction todo generalizing u done r with
  | nil =>
    obtain ⟨e, he⟩ := Config.entry?_of_lt h.entry
    obtain ⟨d, todo', hnil, -⟩ := todo_eq_cons hv hlen h.split h.bank he h.position
    cases hnil
  | cons x todo ih =>
    obtain ⟨e, he⟩ := Config.entry?_of_lt h.entry
    obtain ⟨d, todo', s2, hcons, ha, hpeers, hanswers, hlog, hexec⟩ := h.read hv hlen he
    obtain ⟨rfl, rfl⟩ := List.cons.inj hcons
    have hbusy := h.standing.phase
    have hsplit : (registersOf s.cfg visit).zip draws = (done ++ [((r.b, e.sel), d)]) ++ todo := by
      rw [h.split, List.append_assoc, List.singleton_append]
    have hdone : (done ++ [((r.b, e.sel), d)]).length = position s.cfg visit r.b r.k + 1 := by
      rw [List.length_append, h.position]
      rfl
    by_cases hk : r.k + 1 < s.cfg.nreg r.b
    · rw [readMask_more he hk] at hexec
      rw [List.length_cons, runAlone_proceed_go hexec hbusy]
      exact ih {
        standing := h.standing.go ha hbusy (.inl h.place), peers := hpeers.proceed _, split := hsplit
        position := hdone, bank := h.bank, entry := hk, place := h.place
        gathered := h.gathered.more hwf (hv.banks h.bank) he rfl rfl rfl rfl
        answers := hanswers, log := hlog }
    · have hk' : s.cfg.nreg r.b ≤ r.k + 1 := Nat.le_of_not_lt hk
      have hlast : r.k + 1 = s.cfg.nreg r.b := Nat.le_antisymm h.entry hk'
      cases hnext : nextBank visit r.b with
      | some b =>
        rw [readMask_next he hk' hnext] at hexec
        rw [List.length_cons, runAlone_proceed_go hexec hbusy]
        have hb := nextBank_mem hnext
        exact ih {
          standing := h.standing.go ha hbusy (.inl h.place), peers := hpeers.proceed _, split := hsplit
          position := hdone.trans (position_next hv hnext hlast).symm, bank := hb
          entry := Config.nreg_pos hwf (hv.banks hb), place := h.place
          gathered := h.gathered.next hwf hv hsh h.bank he hk' hnext rfl rfl rfl
          answers := hanswers, log := hlog }
      | none =>
        rw [readMask_done he hk' hnext] at hexec
        obtain rfl := todo_eq_nil hv hlen h.split h.bank h.position hlast hnext
        obtain ⟨hports, hrest⟩ := h.gathered.bank hwf hv hsh h.bank he hk' rfl
        obtain ⟨hended, houtside⟩ := (h.standing.along.after ha).ended _
        refine ⟨_, _, runAlone_respond hexec, hended, houtside, hpeers.respond _, ?_, fun b k e' slot hb => ?_,
          fun j hj => hrest j fun b hb => ?_⟩
        · rw [hsplit, List.append_nil]
          exact hlog
        · exact hports b k e' slot (passed_last hv h.bank hnext hb)
        · rcases hb with hpassed | rfl
          · exact hj b (passed_subset hpassed)
          · exact hj _ h.bank

end

/-- Settles O34: the run begins with every register to come; what it answers is said of entries, and the reply drawn for
a register stands at the register's position. -/
theorem getMaskAnswersThePresentedMask : Obligations.GetMaskAnswersThePresentedMask := by
  intro i s f visit shift draws hwf hi hp hfree hanswers hlen
  have hv := hi.visit
  obtain ⟨t, g, hrun, hend⟩ := runAlone_readMask (done := []) (todo := (registersOf s.cfg visit).zip draws) hwf hi hlen {
    standing := standing_start hi.plan hp hfree, peers := fun _ _ => rfl, split := rfl
    position := (position_start hv).symm, bank := hv.head, entry := Config.nreg_pos hwf (hv.banks hv.head), place := rfl
    gathered := gathered_start _ hv rfl rfl rfl rfl
    answers := by rwa [List.map_snd_zip (Nat.le_of_eq hlen)]
    log := rfl }
  rw [List.length_zip, ← hlen, Nat.min_self] at hrun
  refine ⟨t, g, hrun, hend.ended, hend.outside, hend.peers, hend.log, fun b e slot draw hb he hslot hdraw => ?_, hend.rest⟩
  obtain ⟨k, hk⟩ := List.getElem?_of_mem he
  rw [hend.ports b k e slot hb hk hslot, wordRead, Config.entry_of_entry? hk, draw_at_position hwf hv hb hk hdraw]
  rfl

end Sys2Proof.Machine

/-! PROOFS. The statement of 41_transcode.md and 42_bank_mux.md about a whole run of `SET_MASK` and `MUX_SET_MASK` with
nobody else in between and no transaction failing (R170, R171, R174, R175, R210): one register is read, then written; then
the next, in the order of `registersOf` (R285). -/

namespace Sys2Proof.Machine

/-! ### A mask written alone -/

/-- The word written to the register of a selector, the peer device having chosen `draw` for the read: the bits of `h` in
the slots of its entry, every other bit as read (41_transcode.md R171). -/
def wordWritten (s : State) (f : Feature) (h : BankId → Word32) (b : BankId) (sel : Selector) (draw : RegWord) : RegWord :=
  match s.cfg.registerAt b sel with
  | .feature e => scatter (s.cfg.info f).off e.start (h b) e.count (s.logicalWord b sel draw)
  | .ledMode => 0
  | .undescribed => 0

theorem wordWritten_entry {s : State} (hwf : s.cfg.wf = true) {b : BankId} (hb : b ∈ s.cfg.banks) {k : Nat} {e : Entry}
    (he : s.cfg.entry? b k = some e) (f : Feature) (h : BankId → Word32) (draw : RegWord) :
    wordWritten s f h b e.sel draw = scatter (s.cfg.info f).off e.start (h b) e.count (s.logicalWord b e.sel draw) := by
  unfold wordWritten
  rw [Config.registerAt_sel hwf hb he]

/-- A register of a mask command, with the replies drawn for its read and its write. -/
abbrev DrawnPair := (BankId × Selector) × (RegWord × RegWord)

/-- The word written to a register. -/
def wordOf (s : State) (f : Feature) (h : BankId → Word32) (x : DrawnPair) : RegWord :=
  wordWritten s f h x.1.1 x.1.2 x.2.1

/-- The two transactions on a register. -/
def transactionsOf (s : State) (f : Feature) (h : BankId → Word32) (x : DrawnPair) : List Transaction :=
  [.read x.1.1 x.1.2 (s.wireWord x.1.1 x.1.2 x.2.1), .write x.1.1 x.1.2 (transform s.cfg (wordOf s f h x))]

/-- What a register retains of the word written to it. -/
def ctrlOf (s : State) (f : Feature) (h : BankId → Word32) (x : DrawnPair) : CtrlWord :=
  ⟨s.cfg.ctrlMask x.1.1 x.1.2, wordOf s f h x &&& s.cfg.ctrlMask x.1.1 x.1.2⟩

/-- The registers of `done` are written, every other is as it was. -/
structure WrittenTo (s u : State) (f : Feature) (h : BankId → Word32) (done : List DrawnPair) : Prop where
  mem     : MemoryOk u
  written : ∀ x ∈ done, u.ctrl x.1.1 x.1.2 = ctrlOf s f h x
  ahead   : ∀ b sel, (b, sel) ∉ done.map Prod.fst → u.ctrl b sel = s.ctrl b sel

/-- Where a `SET_MASK` or `MUX_SET_MASK` run alone stands before the read of a register: those of `done` are written, those
of `todo` are to come. -/
structure MaskWriting (s u : State) (i : Instr) (f : Feature) (visit : List BankId) (shift : BankId → Nat)
    (mask : Word32) (draws : List (RegWord × RegWord)) (done todo : List DrawnPair) (r : InFlight) : Prop where
  standing  : Standing s u i (writeMask s.cfg f visit shift mask) r
  split     : (registersOf s.cfg visit).zip draws = done ++ todo
  position  : done.length = position s.cfg visit r.b r.k
  bank      : r.b ∈ visit
  entry     : r.k < s.cfg.nreg r.b
  place     : r.place = .read
  acc       : r.acc = hardwareMask s.cfg f mask shift r.b
  registers : WrittenTo s u f (hardwareMask s.cfg f mask shift) done
  answers   : u.answers (todo.flatMap fun x => [x.2.1, x.2.2])
  log       : u.log = (done.flatMap (transactionsOf s f (hardwareMask s.cfg f mask shift))).reverse ++ s.log

/-- How such a run ends. -/
structure MaskWritten (s t : State) (f : Feature) (h : BankId → Word32) (all : List DrawnPair) : Prop where
  ended     : Ended s t (Response.done 0)
  outside   : SameOutside s t
  registers : WrittenTo s t f h all
  log       : t.log = (all.flatMap (transactionsOf s f h)).reverse ++ s.log

section
variable {s u u' : State} {f : Feature} {h : BankId → Word32} {done : List DrawnPair} {x : DrawnPair}

/-- A transaction that writes nothing. -/
theorem WrittenTo.same (hw : WrittenTo s u f h done) (hmem : MemoryOk u') (hpeers : SamePeers u u') :
    WrittenTo s u' f h done where
  mem := hmem
  written y hy := (hpeers ..).trans (hw.written y hy)
  ahead b sel hb := (hpeers ..).trans (hw.ahead b sel hb)

/-- One more register written. -/
theorem WrittenTo.write (hw : WrittenTo s u f h done) (hx : x.1 ∉ done.map Prod.fst) (hmem : MemoryOk u')
    (hctrl : u'.ctrl x.1.1 x.1.2 = ctrlOf s f h x) (hothers : SamePeersBut x.1.1 x.1.2 u u') :
    WrittenTo s u' f h (done ++ [x]) where
  mem := hmem
  written y hy := by
    rcases List.mem_append.1 hy with hy | hy
    · have hne : y.1 ≠ x.1 := fun heq => hx (heq ▸ List.mem_map_of_mem hy)
      exact (hothers y.1.1 y.1.2 hne).trans (hw.written y hy)
    · rw [List.mem_singleton.1 hy]
      exact hctrl
  ahead b sel hb := by
    rw [List.map_append, List.mem_append, not_or] at hb
    have hne : (b, sel) ≠ x.1 := fun heq => hb.2 (List.mem_singleton.2 heq)
    exact (hothers b sel hne).trans (hw.ahead b sel hb.1)

end

/-- A register to come is not among those done. -/
theorem notMem_done {cfg : Config} (hwf : cfg.wf = true) {visit : List BankId} (hv : VisitOk cfg visit) {α : Type}
    {draws : List α} (hlen : draws.length = (registersOf cfg visit).length) {done todo : List ((BankId × Selector) × α)}
    {x : (BankId × Selector) × α} (hsplit : (registersOf cfg visit).zip draws = done ++ x :: todo) :
    x.1 ∉ done.map Prod.fst := by
  have hnodup := registersOf_nodup hwf hv
  rw [← List.map_fst_zip (Nat.le_of_eq hlen.symm), hsplit, List.map_append, List.map_cons] at hnodup
  exact fun hmem => (List.nodup_append.1 hnodup).2.2 x.1 hmem x.1 (by simp) rfl

/-- Where such a run stands before the write of the register of `x`, which is read. -/
structure RegisterRead (s u : State) (i : Instr) (p : Plan) (f : Feature) (h : BankId → Word32)
    (done todo : List DrawnPair) (x : DrawnPair) (r : InFlight) : Prop where
  standing  : Standing s u i p r
  place     : r.place = .write
  wbuf      : r.wbuf = wordOf s f h x
  registers : WrittenTo s u f h done
  answers   : u.answers (x.2.2 :: todo.flatMap fun y => [y.2.1, y.2.2])
  log       : u.log = .read x.1.1 x.1.2 (s.wireWord x.1.1 x.1.2 x.2.1) ::
    ((done.flatMap (transactionsOf s f h)).reverse ++ s.log)

section
variable {s u : State} {i : Instr} {f : Feature} {visit : List BankId} {shift : BankId → Nat} {mask : Word32}
  {draws : List (RegWord × RegWord)} {done todo : List DrawnPair} {r : InFlight}

/-- The next register is read, and the word put together from what was read is the one to write. -/
theorem MaskWriting.read (hwf : s.cfg.wf = true) (hi : WritesMask s.cfg f visit shift mask i)
    (hlen : draws.length = (registersOf s.cfg visit).length) {e : Entry} {d : RegWord × RegWord}
    (he : s.cfg.entry? r.b r.k = some e)
    (h : MaskWriting s u i f visit shift mask draws done (((r.b, e.sel), d) :: todo) r) :
    ∃ u1 w, (∀ n, runAlone i (n + 1) u = runAlone i n u1) ∧
      RegisterRead s u1 i (writeMask s.cfg f visit shift mask) f (hardwareMask s.cfg f mask shift) done todo
        ((r.b, e.sel), d) { r with wbuf := w, place := .write } := by
  obtain ⟨hreply, hanswers⟩ := State.answers_cons h.answers
  have hcfg := h.standing.along.outside.cfg
  have hsame := h.registers.ahead r.b e.sel (notMem_done hwf hi.visit hlen h.split)
  obtain ⟨s1, ha, hpeers, hexec⟩ := h.standing.due.read_ok (b := r.b) (sel := e.sel)
    (by rw [h.standing.record]; exact writeMask_target h.bank he) (by rw [h.standing.record]; exact h.place) hreply
  rw [h.standing.record, writeMask_afterRead he, logicalWord_congr hcfg hsame] at hexec
  rw [wireWord_congr hcfg hsame] at ha
  have hbusy := h.standing.phase
  refine ⟨_, _, fun n => runAlone_proceed_go hexec hbusy, h.standing.go ha hbusy (.inr rfl), rfl, ?_,
    h.registers.same (memoryOk_exec h.registers.mem hexec) (hpeers.proceed _), hanswers _ ha.bus, ?_⟩
  · rw [wordOf, wordWritten_entry hwf (hi.visit.banks h.bank) he, h.acc]
  · rw [State.log_proceed, ha.log, h.log]

/-- The word put together is written. -/
theorem RegisterRead.write {p : Plan} {h : BankId → Word32} {x : DrawnPair}
    (hread : RegisterRead s u i p f h done todo x r) (hx : x.1 ∉ done.map Prod.fst)
    (htarget : p.target r = some x.1) :
    ∃ y s2, After u s2 p y ∧ exec i u = .next (s2.proceed (p.afterWrite r))
      ∧ WrittenTo s (s2.proceed (p.afterWrite r)) f h (done ++ [x])
      ∧ s2.answers (todo.flatMap fun y => [y.2.1, y.2.2])
      ∧ s2.log = ((done ++ [x]).flatMap (transactionsOf s f h)).reverse ++ s.log := by
  obtain ⟨hreply, hanswers⟩ := State.answers_cons hread.answers
  have hcfg := hread.standing.along.outside.cfg
  obtain ⟨s2, ha, hwrote, hexec⟩ := hread.standing.due.write_ok (b := x.1.1) (sel := x.1.2)
    (by rw [hread.standing.record]; exact htarget) (by rw [hread.standing.record]; exact hread.place) hreply
  rw [hread.standing.record] at ha hwrote hexec
  rw [hread.wbuf, hcfg] at ha hwrote
  have hwrote' := hwrote.proceed (p.afterWrite r)
  refine ⟨_, s2, ha, hexec, ?_, hanswers s2 ha.bus, ?_⟩
  · exact hread.registers.write hx (memoryOk_exec hread.registers.mem hexec)
      (hwrote'.here hread.registers.mem.canonical) hwrote'.others
  · rw [ha.log, hread.log, List.flatMap_append, List.reverse_append]
    rfl

/-- A `SET_MASK` or `MUX_SET_MASK` run alone, from any of its reads on. -/
theorem runAlone_writeMask (hwf : s.cfg.wf = true) (hi : WritesMask s.cfg f visit shift mask i)
    (hlen : draws.length = (registersOf s.cfg visit).length)
    (h : MaskWriting s u i f visit shift mask draws done todo r) :
    ∃ t, runAlone i (2 * todo.length) u = .next t
      ∧ MaskWritten s t f (hardwareMask s.cfg f mask shift) ((registersOf s.cfg visit).zip draws) := by
  have hv := hi.visit
  induction todo generalizing u done r with
  | nil =>
    obtain ⟨e, he⟩ := Config.entry?_of_lt h.entry
    obtain ⟨d, todo', hnil, -⟩ := todo_eq_cons hv hlen h.split h.bank he h.position
    cases hnil
  | cons x todo ih =>
    obtain ⟨e, he⟩ := Config.entry?_of_lt h.entry
    obtain ⟨d, todo', hcons, -⟩ := todo_eq_cons hv hlen h.split h.bank he h.position
    obtain ⟨rfl, rfl⟩ := List.cons.inj hcons
    have hnot := notMem_done hwf hv hlen h.split
    obtain ⟨u1, w, hrun, hread⟩ := h.read hwf hi hlen he
    obtain ⟨y, s2, ha, hexec, hregisters, hanswers, hlog⟩ := hread.write hnot (writeMask_target h.bank he)
    have hbusy := hread.standing.phase
    have hsplit : (registersOf s.cfg visit).zip draws = (done ++ [((r.b, e.sel), d)]) ++ todo := by
      rw [h.split, List.append_assoc, List.singleton_append]
    have hdone : (done ++ [((r.b, e.sel), d)]).length = position s.cfg visit r.b r.k + 1 := by
      rw [List.length_append, h.position]
      rfl
    rw [show 2 * (((r.b, e.sel), d) :: todo).length = 2 * todo.length + 1 + 1 by rw [List.length_cons]; omega, hrun]
    by_cases hk : r.k + 1 < s.cfg.nreg r.b
    · rw [writeMask_more (r := { r with wbuf := w, place := .write }) hk] at hexec hregisters
      rw [runAlone_proceed_go hexec hbusy]
      exact ih {
        standing := hread.standing.go ha hbusy (.inl rfl), split := hsplit, position := hdone, bank := h.bank
        entry := hk, place := rfl, acc := h.acc, registers := hregisters, answers := hanswers, log := hlog }
    · have hk' : s.cfg.nreg r.b ≤ r.k + 1 := Nat.le_of_not_lt hk
      have hlast : r.k + 1 = s.cfg.nreg r.b := Nat.le_antisymm h.entry hk'
      cases hnext : nextBank visit r.b with
      | some b =>
        rw [writeMask_next (r := { r with wbuf := w, place := .write }) hk' hnext] at hexec hregisters
        rw [runAlone_proceed_go hexec hbusy]
        have hb := nextBank_mem hnext
        exact ih {
          standing := hread.standing.go ha hbusy (.inl rfl), split := hsplit
          position := hdone.trans (position_next hv hnext hlast).symm, bank := hb
          entry := Config.nreg_pos hwf (hv.banks hb), place := rfl, acc := rfl, registers := hregisters
          answers := hanswers, log := hlog }
      | none =>
        rw [writeMask_done (r := { r with wbuf := w, place := .write }) hk' hnext] at hexec hregisters
        obtain rfl := todo_eq_nil hv hlen h.split h.bank h.position hlast hnext
        obtain ⟨hended, houtside⟩ := (hread.standing.along.after ha).ended _
        rw [hsplit, List.append_nil]
        exact ⟨_, runAlone_respond hexec, hended, houtside, hregisters, hlog⟩

end

/-- Pairing with what is computed of a pair. -/
theorem zip_zip_map {α β γ : Type} (l : List α) (l' : List β) (g : α × β → γ) :
    l.zip (l'.zip ((l.zip l').map g)) = (l.zip l').map fun x => (x.1, x.2, g x) := by
  induction l generalizing l' with
  | nil => rfl
  | cons a l ih =>
    cases l' with
    | nil => rfl
    | cons b l' => simp only [List.zip_cons_cons, List.map_cons, ih]

/-- Settles O35: the run begins with every register to come; the words written are those of `wordOf`, whose bits are
those of `scatter`. -/
theorem setMaskWritesThePresentedMask : Obligations.SetMaskWritesThePresentedMask := by
  intro i s f visit shift mask draws hwf hm hi hp hfree hanswers hlen
  have hv := hi.visit
  have hfst := List.map_fst_zip (Nat.le_of_eq hlen.symm)
  have hsnd := List.map_snd_zip (Nat.le_of_eq hlen)
  obtain ⟨t, hrun, hend⟩ := runAlone_writeMask (done := []) (todo := (registersOf s.cfg visit).zip draws) hwf hi hlen {
    standing := standing_start hi.plan hp hfree, split := rfl, position := (position_start hv).symm, bank := hv.head
    entry := Config.nreg_pos hwf (hv.banks hv.head), place := rfl, acc := rfl
    registers := ⟨hm, fun _ hx => absurd hx List.not_mem_nil, fun _ _ _ => rfl⟩
    answers := by rwa [← hsnd, List.flatMap_map] at hanswers
    log := rfl }
  have hzip := zip_zip_map (registersOf s.cfg visit) draws (wordOf s f (hardwareMask s.cfg f mask shift))
  rw [List.length_zip, ← hlen, Nat.min_self] at hrun
  refine ⟨t, ((registersOf s.cfg visit).zip draws).map (wordOf s f (hardwareMask s.cfg f mask shift)), hrun, hend.ended,
    hend.outside, ?length, ?log, fun b sel hnot => ?_, fun b e _ w hb he hmem => ?_⟩
  case length => rw [List.length_map, List.length_zip, ← hlen, Nat.min_self]
  case log =>
    rw [hzip, List.flatMap_map]
    exact hend.log
  · exact hend.registers.ahead b sel (by rwa [hfst])
  · rw [hzip] at hmem
    obtain ⟨⟨⟨_, _⟩, draw⟩, hx, heq⟩ := List.mem_map.1 hmem
    cases heq
    obtain ⟨k, hk⟩ := List.getElem?_of_mem he
    have hbank := hv.banks hb
    have hcount := Config.entry_bounds hwf hbank hk
    have hword : wordOf s f (hardwareMask s.cfg f mask shift) ((b, e.sel), draw) =
        scatter (s.cfg.info f).off e.start (hardwareMask s.cfg f mask shift b) e.count (s.logicalWord b e.sel draw.1) :=
      wordWritten_entry hwf hbank hk f _ draw.1
    refine ⟨hend.registers.written _ hx, fun slot hslot => ?_, fun j hj => ?_⟩
    · rw [hword, ← hi.getLsbD_hardwareMask hwf hb (by omega)]
      exact getLsbD_scatter_slot _ _ _ _ hslot (by omega)
    · rw [hword]
      exact getLsbD_scatter_other _ _ _ _ _ _ hj

end Sys2Proof.Machine
